-- ==== Sys2Proof/Word.lean ====
section
/-!
DEFINITION. The words the engine handles: bytes (00_scope.md R8), the 32-bit request header
(30_encoding.md R42) and one entry of the font table (10_state.md R20).
-/

namespace Sys2Proof

/-- A byte is 8 bits (R8). -/
abbrev Byte := BitVec 8

/-- A request header is one 32-bit word (R42). -/
abbrev Header := BitVec 32

/-- A font entry: `R_SRC = 5` bytes, byte `j` being column `j` of the source glyph (R20, R59). -/
abbrev GlyphRow := Vector Byte 5

end Sys2Proof
end

