-- ==== Sys2Proof/Syntax.lean ====
section
/-!
DEFINITION. The 27 rows of spec/opcode_table.json, one constructor each. The first eight are the requests
the engine executes (30_encoding.md R43), then the three addressing command bytes (R40) and the sixteen
initialization commands (R41) that the target executes.
-/

namespace Sys2Proof

/-- An instruction: a request of the host to the engine, or a command of the engine to the target. -/
inductive Instr where
  /-- `INIT` (R79). -/
  | init
  /-- `SETPOS page, column` (R51). -/
  | setpos (page column : Byte)
  /-- `WRITE page, column, data` (R66). -/
  | write (page column : Byte) (data : List Byte)
  /-- `DRAWGLYPH page, column` with the glyph source tag of the `len` field and its one payload byte (R45, R65). -/
  | drawglyph (page column : Byte) (tag : BitVec 12) (v : Byte)
  /-- `DRAWSTR startPage, startColumn, text` (R72). -/
  | drawstr (page column : Byte) (text : List Byte)
  /-- `DRAWICON startPage, startColumn, icon`, the four tiles one after the other (R46, R76). -/
  | drawicon (page column : Byte) (icon : List Byte)
  /-- `DRAWIMG startPage, startColumn, image`, byte `p*64 + c` (R46, R77). -/
  | drawimg (page column : Byte) (image : List Byte)
  /-- `CLEAR` (R81). -/
  | clear
  /-- `SETPAGE`, operand bits 2..0 (R40, R52). -/
  | setpage (p : BitVec 3)
  /-- `SETCOLLO`, operand bits 3..0 (R40, R53). -/
  | setcollo (l : BitVec 4)
  /-- `SETCOLHI`, operand bits 3..0 (R40, R54). -/
  | setcolhi (h : BitVec 4)
  /-- `0xAE`, one byte (R41, R80). -/
  | initAE
  /-- `0xD5` and its argument byte (R41, R80). -/
  | initD5 (arg : Byte)
  /-- `0xA8` and its argument byte. -/
  | initA8 (arg : Byte)
  /-- `0xD3` and its argument byte. -/
  | initD3 (arg : Byte)
  /-- `0x40`, one byte. -/
  | init40
  /-- `0x8D` and its argument byte. -/
  | init8D (arg : Byte)
  /-- `0x20` and its argument byte, which sets the addressing mode. -/
  | init20 (arg : Byte)
  /-- `0xA1`, one byte. -/
  | initA1
  /-- `0xC8`, one byte. -/
  | initC8
  /-- `0xDA` and its argument byte. -/
  | initDA (arg : Byte)
  /-- `0x81` and its argument byte. -/
  | init81 (arg : Byte)
  /-- `0xD9` and its argument byte. -/
  | initD9 (arg : Byte)
  /-- `0xDB` and its argument byte. -/
  | initDB (arg : Byte)
  /-- `0xA4`, one byte. -/
  | initA4
  /-- `0xA6`, one byte. -/
  | initA6
  /-- `0xAF`, one byte. -/
  | initAF
deriving DecidableEq, Repr

end Sys2Proof
end

