-- ==== Sys2Proof/WellFormed.lean ====
section
/-!
DEFINITION. Which instructions a request can carry: the `len` field has 12 bits (30_encoding.md R42), an icon
has exactly 32 bytes and an image exactly 384 (R43, R47). Every other field's type already holds its width.
-/

namespace Sys2Proof

/-- The instruction has an encoding: its payload has a length that its header can give. -/
def Instr.wellFormed : Instr → Bool
  | .write _ _ data => data.length ≤ 4095
  | .drawstr _ _ text => text.length ≤ 4095
  | .drawicon _ _ icon => icon.length = 32
  | .drawimg _ _ image => image.length = 384
  | .init | .setpos _ _ | .drawglyph _ _ _ _ | .clear => true
  | .setpage _ | .setcollo _ | .setcolhi _ => true
  | .initAE | .init40 | .initA1 | .initC8 | .initA4 | .initA6 | .initAF => true
  | .initD5 _ | .initA8 _ | .initD3 _ | .init8D _ | .init20 _ => true
  | .initDA _ | .init81 _ | .initD9 _ | .initDB _ => true

end Sys2Proof
end

