-- ==== Sys2Proof/Decode.lean ====
section
/-!
DEFINITION. The encodings of 30_encoding.md: what a request header with its payload bytes (R42, R43) or a
string of command bytes (R40, R41) stands for, total on any input and rejecting by name; and the encoder,
written from the same tables.
-/

namespace Sys2Proof

/-- The words of an instruction as the hardware takes them: a header word and payload bytes on the host's
two ports, or command bytes written to the target's command register. -/
inductive Words where
  | request (h : Header) (payload : List Byte)
  | command (bytes : List Byte)
deriving DecidableEq, Repr

/-- Why a string of words is no instruction. -/
inductive DecodeError where
  /-- The header matches no row of R43 (R47): the engine raises `IllegalRequest`. -/
  | illegalRequest
  /-- Fewer payload bytes than the header implies (R49, R103). -/
  | payloadShort
  /-- No command byte at all. -/
  | noByte
  /-- An argument-taking command byte whose argument has not arrived (R41). -/
  | argumentMissing
  /-- A command byte of no row of R40 and R41 (R48). -/
  | refusedByte
deriving DecidableEq, Repr

/-- Bits 27:16 of a header: payload length or glyph source tag (R42). -/
def headerLen (h : Header) : BitVec 12 := h.extractLsb' 16 12

/-- Bits 15:8 of a header: the page operand (R42). -/
def headerPage (h : Header) : Byte := h.extractLsb' 8 8

/-- Bits 7:0 of a header: the column operand (R42). -/
def headerColumn (h : Header) : Byte := h.extractLsb' 0 8

/-- The first `n` bytes and what follows them, or nothing if there are fewer. -/
def takeExact : Nat → List Byte → Option (List Byte × List Byte)
  | 0, bs => some ([], bs)
  | _ + 1, [] => none
  | n + 1, b :: bs =>
    match takeExact n bs with
    | some (taken, rest) => some (b :: taken, rest)
    | none => none

/-- An instruction whose operands are the next `n` payload bytes (R46, R49). -/
def withPayload (n : Nat) (pl : List Byte) (mk : List Byte → Instr) :
    Except DecodeError (Instr × List Byte) :=
  match takeExact n pl with
  | some (taken, rest) => .ok (mk taken, rest)
  | none => .error .payloadShort

/-- Request decode, R43: the operation whose `(header & mask) == match`, with the payload bytes the header
implies (R49) taken from the payload port; a header of no row is illegal (R47). -/
def decodeRequest (h : Header) (pl : List Byte) : Except DecodeError (Instr × List Byte) :=
  if h &&& 0xFFFFFFFF#32 = 0x00000000#32 then .ok (.init, pl)
  else if h &&& 0xFFFF0000#32 = 0x10000000#32 then
    .ok (.setpos (headerPage h) (headerColumn h), pl)
  else if h &&& 0xF0000000#32 = 0x20000000#32 then
    withPayload (headerLen h).toNat pl (.write (headerPage h) (headerColumn h))
  else if h &&& 0xF0000000#32 = 0x30000000#32 then
    match pl with
    | v :: rest => .ok (.drawglyph (headerPage h) (headerColumn h) (headerLen h) v, rest)
    | [] => .error .payloadShort
  else if h &&& 0xF0000000#32 = 0x40000000#32 then
    withPayload (headerLen h).toNat pl (.drawstr (headerPage h) (headerColumn h))
  else if h &&& 0xFFFF0000#32 = 0x50200000#32 then
    withPayload 32 pl (.drawicon (headerPage h) (headerColumn h))
  else if h &&& 0xFFFF0000#32 = 0x61800000#32 then
    withPayload 384 pl (.drawimg (headerPage h) (headerColumn h))
  else if h &&& 0xFFFFFFFF#32 = 0x70000000#32 then .ok (.clear, pl)
  else .error .illegalRequest

/-- The nine command bytes that take one argument byte, in the order R41 lists them. -/
def argCommands : List Byte :=
  [0x20#8, 0x81#8, 0x8D#8, 0xA8#8, 0xD3#8, 0xD5#8, 0xD9#8, 0xDA#8, 0xDB#8]

/-- The seven one-byte initialization commands (R41, R80). -/
def plainCommands : List Byte :=
  [0xAE#8, 0xAF#8, 0xA4#8, 0xA6#8, 0xA1#8, 0xC8#8, 0x40#8]

/-- The instruction of a one-byte initialization command (R41). -/
def plainCommand (v : Byte) : Option Instr :=
  if v = 0xAE#8 then some .initAE
  else if v = 0x40#8 then some .init40
  else if v = 0xA1#8 then some .initA1
  else if v = 0xC8#8 then some .initC8
  else if v = 0xA4#8 then some .initA4
  else if v = 0xA6#8 then some .initA6
  else if v = 0xAF#8 then some .initAF
  else none

/-- The instruction of an argument-taking command byte `v` and its argument `a` (R41). -/
def argCommand (v a : Byte) : Option Instr :=
  if v = 0xD5#8 then some (.initD5 a)
  else if v = 0xA8#8 then some (.initA8 a)
  else if v = 0xD3#8 then some (.initD3 a)
  else if v = 0x8D#8 then some (.init8D a)
  else if v = 0x20#8 then some (.init20 a)
  else if v = 0xDA#8 then some (.initDA a)
  else if v = 0x81#8 then some (.init81 a)
  else if v = 0xD9#8 then some (.initD9 a)
  else if v = 0xDB#8 then some (.initDB a)
  else none

/-- Decode of the command bytes after a first byte that takes an argument (R41). -/
def decodeArg (v : Byte) : List Byte → Except DecodeError (Instr × List Byte)
  | [] => if v ∈ argCommands then .error .argumentMissing else .error .refusedByte
  | a :: rest =>
    match argCommand v a with
    | some i => .ok (i, rest)
    | none => .error .refusedByte

/-- Command decode, R40 and R41, of bytes received with `t.pend = none`. -/
def decodeCommand : List Byte → Except DecodeError (Instr × List Byte)
  | [] => .error .noByte
  | v :: rest =>
    if v &&& 0xF8#8 = 0xB0#8 then .ok (.setpage (v.extractLsb' 0 3), rest)
    else if v &&& 0xF0#8 = 0x00#8 then .ok (.setcollo (v.extractLsb' 0 4), rest)
    else if v &&& 0xF0#8 = 0x10#8 then .ok (.setcolhi (v.extractLsb' 0 4), rest)
    else
      match plainCommand v with
      | some i => .ok (i, rest)
      | none => decodeArg v rest

/-- Decode of either kind of words; the words after the instruction are returned with it. -/
def decode : Words → Except DecodeError (Instr × List Byte)
  | .request h pl => decodeRequest h pl
  | .command bs => decodeCommand bs

/-- A request header, R42: `opc` 31:28, `len` 27:16, `page` 15:8, `column` 7:0. -/
def requestHeader (opc : BitVec 4) (len : BitVec 12) (page column : Byte) : Header :=
  opc ++ len ++ page ++ column

/-- The `SETPAGE` byte `10110ppp` (R40). -/
def setPageByte (p : BitVec 3) : Byte := 0b10110#5 ++ p

/-- The `SETCOLLO` byte `0000llll` (R40). -/
def setColLoByte (l : BitVec 4) : Byte := 0b0000#4 ++ l

/-- The `SETCOLHI` byte `0001hhhh` (R40). -/
def setColHiByte (h : BitVec 4) : Byte := 0b0001#4 ++ h

/-- The words of an instruction, from the tables of R40, R41 and R43. -/
def encode : Instr → Words
  | .init => .request (requestHeader 0x0#4 0#12 0#8 0#8) []
  | .setpos p c => .request (requestHeader 0x1#4 0#12 p c) []
  | .write p c data => .request (requestHeader 0x2#4 (BitVec.ofNat 12 data.length) p c) data
  | .drawglyph p c tag v => .request (requestHeader 0x3#4 tag p c) [v]
  | .drawstr p c text => .request (requestHeader 0x4#4 (BitVec.ofNat 12 text.length) p c) text
  | .drawicon p c icon => .request (requestHeader 0x5#4 32#12 p c) icon
  | .drawimg p c image => .request (requestHeader 0x6#4 384#12 p c) image
  | .clear => .request (requestHeader 0x7#4 0#12 0#8 0#8) []
  | .setpage p => .command [setPageByte p]
  | .setcollo l => .command [setColLoByte l]
  | .setcolhi h => .command [setColHiByte h]
  | .initAE => .command [0xAE#8]
  | .initD5 a => .command [0xD5#8, a]
  | .initA8 a => .command [0xA8#8, a]
  | .initD3 a => .command [0xD3#8, a]
  | .init40 => .command [0x40#8]
  | .init8D a => .command [0x8D#8, a]
  | .init20 a => .command [0x20#8, a]
  | .initA1 => .command [0xA1#8]
  | .initC8 => .command [0xC8#8]
  | .initDA a => .command [0xDA#8, a]
  | .init81 a => .command [0x81#8, a]
  | .initD9 a => .command [0xD9#8, a]
  | .initDB a => .command [0xDB#8, a]
  | .initA4 => .command [0xA4#8]
  | .initA6 => .command [0xA6#8]
  | .initAF => .command [0xAF#8]

/-- More bytes behind the words of an instruction. -/
def Words.append : Words → List Byte → Words
  | .request h pl, more => .request h (pl ++ more)
  | .command bs, more => .command (bs ++ more)

/-- A row of spec/opcode_table.json: a word `w` of `nbits` bits is this row's when `w & mask = pattern`. -/
structure Row where
  mnemonic : String
  nbits : Nat
  mask : Nat
  pattern : Nat
deriving DecidableEq, Repr

/-- The opcode table's row of an instruction. -/
def Instr.row : Instr → Row
  | .init => ⟨"INIT", 32, 0xFFFFFFFF, 0x00000000⟩
  | .setpos _ _ => ⟨"SETPOS", 32, 0xFFFF0000, 0x10000000⟩
  | .write _ _ _ => ⟨"WRITE", 32, 0xF0000000, 0x20000000⟩
  | .drawglyph _ _ _ _ => ⟨"DRAWGLYPH", 32, 0xF0000000, 0x30000000⟩
  | .drawstr _ _ _ => ⟨"DRAWSTR", 32, 0xF0000000, 0x40000000⟩
  | .drawicon _ _ _ => ⟨"DRAWICON", 32, 0xFFFF0000, 0x50200000⟩
  | .drawimg _ _ _ => ⟨"DRAWIMG", 32, 0xFFFF0000, 0x61800000⟩
  | .clear => ⟨"CLEAR", 32, 0xFFFFFFFF, 0x70000000⟩
  | .setpage _ => ⟨"SETPAGE", 8, 0xF8, 0xB0⟩
  | .setcollo _ => ⟨"SETCOLLO", 8, 0xF0, 0x00⟩
  | .setcolhi _ => ⟨"SETCOLHI", 8, 0xF0, 0x10⟩
  | .initAE => ⟨"INIT_AE", 8, 0xFF, 0xAE⟩
  | .initD5 _ => ⟨"INIT_D5", 8, 0xFF, 0xD5⟩
  | .initA8 _ => ⟨"INIT_A8", 8, 0xFF, 0xA8⟩
  | .initD3 _ => ⟨"INIT_D3", 8, 0xFF, 0xD3⟩
  | .init40 => ⟨"INIT_40", 8, 0xFF, 0x40⟩
  | .init8D _ => ⟨"INIT_8D", 8, 0xFF, 0x8D⟩
  | .init20 _ => ⟨"INIT_20", 8, 0xFF, 0x20⟩
  | .initA1 => ⟨"INIT_A1", 8, 0xFF, 0xA1⟩
  | .initC8 => ⟨"INIT_C8", 8, 0xFF, 0xC8⟩
  | .initDA _ => ⟨"INIT_DA", 8, 0xFF, 0xDA⟩
  | .init81 _ => ⟨"INIT_81", 8, 0xFF, 0x81⟩
  | .initD9 _ => ⟨"INIT_D9", 8, 0xFF, 0xD9⟩
  | .initDB _ => ⟨"INIT_DB", 8, 0xFF, 0xDB⟩
  | .initA4 => ⟨"INIT_A4", 8, 0xFF, 0xA4⟩
  | .initA6 => ⟨"INIT_A6", 8, 0xFF, 0xA6⟩
  | .initAF => ⟨"INIT_AF", 8, 0xFF, 0xAF⟩

/-- The table's 32-bit rows, the requests (R43). -/
def requestRows : List Row :=
  [⟨"INIT", 32, 0xFFFFFFFF, 0x00000000⟩,
   ⟨"SETPOS", 32, 0xFFFF0000, 0x10000000⟩,
   ⟨"WRITE", 32, 0xF0000000, 0x20000000⟩,
   ⟨"DRAWGLYPH", 32, 0xF0000000, 0x30000000⟩,
   ⟨"DRAWSTR", 32, 0xF0000000, 0x40000000⟩,
   ⟨"DRAWICON", 32, 0xFFFF0000, 0x50200000⟩,
   ⟨"DRAWIMG", 32, 0xFFFF0000, 0x61800000⟩,
   ⟨"CLEAR", 32, 0xFFFFFFFF, 0x70000000⟩]

/-- The table's 8-bit rows, the command bytes (R40, R41). -/
def commandRows : List Row :=
  [⟨"SETPAGE", 8, 0xF8, 0xB0⟩,
   ⟨"SETCOLLO", 8, 0xF0, 0x00⟩,
   ⟨"SETCOLHI", 8, 0xF0, 0x10⟩,
   ⟨"INIT_AE", 8, 0xFF, 0xAE⟩,
   ⟨"INIT_D5", 8, 0xFF, 0xD5⟩,
   ⟨"INIT_A8", 8, 0xFF, 0xA8⟩,
   ⟨"INIT_D3", 8, 0xFF, 0xD3⟩,
   ⟨"INIT_40", 8, 0xFF, 0x40⟩,
   ⟨"INIT_8D", 8, 0xFF, 0x8D⟩,
   ⟨"INIT_20", 8, 0xFF, 0x20⟩,
   ⟨"INIT_A1", 8, 0xFF, 0xA1⟩,
   ⟨"INIT_C8", 8, 0xFF, 0xC8⟩,
   ⟨"INIT_DA", 8, 0xFF, 0xDA⟩,
   ⟨"INIT_81", 8, 0xFF, 0x81⟩,
   ⟨"INIT_D9", 8, 0xFF, 0xD9⟩,
   ⟨"INIT_DB", 8, 0xFF, 0xDB⟩,
   ⟨"INIT_A4", 8, 0xFF, 0xA4⟩,
   ⟨"INIT_A6", 8, 0xFF, 0xA6⟩,
   ⟨"INIT_AF", 8, 0xFF, 0xAF⟩]

/-- No word is of both rows: some bit that both fix has different values in them. -/
def Row.disjoint (a b : Row) : Bool := (a.mask &&& b.mask) &&& (a.pattern ^^^ b.pattern) != 0

/-- The word of an instruction that its row fixes: the request header, or the first command byte. -/
def Words.head : Words → Nat
  | .request h _ => h.toNat
  | .command [] => 0
  | .command (v :: _) => v.toNat

/-- `[b0, b1, ...]` (R50). -/
def byteListText (bs : List Byte) : String :=
  "[" ++ String.intercalate ", " (bs.map (fun b => toString b.toNat)) ++ "]"

/-- `page, column` (R50). -/
def positionText (page column : Byte) : String := toString page.toNat ++ ", " ++ toString column.toNat

/-- A character code as a character (R50): the one of the same Unicode number, and unescaped, also a control code, a
quote or a code outside ASCII. The spec names no character set (N15, D30) and no escape; this is the model's choice
(DESIGN CHOICE, log 30). -/
def charOf (b : Byte) : Char := Char.ofNat b.toNat

/-- The textual form of an operation (R50); a command byte, and a glyph source that is neither a character nor
an integer, have none. -/
def Instr.text : Instr → Option String
  | .init => some "INIT"
  | .setpos p c => some ("SETPOS " ++ positionText p c)
  | .write p c data => some ("WRITE " ++ positionText p c ++ ", " ++ byteListText data)
  | .drawglyph p c tag v =>
    if tag = 0#12 then some ("DRAWGLYPH " ++ positionText p c ++ ", '" ++ String.singleton (charOf v) ++ "'")
    else if tag = 1#12 then some ("DRAWGLYPH " ++ positionText p c ++ ", #" ++ toString v.toNat)
    else none
  | .drawstr p c text =>
    some ("DRAWSTR " ++ positionText p c ++ ", \"" ++ String.ofList (text.map charOf) ++ "\"")
  | .drawicon p c icon =>
    some ("DRAWICON " ++ positionText p c ++ ", " ++ byteListText (icon.take 8) ++ ", " ++
      byteListText ((icon.drop 8).take 8) ++ ", " ++ byteListText ((icon.drop 16).take 8) ++ ", " ++
      byteListText ((icon.drop 24).take 8))
  | .drawimg p c image => some ("DRAWIMG " ++ positionText p c ++ ", " ++ byteListText image)
  | .clear => some "CLEAR"
  | .setpage _ | .setcollo _ | .setcolhi _ => none
  | .initAE | .init40 | .initA1 | .initC8 | .initA4 | .initA6 | .initAF => none
  | .initD5 _ | .initA8 _ | .initD3 _ | .init8D _ | .init20 _ => none
  | .initDA _ | .init81 _ | .initD9 _ | .initDB _ => none

/-- How many payload bytes a header implies (R49); none for an illegal header. -/
def impliedPayload (h : Header) : Nat :=
  if h &&& 0xF0000000#32 = 0x20000000#32 then (headerLen h).toNat
  else if h &&& 0xF0000000#32 = 0x30000000#32 then 1
  else if h &&& 0xF0000000#32 = 0x40000000#32 then (headerLen h).toNat
  else if h &&& 0xFFFF0000#32 = 0x50200000#32 then 32
  else if h &&& 0xFFFF0000#32 = 0x61800000#32 then 384
  else 0

/-- The command bytes of a row of the opcode table whose bits are `w`: its byte, and the next byte of `w`
when the row takes an argument (R41). -/
def tableBytes (w : Nat) : List Byte :=
  if BitVec.ofNat 8 w ∈ argCommands then [BitVec.ofNat 8 w, BitVec.ofNat 8 (w / 256)]
  else [BitVec.ofNat 8 w]

/-- The words of an instruction whose bits are `w` as spec/opcode_table.json numbers them: a row of 32 bits is
a request header, followed by the payload it implies, all zero; a row of 8 bits is a command byte. -/
def tableWords (nbits w : Nat) : Words :=
  if nbits ≤ 16 then .command (tableBytes w)
  else .request (BitVec.ofNat 32 w) (List.replicate (impliedPayload (BitVec.ofNat 32 w)) 0#8)

/-- The instruction the decoder reads from the words of `w`. -/
def decodeTableWord (nbits w : Nat) : Option Instr :=
  match decode (tableWords nbits w) with
  | .ok (i, _) => some i
  | .error _ => none

end Sys2Proof
end

