-- ==== Sys2Proof/Config.lean ====
section
/-!
DEFINITION. What the spec leaves open: the font table (00_scope.md R7) and the free values that stand for
its "draws" (00_scope.md section 7). Each is an opaque constant: no proof can learn a value of it.
-/

namespace Sys2Proof

/-- The open parameter behind `FONT` and `N_GLYPHS` (R7), less the one entry the spec gives. -/
opaque Config.fontRest : List GlyphRow

/-- The font table at reset: open in size and contents, but for the entry of `'A'`, which R7 gives
(it stands only if the open table has an entry `0x21`). -/
def Config.font : List GlyphRow :=
  Config.fontRest.set 0x21 #v[0x7E#8, 0x11#8, 0x11#8, 0x11#8, 0x7E#8]

/-- The cursor page left by free-value event `n` (60_exceptions.md R84, 10_state.md R23). -/
opaque Config.freePage : Nat → BitVec 3

/-- The cursor column left by free-value event `n` (R84, R23). -/
opaque Config.freeCol : Nat → BitVec 7

/-- The awaited argument left by free-value event `n`: none, or one of the nine argument-taking
command bytes, by its place in R41's list (R84 (d), R23). -/
opaque Config.freePend : Nat → Option (Fin 9)

/-- The byte left by free-value event `n` in the `k`-th cell of a failed transaction's footprint (R84 (c)). -/
opaque Config.freeCell : Nat → Nat → Byte

/-- The byte that power-on event `n` leaves in GDDRAM cell `a` (R23). -/
opaque Config.powerOnByte : Nat → Nat → Byte

/-- Whether the transaction in flight at engine reset was delivered, for free-value event `n`
(70_reset_and_hazards.md R93). -/
opaque Config.freeDelivered : Nat → Bool

end Sys2Proof
end

