-- ==== Sys2Proof/Machine/State.lean ====
section
/-!
DEFINITION. Everything the spec gives the machine, as plain data: the engine's registers (10_state.md R12,
R13), its status (R14), the transaction on its transport port (47_common_laws.md R104), the target's cursor,
mode, awaited argument and GDDRAM (10_state.md R16 to R18), the answered transactions of the trace (R21), the
codes of a run (R110), the font table (R20), and the inputs a step reads.
-/

namespace Sys2Proof.Machine

/-- The eight operations, by opcode (R43): the value of register `op`. -/
inductive Op where
  | init | setpos | write | drawglyph | drawstr | drawicon | drawimg | clear
deriving DecidableEq, Repr

/-- The sequencer's phases (R13). -/
inductive Phase where
  | idle | check | cmdPage | cmdCollo | cmdColhi | chunk | initseq | expand
deriving DecidableEq, Repr

/-- The error codes of R82. Codes 5 to 7 are reserved and never produced, so they have no constructor. -/
inductive Err where
  | none | invalidGlyphInput | emptyPayload | transportFailure | illegalRequest
deriving DecidableEq, Repr

/-- The target's addressing mode `t.mode` (R18). -/
inductive Mode where
  | uninit | horiz | other
deriving DecidableEq, Repr

/-- A transaction (R39): a register write of one byte to `REG_CMD`, or a block write to `REG_DATA`. -/
inductive Txn where
  | cmd (v : Byte)
  | data (bs : List Byte)
deriving DecidableEq, Repr

/-- One answered entry of the trace: a transaction and whether the transport answered ok (R21). -/
structure Entry where
  txn : Txn
  ok : Bool
deriving DecidableEq, Repr

/-- What the transport does with the transaction on its port at a step: answer ok, answer fail (R104), or
leave it unanswered, so that the engine goes on waiting (R102). -/
inductive Answer where
  | ok | fail | wait
deriving DecidableEq, Repr

/-- What arrives from outside: a request header at the host port (R103), engine reset and target power-on
(R93), and, so that the target's commands can be run on their own, command bytes written to `REG_CMD`
without the engine (log 5). -/
inductive Input where
  | request (h : Header)
  | rst
  | powerOn
  | command (bytes : List Byte)
deriving DecidableEq, Repr

/-- The engine's status register (R14): `busy` and the error code. -/
structure Status where
  busy : Bool
  err : Err
deriving DecidableEq, Repr

/-- The GDDRAM cells stored to since power-on, as (address, byte) pairs at rising addresses; cell `(p, c)` has
address `128 p + c`. A cell with no entry still holds what power-on left in it (R23, log 10). -/
abbrev Memory := List Host.Cell

/-- The engine's registers (R12), its sequencer position (R13) and the payload of the request in progress
(R35). Quantities that R12 gives 9 or 12 bits are natural numbers, as R12 allows (log 17). -/
structure Engine where
  phase : Phase
  op : Op
  aPage : Byte
  aCol : Byte
  aLen : Nat
  wPage : Nat
  wCol : Nat
  wLen : Nat
  wOff : Nat
  trPage : Nat
  trCol : Nat
  idx : Nat
  gUpper : Vector Byte 10
  gLower : Vector Byte 10
  payload : List Byte
deriving DecidableEq, Repr

/-- The target's state (R16 to R18). `power` is the power-on event whose draws fill the cells that `g` does not
list (R23); it is the model's own (log 10). -/
structure Target where
  page : BitVec 3
  col : BitVec 7
  mode : Mode
  pend : Option Byte
  power : Nat
  g : Memory
deriving DecidableEq, Repr

/-- The whole machine. `target` is `none` once the target has refused a byte: from there on it has no state
(R110). `answered` is the part of the trace that has its answers, and `tx` the transaction issued and not yet
answered; the trace of R21 is the two together (`State.trace`). `draws` counts free-value events and is the model's
own (log 25). -/
structure State where
  eng : Engine
  status : Status
  tx : Option Txn
  answered : List Entry
  codes : List Err
  target : Option Target
  font : List GlyphRow
  inputs : List Input
  payloadPort : List Byte
  answers : List Answer
  draws : Nat
deriving DecidableEq, Repr

/-- Why a step can stop the machine. Both are stuck states; neither is reached by an instruction of the
opcode table run from an idle engine. -/
inductive Fault where
  /-- Raised by `step` when the host presents fewer payload bytes than the header implies: the engine would
  wait for ever with `busy = 1`, and the spec gives the host no such move (R103, 93 U12). Safe. -/
  | payloadShort
  /-- Raised by the sequencer at a position that R69's table has no row for; no run reaches one. Safe. -/
  | noSequencerRow
deriving DecidableEq, Repr

/-- Why an instruction can have no meaning. -/
inductive Refusal where
  /-- Raised by `exec` for an instruction that has no meaning yet; no arm of this model uses it. Safe. -/
  | notModelled (mnemonic : String)
deriving DecidableEq, Repr

/-- The engine after engine reset: `IDLE` (R23); the other registers are unspecified and zero here
(DESIGN CHOICE, log 7). -/
def Engine.reset : Engine where
  phase := .idle
  op := .init
  aPage := 0#8
  aCol := 0#8
  aLen := 0
  wPage := 0
  wCol := 0
  wLen := 0
  wOff := 0
  trPage := 0
  trCol := 0
  idx := 0
  gUpper := #v[0#8, 0#8, 0#8, 0#8, 0#8, 0#8, 0#8, 0#8, 0#8, 0#8]
  gLower := #v[0#8, 0#8, 0#8, 0#8, 0#8, 0#8, 0#8, 0#8, 0#8, 0#8]
  payload := []

/-- The target after power-on: mode `UNINIT`, each byte of the GDDRAM a draw, here of event 0 (R23); the cursor
and the awaited argument are unspecified, and `(0, 0)` and none here (DESIGN CHOICE, log 8 and 9). -/
def Target.reset : Target where
  page := 0#3
  col := 0#7
  mode := .uninit
  pend := none
  power := 0
  g := []

/-- Both resets just taken (R23), nothing at any port. Event 0 of the draws is this power-on (log 25). -/
def State.reset : State where
  eng := Engine.reset
  status := { busy := false, err := .none }
  tx := none
  answered := []
  codes := []
  target := some Target.reset
  font := Config.font
  inputs := []
  payloadPort := []
  answers := []
  draws := 1

end Sys2Proof.Machine
end

