-- ==== Sys2Proof/Machine/Flags.lean ====
section
/-!
DEFINITION. The status register (10_state.md R14, 60_exceptions.md R82) and the host-side signals computed
from it (47_common_laws.md R103). There are no other flags.
-/

namespace Sys2Proof.Machine

/-- The code of an error (R82). -/
def Err.code : Err → BitVec 3
  | .none => 0#3
  | .invalidGlyphInput => 1#3
  | .emptyPayload => 2#3
  | .transportFailure => 3#3
  | .illegalRequest => 4#3

/-- The opcode of an operation, the 4 bits of register `op` (R43). -/
def Op.code : Op → BitVec 4
  | .init => 0x0#4
  | .setpos => 0x1#4
  | .write => 0x2#4
  | .drawglyph => 0x3#4
  | .drawstr => 0x4#4
  | .drawicon => 0x5#4
  | .drawimg => 0x6#4
  | .clear => 0x7#4

/-- `status` as the host reads it: `{busy, err[2:0]}` (R14). -/
def Status.word (st : Status) : BitVec 4 := BitVec.ofBool st.busy ++ st.err.code

/-- The status at acceptance: busy, error code cleared (R14). -/
def Status.accepted : Status := { busy := true, err := .none }

/-- The status at completion (`NONE`) or abort: not busy, the code written once (R14, R86). -/
def Status.ended (e : Err) : Status := { busy := false, err := e }

/-- `req_ready = not status.busy` (R103). -/
def State.reqReady (s : State) : Bool := !s.status.busy

end Sys2Proof.Machine
end

