-- ==== Sys2Proof/Machine/Params.lean ====
section
/-!
DEFINITION. The parameters the document fixes (00_scope.md R6), under their own names.
-/

namespace Sys2Proof.Machine

/-- `DEV_ADDR`, the fixed device address of the target. -/
def devAddr : BitVec 7 := 0x3C#7

/-- `REG_CMD`, the command register. -/
def regCmd : Byte := 0x00#8

/-- `REG_DATA`, the data register. -/
def regData : Byte := 0x40#8

/-- `CHUNK_MAX`, the block-transfer ceiling. -/
def chunkMax : Nat := 32

/-- `N_PAGES`, the pages of the GDDRAM. -/
def nPages : Nat := 8

/-- `N_COLS`, the columns of a page. -/
def nCols : Nat := 128

/-- `CELL_W`, bytes per expanded half-glyph. -/
def cellW : Nat := 10

/-- `ADVANCE`, columns from one character to the next. -/
def advance : Nat := 11

/-- `WRAP_COL`: wrap when the column exceeds it after advancing. -/
def wrapCol : Nat := 118

/-- `LINE_PAGES`, pages from one line of text to the next. -/
def linePages : Nat := 2

/-- `PAGE_LIMIT`: the text page returns to its start when it reaches it. -/
def pageLimit : Nat := 7

/-- `CHAR_BIAS`. -/
def charBias : Int := 0x20

/-- `INDEX_BIAS`. -/
def indexBias : Int := 0x10

/-- `ICON_TILES`, tiles per icon. -/
def iconTiles : Nat := 4

/-- `TILE_LEN`, bytes per tile. -/
def tileLen : Nat := 8

/-- `IMG_COLS`, image columns. -/
def imgCols : Nat := 64

/-- `IMG_PAGES`, image pages. -/
def imgPages : Nat := 6

/-- `CLEAR_LEN`, zero bytes written per page by `CLEAR`. -/
def clearLen : Nat := 128

/-- `INIT_SEQ` (46_display_controller.md R79). -/
def initSeq : List Byte :=
  [0xAE#8, 0xD5#8, 0x80#8, 0xA8#8, 0x3F#8, 0xD3#8, 0x00#8, 0x40#8, 0x8D#8, 0x14#8,
   0x20#8, 0x00#8, 0xA1#8, 0xC8#8, 0xDA#8, 0x12#8, 0x81#8, 0xCF#8, 0xD9#8, 0xF1#8,
   0xDB#8, 0x40#8, 0xA4#8, 0xA6#8, 0xAF#8]

end Sys2Proof.Machine
end

