-- ==== Sys2Proof/Machine/Operands.lean ====
section
/-!
DEFINITION. Every operand form: the addressing bytes of a position (30_encoding.md R44), glyph sources and
codes (R45, 42_font_expander.md R58), the font lookup and the glyph expansion (R59 to R62), the chunks of a
stream (43_framebuffer_writer.md R68), the text cursor (44_text_renderer.md R72 to R74), and the positions and
bytes of tiles and image cells (45_blitters.md R76, R77).
-/

namespace Sys2Proof.Machine

/-! ## Positions (R44, R51) -/

/-- `0xB0 | (page & 0x07)`. -/
def pageByte (page : Nat) : Byte := 0xB0#8 ||| BitVec.ofNat 8 (page &&& 0x07)

/-- `0x00 | (column & 0x0F)`. -/
def colLoByte (column : Nat) : Byte := 0x00#8 ||| BitVec.ofNat 8 (column &&& 0x0F)

/-- `0x10 | ((column >> 4) & 0x0F)`. -/
def colHiByte (column : Nat) : Byte := 0x10#8 ||| BitVec.ofNat 8 ((column >>> 4) &&& 0x0F)

/-- The address of GDDRAM cell `(p, c)`: the engine never forms it; the model numbers cells so (R26, R70). -/
def cellAddr (p : BitVec 3) (c : BitVec 7) : Nat := nCols * p.toNat + c.toNat

/-- The address a position operand reaches after masking: `S` of R70. -/
def posAddr (page column : Nat) : Nat := nCols * (page % 8) + column % 128

/-! ## Glyphs (R45, R58 to R62, R64) -/

/-- A glyph source (R45). -/
inductive GlyphSource where
  | char (c : Byte)
  | index (n : Byte)
deriving DecidableEq, Repr

/-- The source a `DRAWGLYPH` tag and payload byte name; any other tag is neither (R45). -/
def glyphSource (tag : Nat) (v : Byte) : Option GlyphSource :=
  if tag = 0 then some (.char v)
  else if tag = 1 then some (.index v)
  else none

/-- The signed glyph code, with no wrap (R58). -/
def glyphCode : GlyphSource → Int
  | .char c => (c.toNat : Int) - charBias
  | .index n => (n.toNat : Int) + indexBias

/-- The font entry of a code, or nothing if the code is negative or not below `N_GLYPHS` (R59, R64 (b)). -/
def fontRow (font : List GlyphRow) (code : Int) : Option GlyphRow :=
  if code < 0 then none else font[code.toNat]?

/-- The font entry a glyph source resolves to; nothing is `InvalidGlyphInput` (R64). -/
def glyphRow (font : List GlyphRow) : Option GlyphSource → Option GlyphRow
  | some src => fontRow font (glyphCode src)
  | none => none

/-- The address of byte `i` of entry `code` at the font port (R105). -/
def fontAddr (code i : Nat) : Nat := code * 5 + i

/-- The byte the font port answers for an address (R105). -/
def fontPort (font : List GlyphRow) (addr : Nat) : Option Byte :=
  match font[addr / 5]? with
  | some row => row[addr % 5]?
  | none => none

/-- `b & 0x0F`, the top half of a source column (R60). -/
def topNibble (b : Byte) : BitVec 4 := b.extractLsb' 0 4

/-- `(b >> 4) & 0x0F`, the bottom half (R60). -/
def bottomNibble (b : Byte) : BitVec 4 := b.extractLsb' 4 4

/-- `Dbl4(n) = {n[3], n[3], n[2], n[2], n[1], n[1], n[0], n[0]}` (R61). -/
def dbl4 (n : BitVec 4) : Byte :=
  n.extractLsb' 3 1 ++ n.extractLsb' 3 1 ++ n.extractLsb' 2 1 ++ n.extractLsb' 2 1 ++
  n.extractLsb' 1 1 ++ n.extractLsb' 1 1 ++ n.extractLsb' 0 1 ++ n.extractLsb' 0 1

/-- One half of a glyph: each source column through `f`, twice (R62). -/
def expandHalf (f : Byte → Byte) (row : GlyphRow) : Vector Byte 10 :=
  #v[f row[0], f row[0], f row[1], f row[1], f row[2], f row[2], f row[3], f row[3], f row[4], f row[4]]

/-- `upperBytes` of `ExpandGlyph` (R62). -/
def upperBytes (row : GlyphRow) : Vector Byte 10 := expandHalf (fun b => dbl4 (topNibble b)) row

/-- `lowerBytes` of `ExpandGlyph` (R62). -/
def lowerBytes (row : GlyphRow) : Vector Byte 10 := expandHalf (fun b => dbl4 (bottomNibble b)) row

/-! ## Streams (R68) -/

/-- How many chunks a stream of `n` bytes has: `ceil(n / 32)`. -/
def chunkCount (n : Nat) : Nat := (n + (chunkMax - 1)) / chunkMax

/-- `data[off : off + 32]`, shorter at the end of the data. -/
def chunkAt (data : List Byte) (off : Nat) : List Byte := (data.drop off).take chunkMax

/-- `Chunks(data)`: chunk `i` is `data[32 i : min(32 i + 32, N)]`. -/
def chunks (data : List Byte) : List (List Byte) :=
  (List.range (chunkCount data.length)).map (fun i => chunkAt data (chunkMax * i))

/-! ## The text cursor (R72 to R74) -/

/-- The text cursor, on unmasked numbers. -/
structure TextCursor where
  page : Nat
  col : Nat
deriving DecidableEq, Repr

/-- One advance: `column += 11`, then the column test, then the page test. -/
def TextCursor.advance (startPage startCol : Nat) (t : TextCursor) : TextCursor :=
  if t.col + Machine.advance > wrapCol then
    { page := if t.page + linePages ≥ pageLimit then startPage else t.page + linePages, col := startCol }
  else
    { page := if t.page ≥ pageLimit then startPage else t.page, col := t.col + Machine.advance }

/-! ## Blits (R76, R77) -/

/-- Tile `t` of an icon. -/
def iconTile (icon : List Byte) (t : Nat) : List Byte := (icon.drop (tileLen * t)).take tileLen

/-- Where tile `t` goes, page: tiles 2 and 3 one page lower. -/
def tilePage (startPage t : Nat) : Nat := startPage + t / 2

/-- Where tile `t` goes, column: tiles 1 and 3 eight columns to the right. -/
def tileCol (startCol t : Nat) : Nat := startCol + tileLen * (t % 2)

/-- Byte `k` of an image, as the one-byte payload it is written with. -/
def imageByte (image : List Byte) (k : Nat) : List Byte := (image.drop k).take 1

/-- Where image byte `k = p*64 + c` goes, page. -/
def imagePage (startPage k : Nat) : Nat := startPage + k / imgCols

/-- Where image byte `k = p*64 + c` goes, column. -/
def imageCol (startCol k : Nat) : Nat := startCol + k % imgCols

/-- The zero bytes of one page (R81). -/
def clearBytes : List Byte := List.replicate clearLen 0x00#8

end Sys2Proof.Machine
end

