-- ==== Sys2Proof/Machine/Ops.lean ====
section
/-!
DEFINITION. The named operations: GDDRAM access, the target's step function (41_addressing_engine.md R52 to
R55, 46_display_controller.md R80), what a failed transaction leaves (60_exceptions.md R84), the trace
(10_state.md R21), acceptance, completion and abort (R14, 60_exceptions.md R86, R89), and the two resets
(70_reset_and_hazards.md R93).
-/

namespace Sys2Proof.Machine

/-! ## GDDRAM (R17, R30) -/

/-- The byte stored at an address since power-on, or nothing. -/
def Memory.read : Memory → Nat → Option Byte
  | [], _ => none
  | (a, v) :: m, k => if k = a then some v else Memory.read m k

/-- Store one byte, at its place in the order of addresses. -/
def Memory.write : Memory → Nat → Byte → Memory
  | [], k, v => [(k, v)]
  | (a, w) :: m, k, v =>
    if k < a then (k, v) :: (a, w) :: m
    else if k = a then (k, v) :: m
    else (a, w) :: Memory.write m k v

/-- Addresses rise strictly and lie in the GDDRAM's 1024 cells (R24). -/
abbrev Memory.wf (m : Memory) : Prop :=
  m.Pairwise (fun x y => x.1 < y.1) ∧ ∀ x ∈ m, x.1 < nPages * nCols

/-- The byte the GDDRAM holds at an address: the one stored last, or the one power-on drew (R17, R23). -/
def Target.byte (t : Target) (a : Nat) : Byte := (t.g.read a).getD (Config.powerOnByte t.power a)

/-- `G[p][c]`: every one of the 1024 cells holds a byte (R17). -/
def Target.cell (t : Target) (p : BitVec 3) (c : BitVec 7) : Byte := t.byte (cellAddr p c)

/-- The pixel of column `c` in pixel row `y`: bit `y mod 8` of the byte in page `y div 8` (R17, R27). -/
def Target.pixel (t : Target) (y : BitVec 6) (c : BitVec 7) : Bool :=
  (t.cell (y.extractLsb' 3 3) c).getLsbD (y.extractLsb' 0 3).toNat

/-! ## The target's step function (R52 to R55, R80) -/

/-- `SETPAGE` at the target (R52). -/
def Target.setPage (p : BitVec 3) (t : Target) : Target := { t with page := p }

/-- `SETCOLLO` at the target: the low four bits of the column (R53). -/
def Target.setColLo (l : BitVec 4) (t : Target) : Target :=
  { t with col := t.col.extractLsb' 4 3 ++ l }

/-- `SETCOLHI` at the target: the high three bits of the column; operand bit 3 is ignored (R54). -/
def Target.setColHi (h : BitVec 4) (t : Target) : Target :=
  { t with col := h.extractLsb' 0 3 ++ t.col.extractLsb' 0 4 }

/-- A two-byte command waits for its argument (R80). -/
def Target.await (c : Byte) (t : Target) : Target := { t with pend := some c }

/-- The argument `v` of the awaiting command `c` (R80): command `0x20` sets the mode, no other has an effect. -/
def Target.argument (c v : Byte) (t : Target) : Target :=
  { t with
    mode := if c = 0x20#8 then (if v = 0x00#8 then .horiz else .other) else t.mode
    pend := none }

/-- A command byte received with no argument awaited (R80, lines 2 to 7); nothing: the target refuses it. -/
def Target.decoded (v : Byte) (t : Target) : Option Target :=
  if v &&& 0xF8#8 = 0xB0#8 then some (t.setPage (v.extractLsb' 0 3))
  else if v &&& 0xF0#8 = 0x00#8 then some (t.setColLo (v.extractLsb' 0 4))
  else if v &&& 0xF0#8 = 0x10#8 then some (t.setColHi (v.extractLsb' 0 4))
  else if v ∈ argCommands then some (t.await v)
  else if v ∈ plainCommands then some t
  else none

/-- `TargetCmd(v)` (R80). -/
def Target.cmd (v : Byte) (t : Target) : Option Target :=
  match t.pend with
  | some c => some (t.argument c v)
  | none => t.decoded v

/-- The cursor after one data byte: the next column, or column 0 of the next page, page 0 after page 7 (R55). -/
def Target.bump (t : Target) : Target :=
  if t.col = 127#7 then { t with col := 0#7, page := t.page + 1#3 }
  else { t with col := t.col + 1#7 }

/-- Store a byte at the cursor. -/
def Target.store (d : Byte) (t : Target) : Target :=
  { t with g := Memory.write t.g (cellAddr t.page t.col) d }

/-- A data byte at the target (R55); nothing: refused outside horizontal mode. -/
def Target.dataByte (d : Byte) (t : Target) : Option Target :=
  if t.mode = .horiz then some (t.store d).bump else none

/-- The bytes of a block write, in order (R55, R30). -/
def Target.dataBytes : List Byte → Target → Option Target
  | [], t => some t
  | d :: ds, t => (t.dataByte d).bind (Target.dataBytes ds)

/-- A whole transaction at the target (R32 (c), R55). -/
def Target.apply : Txn → Target → Option Target
  | .cmd v, t => t.cmd v
  | .data bs, t => Target.dataBytes bs t

/-- A list of transactions at the target, one after the other (R32 (e)). -/
def Target.applyAll : List Txn → Target → Option Target
  | [], t => some t
  | x :: xs, t => (t.apply x).bind (Target.applyAll xs)

/-! ## What a failed transaction leaves (R84) -/

/-- The argument-taking command byte at place `k` of R41's list. -/
def argCommandAt (k : Fin 9) : Byte := argCommands.getD k.val 0x20#8

/-- The cursor is any value (R84 (b), (c), (d)). -/
def Target.loseCursor (n : Nat) (t : Target) : Target :=
  { t with page := Config.freePage n, col := Config.freeCol n }

/-- R84 (d): a failed command inside `INIT`. -/
def Target.failInit (n : Nat) (t : Target) : Target :=
  { t.loseCursor n with mode := .uninit, pend := (Config.freePend n).map argCommandAt }

/-- Free bytes in the `len` cells from address `a` on, in the order of R55. -/
def Memory.scramble (n a : Nat) : Nat → Memory → Memory
  | 0, m => m
  | k + 1, m => (Memory.scramble n a k m).write ((a + k) % (nPages * nCols)) (Config.freeCell n k)

/-- R84 (c): a failed block write, in every mode (log 13): any cursor, any byte in each cell of the footprint. -/
def Target.failData (n len : Nat) (t : Target) : Target :=
  { t.loseCursor n with g := t.g.scramble n (cellAddr t.page t.col) len }

/-- The target after a transaction that the transport answered fail, by the operation it belongs to (R84). -/
def Target.fail (n : Nat) (op : Op) (x : Txn) (t : Target) : Target :=
  match x with
  | .data bs => t.failData n bs.length
  | .cmd _ => if op = .init then t.failInit n else t.loseCursor n

/-! ## Transactions (R39, R104) -/

/-- The record of a transaction (R39), which is also what the transport port carries (R104). -/
structure TxnRecord where
  kind : Bool
  dev : BitVec 7
  reg : Byte
  len : BitVec 6
  bytes : List Byte
deriving DecidableEq, Repr

/-- `kind`, `dev`, `reg`, `len`, `data` of a transaction (R39). -/
def Txn.fields : Txn → TxnRecord
  | .cmd v => { kind := false, dev := devAddr, reg := regCmd, len := 1#6, bytes := [v] }
  | .data bs => { kind := true, dev := devAddr, reg := regData, len := BitVec.ofNat 6 bs.length, bytes := bs }

/-- The trace (R21): the transactions issued since reset, in order, each with its answer; the one on the
transport port is the last, and has none yet. -/
def State.trace (s : State) : List (Txn × Option Bool) :=
  s.answered.map (fun en => (en.txn, some en.ok)) ++ s.tx.toList.map (fun x => (x, none))

/-- Issue a transaction (R9): it is on the transport port, and so in the trace, before any answer. -/
def State.issue (x : Txn) (s : State) : State := { s with tx := some x }

/-- The answer to the transaction issued (R104): the port is free, and the trace has the answer. -/
def State.answer (x : Txn) (ok : Bool) (s : State) : State :=
  { s with tx := none, answered := s.answered ++ [{ txn := x, ok := ok }] }

/-- The target applies a transaction; a target that refuses a byte has no state from there on (R110). -/
def State.deliver (x : Txn) (s : State) : State :=
  { s with target := s.target.bind (Target.apply x) }

/-- The target after a failed transaction of the operation in progress (R84), with one draw of free values. -/
def State.deliverFailed (x : Txn) (s : State) : State :=
  { s with target := s.target.map (Target.fail s.draws s.eng.op x), draws := s.draws + 1 }

/-- The next answer of the transport and the answers after it; a list that is used up answers ok (log 1). -/
def nextAnswer : List Answer → Answer × List Answer
  | [] => (.ok, [])
  | a :: as => (a, as)

/-! ## Command bytes that reach the target by themselves (log 5) -/

/-- A command byte whose effect with no argument awaited is `eff`; with one awaited it is the argument (R80). -/
def State.command (v : Byte) (eff : Target → Target) (s : State) : State :=
  { s with
    target := s.target.map (fun t =>
      match t.pend with
      | some c => t.argument c v
      | none => eff t) }

/-- Any command byte (R80). -/
def State.receive (v : Byte) (s : State) : State := s.deliver (.cmd v)

/-- A two-byte command `c` and its argument, one byte after the other (R41, R80). -/
def State.command2 (c arg : Byte) (s : State) : State := (s.command c (Target.await c)).receive arg

/-! ## Acceptance, completion, abort (R14, R69, R86, R89) -/

/-- Acceptance of a request (R14, R69): busy, error code cleared, which is also the return from an earlier
fault (R89), and the engine's registers loaded. -/
def State.accept (e : Engine) (s : State) : State :=
  { s with eng := e, status := Status.accepted }

/-- The end of an operation, `done`: the code is written, busy falls, the sequencer is idle, the payload is
gone, and the run's list of codes has one more entry (R86, R103, R110). -/
def State.finish (e : Err) (s : State) : State :=
  { s with
    eng := { s.eng with phase := .idle, payload := [] }
    status := Status.ended e
    tx := none
    codes := s.codes ++ [e] }

/-- `done(OK)` (R9). -/
def State.complete (s : State) : State := s.finish .none

/-- Taking a fault (R86): the same end, with the fault's code. Nothing is saved (R83). -/
def State.raise (e : Err) (s : State) : State := s.finish e

/-- A header of no row (R85): accepted, and aborted before any payload byte is taken or transaction issued.
The operand registers are dead and keep their values (log 19). -/
def State.illegalRequest (s : State) : State := (s.accept s.eng).raise .illegalRequest

/-! ## The two resets (R23, R93) -/

/-- The transaction in flight at engine reset may or may not have been delivered (R93). -/
def State.settleInFlight (s : State) : State :=
  match s.tx with
  | none => s
  | some x =>
    { (if Config.freeDelivered s.draws then s.deliver x else s) with draws := s.draws + 1 }

/-- Engine reset (R23, R93): `IDLE`, status 0, trace empty; the target only through the transaction in flight.
Inside `INIT` too the target keeps what the bytes delivered so far did: after entry 11 that is mode `HORIZ`, and
between the bytes of a two-byte command an awaited argument, as R23's table says 'unchanged'; that R93's likeness
to R84 (d) does not make the mode `UNINIT` here is the model's choice (log 29). -/
def State.engineReset (s : State) : State :=
  { s.settleInFlight with
    eng := Engine.reset
    status := { busy := false, err := .none }
    tx := none
    answered := []
    codes := [] }

/-- Target power-on (R23, R93): mode `UNINIT`; cursor, awaited argument and each byte of the GDDRAM a draw. -/
def State.targetPowerOn (s : State) : State :=
  { s with
    target := some
      { page := Config.freePage s.draws
        col := Config.freeCol s.draws
        mode := .uninit
        pend := (Config.freePend s.draws).map argCommandAt
        power := s.draws
        g := [] }
    draws := s.draws + 1 }

end Sys2Proof.Machine
end

