-- ==== Sys2Proof/Machine/Components.lean ====
section
/-!
DEFINITION. The engine's components as moves of its registers: AddressingEngine and FrameBufferWriter by the
table of 43_framebuffer_writer.md R69, FontExpander (42_font_expander.md R62, R64), TextRenderer
(44_text_renderer.md R72), IconBlitter and ImageBlitter (45_blitters.md R76, R77), DisplayController
(46_display_controller.md R79, R81). A move reads the engine's registers and the font table and nothing else
(10_state.md R11).
-/

namespace Sys2Proof.Machine

/-- Where control goes inside an operation: on with these registers, `done(OK)`, a fault, or nowhere, because
R69 has no row for the position. -/
inductive Next where
  | goOn (e : Engine)
  | complete
  | fault (e : Err)
  | noRow
deriving DecidableEq, Repr

/-- A component calls FrameBufferWriter: it loads `w_page`, `w_col`, `w_len` and enters at `CHECK` (R69). -/
def Engine.callWrite (page col len : Nat) (e : Engine) : Engine :=
  { e with wPage := page, wCol := col, wLen := len, phase := .check }

/-- The bytes of the FrameBufferWriter call in progress, by the component that made it. In `DRAWSTR` the
upper half is written at `tr_page` and the lower at `tr_page + 1` (log 18). -/
def Engine.callData (e : Engine) : List Byte :=
  match e.op with
  | .init | .setpos => []
  | .write => e.payload
  | .drawglyph => if e.idx = 0 then e.gUpper.toList else e.gLower.toList
  | .drawstr => if e.wPage = e.trPage then e.gUpper.toList else e.gLower.toList
  | .drawicon => iconTile e.payload e.idx
  | .drawimg => imageByte e.payload e.idx
  | .clear => clearBytes

/-! ## Phase CHECK (R67, R69) -/

/-- `CHECK`: an empty payload is `EmptyPayload`; else the three addressing commands follow. `INIT` and
`SETPOS` have nothing to check. -/
def Engine.check (e : Engine) : Next :=
  match e.op with
  | .init => .goOn { e with phase := .initseq }
  | .setpos => .goOn { e with phase := .cmdPage }
  | .write | .drawglyph | .drawstr | .drawicon | .drawimg | .clear =>
    if e.wLen = 0 then .fault .emptyPayload
    else .goOn { e with wOff := 0, phase := .cmdPage }

/-! ## Phase EXPAND (R62, R64, R65, R72, R75) -/

/-- Resolve and expand one glyph, then write its upper half at `(page, col)`; no table entry, or no glyph
source, is `InvalidGlyphInput`. -/
def Engine.expandGlyph (font : List GlyphRow) (src : Option GlyphSource) (page col : Nat) (e : Engine) : Next :=
  match glyphRow font src with
  | none => .fault .invalidGlyphInput
  | some row =>
    .goOn (Engine.callWrite page col cellW { e with gUpper := upperBytes row, gLower := lowerBytes row })

/-- `EXPAND`: the one glyph of `DRAWGLYPH`, or the next character of `DRAWSTR`, which is done after its last. -/
def Engine.expand (font : List GlyphRow) (e : Engine) : Next :=
  match e.op with
  | .drawglyph =>
    match e.payload with
    | v :: _ => e.expandGlyph font (glyphSource e.aLen v) e.aPage.toNat e.aCol.toNat
    | [] => .noRow
  | .drawstr =>
    match e.payload[e.idx]? with
    | some c => e.expandGlyph font (some (.char c)) e.trPage e.trCol
    | none => .complete
  | .init | .setpos | .write | .drawicon | .drawimg | .clear => .noRow

/-! ## The transaction of each bus phase (R51, R69, R79) -/

/-- The chunk at `w_off`: `data[w_off : w_off + 32]`, or `data[w_off : w_len]` when 32 or fewer are left. -/
def Engine.chunkBytes (e : Engine) : List Byte :=
  if e.wLen - e.wOff > chunkMax then chunkAt e.callData e.wOff
  else (e.callData.drop e.wOff).take (e.wLen - e.wOff)

/-- What the engine issues at its position; nothing where R69 has no row (a block write is never empty, R39). -/
def Engine.txn (e : Engine) : Option Txn :=
  match e.phase with
  | .cmdPage => some (.cmd (pageByte e.wPage))
  | .cmdCollo => some (.cmd (colLoByte e.wCol))
  | .cmdColhi => some (.cmd (colHiByte e.wCol))
  | .chunk => if e.chunkBytes = [] then none else some (.data e.chunkBytes)
  | .initseq => initSeq[e.idx]?.map Txn.cmd
  | .idle | .check | .expand => none

/-! ## The return from a FrameBufferWriter call -/

/-- `DRAWGLYPH`: the lower half follows the upper one (R65). -/
def Engine.glyphReturn (e : Engine) : Next :=
  if e.idx = 0 then .goOn (Engine.callWrite (e.aPage.toNat + 1) e.aCol.toNat cellW { e with idx := 1 })
  else .complete

/-- `DRAWSTR`: the lower half, then the advance of the text cursor and the next character (R72 to R74). -/
def Engine.textReturn (e : Engine) : Next :=
  if e.wPage = e.trPage then .goOn (e.callWrite (e.trPage + 1) e.trCol cellW)
  else
    let t := TextCursor.advance e.aPage.toNat e.aCol.toNat { page := e.trPage, col := e.trCol }
    .goOn { e with trPage := t.page, trCol := t.col, idx := e.idx + 1, phase := .expand }

/-- Tile `idx` of an icon (R76). -/
def Engine.callTile (e : Engine) : Engine :=
  e.callWrite (tilePage e.aPage.toNat e.idx) (tileCol e.aCol.toNat e.idx) tileLen

/-- `DRAWICON`: four tiles, in order (R76). -/
def Engine.iconReturn (e : Engine) : Next :=
  if e.idx + 1 < iconTiles then .goOn ({ e with idx := e.idx + 1 }).callTile else .complete

/-- Byte `idx` of an image (R77). -/
def Engine.callImageByte (e : Engine) : Engine :=
  e.callWrite (imagePage e.aPage.toNat e.idx) (imageCol e.aCol.toNat e.idx) 1

/-- `DRAWIMG`: 384 bytes, in index order, each addressed on its own (R77, R78). -/
def Engine.imageReturn (e : Engine) : Next :=
  if e.idx + 1 < imgPages * imgCols then .goOn ({ e with idx := e.idx + 1 }).callImageByte else .complete

/-- Page `idx` of `CLEAR` (R81). -/
def Engine.callClearPage (e : Engine) : Engine := e.callWrite e.idx 0 clearLen

/-- `CLEAR`: eight pages, in order (R81). -/
def Engine.clearReturn (e : Engine) : Next :=
  if e.idx + 1 < nPages then .goOn ({ e with idx := e.idx + 1 }).callClearPage else .complete

/-- The return point of a FrameBufferWriter call, given by `op` and `idx` (R107). -/
def Engine.writeReturn (e : Engine) : Next :=
  match e.op with
  | .write => .complete
  | .drawglyph => e.glyphReturn
  | .drawstr => e.textReturn
  | .drawicon => e.iconReturn
  | .drawimg => e.imageReturn
  | .clear => e.clearReturn
  | .init | .setpos => .noRow

/-! ## After a transaction is answered ok (R51, R69, R79) -/

/-- After `CMD_COLHI`: a stand-alone `SETPOS` is done, a FrameBufferWriter call streams. -/
def Engine.afterColhi (e : Engine) : Next :=
  match e.op with
  | .setpos => .complete
  | .init => .noRow
  | .write | .drawglyph | .drawstr | .drawicon | .drawimg | .clear => .goOn { e with phase := .chunk }

/-- After a chunk: the next chunk, with no re-addressing, or the return of the call. -/
def Engine.afterChunk (e : Engine) : Next :=
  if e.wLen - e.wOff > chunkMax then .goOn { e with wOff := e.wOff + chunkMax }
  else Engine.writeReturn { e with wOff := e.wLen }

/-- After an initialization byte: the next one, or done (R79). -/
def Engine.afterInit (e : Engine) : Next :=
  if e.idx + 1 < initSeq.length then .goOn { e with idx := e.idx + 1 } else .complete

/-- The position after the transaction at this one. -/
def Engine.afterOk (e : Engine) : Next :=
  match e.phase with
  | .cmdPage => .goOn { e with phase := .cmdCollo }
  | .cmdCollo => .goOn { e with phase := .cmdColhi }
  | .cmdColhi => e.afterColhi
  | .chunk => e.afterChunk
  | .initseq => e.afterInit
  | .idle | .check | .expand => .noRow

/-! ## The registers at acceptance (R12, R69) -/

/-- What every acceptance loads: `op`, the operands and the payload (R12, R35). -/
def Engine.load (op : Op) (page col : Byte) (len : Nat) (payload : List Byte) (e : Engine) : Engine :=
  { e with op := op, aPage := page, aCol := col, aLen := len, payload := payload, idx := 0 }

/-- `INIT` starts at entry 0 of `INIT_SEQ`. -/
def Engine.startInit (e : Engine) : Engine :=
  { e.load .init 0#8 0#8 0 [] with phase := .check }

/-- `SETPOS` runs `SetPos(a_page, a_col)` (R51). -/
def Engine.startSetpos (page col : Byte) (e : Engine) : Engine :=
  { e.load .setpos page col 0 [] with wPage := page.toNat, wCol := col.toNat, phase := .check }

/-- `WRITE`: the acceptance row of R69. -/
def Engine.startWrite (page col : Byte) (data : List Byte) (e : Engine) : Engine :=
  (e.load .write page col data.length data).callWrite page.toNat col.toNat data.length

/-- `DRAWGLYPH` resolves its glyph first (R65). -/
def Engine.startDrawglyph (page col : Byte) (tag : BitVec 12) (v : Byte) (e : Engine) : Engine :=
  { e.load .drawglyph page col tag.toNat [v] with phase := .expand }

/-- `DRAWSTR`: the text cursor starts at `(startPage, startColumn)` (R72). -/
def Engine.startDrawstr (page col : Byte) (text : List Byte) (e : Engine) : Engine :=
  { e.load .drawstr page col text.length text with
    trPage := page.toNat, trCol := col.toNat, phase := .expand }

/-- `DRAWICON` starts with tile 0 (R76). -/
def Engine.startDrawicon (page col : Byte) (icon : List Byte) (e : Engine) : Engine :=
  (e.load .drawicon page col icon.length icon).callTile

/-- `DRAWIMG` starts with byte 0 (R77). -/
def Engine.startDrawimg (page col : Byte) (image : List Byte) (e : Engine) : Engine :=
  (e.load .drawimg page col image.length image).callImageByte

/-- `CLEAR` starts with page 0 (R81). -/
def Engine.startClear (e : Engine) : Engine :=
  (e.load .clear 0#8 0#8 0 []).callClearPage

end Sys2Proof.Machine
end

