-- ==== Sys2Proof/Machine/Sequencer.lean ====
section
/-!
DEFINITION. The sequencer (10_state.md R13, 43_framebuffer_writer.md R69). A row of R69's table is a move of the
registers; the rows of `CHECK` and `EXPAND` are internal and take no step (00_scope.md R9). A tick is the spec's
step: one bus transaction (R4, R5), issued, answered, on ok applied by the target, and the internal rows behind it,
up to the next one. A request runs tick by tick until it is done, aborts, or the transport leaves a transaction
unanswered (70_reset_and_hazards.md R102).
-/

namespace Sys2Proof.Machine

/-- A machine step's outcome. -/
abbrev Outcome := Host.Outcome State Fault Refusal

/-- The outcome of rows: go on, stop here (done, aborted or waiting), or no row of R69. -/
inductive Tick where
  | go (s : State)
  | stop (s : State)
  | stuck
deriving DecidableEq, Repr

/-- Go on from where one outcome left off. -/
def Tick.andThen (f : State → Tick) : Tick → Tick
  | .go s => f s
  | .stop s => .stop s
  | .stuck => .stuck

/-- Take the position a component's move gives. At the end of an operation the registers stay as they were before
the last row: after a last chunk `w_off` keeps that chunk's offset, where R69 writes `w_len`; every register but
`status` is any value then (93 U16), and this one is the model's choice (log 28). -/
def State.goto (s : State) : Next → Tick
  | .goOn e => .go { s with eng := e }
  | .complete => .stop s.complete
  | .fault err => .stop (s.raise err)
  | .noRow => .stuck

/-- What an issued transaction's answer does (R4, R104). Ok: the target has applied it, the sequencer moves on.
Fail: the target is as R84 says, the operation aborts. None yet: the engine waits, with the transaction on the port
and in the trace. -/
def State.await (x : Txn) (s : State) : Tick :=
  match nextAnswer s.answers with
  | (.ok, as) => (({ s with answers := as }.answer x true).deliver x).goto s.eng.afterOk
  | (.fail, as) => .stop ((({ s with answers := as }.answer x false).deliverFailed x).raise .transportFailure)
  | (.wait, as) => .stop { s with answers := as }

/-- `Cmd` and `Data` (R9): issue, which appends to the trace, then wait for the answer. -/
def State.transact (x : Txn) (s : State) : Tick := (s.issue x).await x

/-- One row of R69's table, at the sequencer's position. -/
def row (s : State) : Tick :=
  match s.eng.phase with
  | .idle => .stop s
  | .check => s.goto s.eng.check
  | .expand => s.goto (s.eng.expand s.font)
  | .cmdPage | .cmdCollo | .cmdColhi | .chunk | .initseq =>
    match s.eng.txn with
    | some x => s.transact x
    | none => .stuck

/-- The phases between two transactions (R9). -/
def Phase.internal : Phase → Bool
  | .check | .expand => true
  | .idle | .cmdPage | .cmdCollo | .cmdColhi | .chunk | .initseq => false

/-- At most `n` internal rows. -/
def settleRows : Nat → State → Tick
  | 0, s => .go s
  | n + 1, s => if s.eng.phase.internal then (row s).andThen (settleRows n) else .go s

/-- Everything up to the next transaction or the end, which takes no step (R9): `EXPAND` then `CHECK` is the longest
way. -/
def State.settle (s : State) : Tick := settleRows 2 s

/-- The spec's step (R4, R5, R9): one transaction, and what is internal behind it. -/
def tick (s : State) : Tick := (row s).andThen State.settle

/-- Tick until the sequencer stops, at most `2 ^ k` times. -/
def ticks : Nat → State → Tick
  | 0, s => tick s
  | k + 1, s => (ticks k s).andThen (ticks k)

/-- `2 ^ runDepth` ticks are more than any operation takes: the longest is a `DRAWSTR` of 4095 characters, with
`8 * 4095` transactions (R107). -/
def runDepth : Nat := 17

/-- The machine step of a chain of ticks. -/
def Tick.outcome : Tick → Outcome
  | .go s => .next s
  | .stop s => .next s
  | .stuck => .fault .noSequencerRow

/-- Run the operation in progress from its position until it is done, aborts, or waits. -/
def State.run (s : State) : Outcome := (s.settle.andThen (ticks runDepth)).outcome

/-- A request presented to the engine: not accepted while busy, in which case nothing changes (R14, R103);
else accepted, and run. -/
def State.request (e : Engine) (s : State) : Outcome :=
  if s.status.busy then .next s else (s.accept e).run

end Sys2Proof.Machine
end

