-- ==== Sys2Proof/Machine/Addressing.lean ====
section
/-!
DEFINITION. AddressingEngine: `SETPOS` at the engine (41_addressing_engine.md R51) and the three addressing
commands at the target (R52 to R54).
-/

namespace Sys2Proof.Machine

/-- `SETPOS page, column` (R51): three command writes, then `done(OK)`. -/
def execSetpos (page column : Byte) (s : State) : Outcome :=
  s.request (s.eng.startSetpos page column)

/-- `SETPAGE` (R52). -/
def execSetpage (p : BitVec 3) (s : State) : Outcome :=
  .next (s.command (setPageByte p) (Target.setPage p))

/-- `SETCOLLO` (R53). -/
def execSetcollo (l : BitVec 4) (s : State) : Outcome :=
  .next (s.command (setColLoByte l) (Target.setColLo l))

/-- `SETCOLHI` (R54). -/
def execSetcolhi (h : BitVec 4) (s : State) : Outcome :=
  .next (s.command (setColHiByte h) (Target.setColHi h))

end Sys2Proof.Machine
end

