-- ==== Sys2Proof/Machine/Blitters.lean ====
section
/-!
DEFINITION. IconBlitter's and ImageBlitter's operations (45_blitters.md R76, R77).
-/

namespace Sys2Proof.Machine

/-- `DRAWICON startPage, startColumn, icon` (R76): four writes of eight bytes. -/
def execDrawicon (page column : Byte) (icon : List Byte) (s : State) : Outcome :=
  s.request (s.eng.startDrawicon page column icon)

/-- `DRAWIMG startPage, startColumn, image` (R77): 384 writes of one byte. -/
def execDrawimg (page column : Byte) (image : List Byte) (s : State) : Outcome :=
  s.request (s.eng.startDrawimg page column image)

end Sys2Proof.Machine
end

