-- ==== Sys2Proof/Machine/Display.lean ====
section
/-!
DEFINITION. DisplayController: `INIT` and `CLEAR` at the engine (46_display_controller.md R79, R81), and the
sixteen initialization commands at the target (30_encoding.md R41, 46_display_controller.md R80). The names in
the comments are the spec's, for orientation only.
-/

namespace Sys2Proof.Machine

/-- `INIT` (R79): the 25 bytes of `INIT_SEQ`, each in a transaction of its own. -/
def execInit (s : State) : Outcome :=
  s.request s.eng.startInit

/-- `CLEAR` (R81): 128 zero bytes to each of the eight pages. -/
def execClear (s : State) : Outcome :=
  s.request s.eng.startClear

/-- `0xAE` (display off): no modelled effect (R80). -/
def execInitAE (s : State) : Outcome :=
  .next (s.command 0xAE#8 id)

/-- `0xD5` and its argument (clock divide ratio): the argument has no modelled effect (R80). -/
def execInitD5 (arg : Byte) (s : State) : Outcome :=
  .next (s.command2 0xD5#8 arg)

/-- `0xA8` and its argument (multiplex ratio): the argument has no modelled effect (R80). -/
def execInitA8 (arg : Byte) (s : State) : Outcome :=
  .next (s.command2 0xA8#8 arg)

/-- `0xD3` and its argument (display offset): the argument has no modelled effect (R80). -/
def execInitD3 (arg : Byte) (s : State) : Outcome :=
  .next (s.command2 0xD3#8 arg)

/-- `0x40` (start line): no modelled effect (R80). -/
def execInit40 (s : State) : Outcome :=
  .next (s.command 0x40#8 id)

/-- `0x8D` and its argument (charge pump): the argument has no modelled effect (R80). -/
def execInit8D (arg : Byte) (s : State) : Outcome :=
  .next (s.command2 0x8D#8 arg)

/-- `0x20` and its argument (memory addressing mode): argument 0x00 sets horizontal mode, any other sets `OTHER` (R80). -/
def execInit20 (arg : Byte) (s : State) : Outcome :=
  .next (s.command2 0x20#8 arg)

/-- `0xA1` (segment re-map): no modelled effect (R80). -/
def execInitA1 (s : State) : Outcome :=
  .next (s.command 0xA1#8 id)

/-- `0xC8` (COM scan direction): no modelled effect (R80). -/
def execInitC8 (s : State) : Outcome :=
  .next (s.command 0xC8#8 id)

/-- `0xDA` and its argument (COM pins): the argument has no modelled effect (R80). -/
def execInitDA (arg : Byte) (s : State) : Outcome :=
  .next (s.command2 0xDA#8 arg)

/-- `0x81` and its argument (contrast): the argument has no modelled effect (R80). -/
def execInit81 (arg : Byte) (s : State) : Outcome :=
  .next (s.command2 0x81#8 arg)

/-- `0xD9` and its argument (pre-charge period): the argument has no modelled effect (R80). -/
def execInitD9 (arg : Byte) (s : State) : Outcome :=
  .next (s.command2 0xD9#8 arg)

/-- `0xDB` and its argument (VCOMH level): the argument has no modelled effect (R80). -/
def execInitDB (arg : Byte) (s : State) : Outcome :=
  .next (s.command2 0xDB#8 arg)

/-- `0xA4` (resume from RAM): no modelled effect (R80). -/
def execInitA4 (s : State) : Outcome :=
  .next (s.command 0xA4#8 id)

/-- `0xA6` (normal display): no modelled effect (R80). -/
def execInitA6 (s : State) : Outcome :=
  .next (s.command 0xA6#8 id)

/-- `0xAF` (display on): no modelled effect (R80). -/
def execInitAF (s : State) : Outcome :=
  .next (s.command 0xAF#8 id)

end Sys2Proof.Machine
end

