-- ==== Sys2Proof/Machine/FontExpander.lean ====
section
/-!
DEFINITION. FontExpander's operation, `DRAWGLYPH` (42_font_expander.md R65).
-/

namespace Sys2Proof.Machine

/-- `DRAWGLYPH page, column, src` (R65): resolve, expand, write the upper half, write the lower half. -/
def execDrawglyph (page column : Byte) (tag : BitVec 12) (v : Byte) (s : State) : Outcome :=
  s.request (s.eng.startDrawglyph page column tag v)

end Sys2Proof.Machine
end

