-- ==== Sys2Proof/Machine/FrameBuffer.lean ====
section
/-!
DEFINITION. FrameBufferWriter's operation, `WRITE` (43_framebuffer_writer.md R66).
-/

namespace Sys2Proof.Machine

/-- `WRITE page, column, data` (R66): position once, then stream in chunks; no byte is `EmptyPayload` (R67). -/
def execWrite (page column : Byte) (data : List Byte) (s : State) : Outcome :=
  s.request (s.eng.startWrite page column data)

end Sys2Proof.Machine
end

