-- ==== Sys2Proof/Machine/TextRenderer.lean ====
section
/-!
DEFINITION. TextRenderer's operation, `DRAWSTR` (44_text_renderer.md R72).
-/

namespace Sys2Proof.Machine

/-- `DRAWSTR startPage, startColumn, text` (R72): one glyph per character at the text cursor. -/
def execDrawstr (page column : Byte) (text : List Byte) (s : State) : Outcome :=
  s.request (s.eng.startDrawstr page column text)

end Sys2Proof.Machine
end

