-- ==== Sys2Proof/Machine/Dispatch.lean ====
section
/-!
DEFINITION. The dispatch: one arm per row of spec/opcode_table.json, one direct call of its meaning.
-/

namespace Sys2Proof.Machine

def exec (i : Instr) (s : State) : Host.Outcome State Fault Refusal :=
  match i with
  | .init => Sys2Proof.Machine.execInit s
  | .setpos page column => Sys2Proof.Machine.execSetpos page column s
  | .write page column data => Sys2Proof.Machine.execWrite page column data s
  | .drawglyph page column tag v => Sys2Proof.Machine.execDrawglyph page column tag v s
  | .drawstr page column text => Sys2Proof.Machine.execDrawstr page column text s
  | .drawicon page column icon => Sys2Proof.Machine.execDrawicon page column icon s
  | .drawimg page column image => Sys2Proof.Machine.execDrawimg page column image s
  | .clear => Sys2Proof.Machine.execClear s
  | .setpage p => Sys2Proof.Machine.execSetpage p s
  | .setcollo l => Sys2Proof.Machine.execSetcollo l s
  | .setcolhi h => Sys2Proof.Machine.execSetcolhi h s
  | .initAE => Sys2Proof.Machine.execInitAE s
  | .initD5 arg => Sys2Proof.Machine.execInitD5 arg s
  | .initA8 arg => Sys2Proof.Machine.execInitA8 arg s
  | .initD3 arg => Sys2Proof.Machine.execInitD3 arg s
  | .init40 => Sys2Proof.Machine.execInit40 s
  | .init8D arg => Sys2Proof.Machine.execInit8D arg s
  | .init20 arg => Sys2Proof.Machine.execInit20 arg s
  | .initA1 => Sys2Proof.Machine.execInitA1 s
  | .initC8 => Sys2Proof.Machine.execInitC8 s
  | .initDA arg => Sys2Proof.Machine.execInitDA arg s
  | .init81 arg => Sys2Proof.Machine.execInit81 arg s
  | .initD9 arg => Sys2Proof.Machine.execInitD9 arg s
  | .initDB arg => Sys2Proof.Machine.execInitDB arg s
  | .initA4 => Sys2Proof.Machine.execInitA4 s
  | .initA6 => Sys2Proof.Machine.execInitA6 s
  | .initAF => Sys2Proof.Machine.execInitAF s

end Sys2Proof.Machine
end

