-- ==== Sys2Proof/Machine/Fetch.lean ====
section
/-!
DEFINITION. What a step does next (47_common_laws.md R103, 70_reset_and_hazards.md R93, R102): take a reset or
power-on, go on with the operation in progress, or take the next request, or command bytes, and decode them.
-/

namespace Sys2Proof.Machine

/-- What a step found: an instruction to execute in a state, or the step's outcome already. -/
inductive Fetched where
  | instr (i : Instr) (s : State)
  | done (o : Outcome)

/-- Command bytes that were not taken yet stay at the head of the inputs. -/
def State.putBack (more : List Byte) (s : State) : State :=
  match more with
  | [] => s
  | v :: vs => { s with inputs := .command (v :: vs) :: s.inputs }

/-- Whether the target awaits an argument, so that the next command byte is not decoded (R18, R80). -/
def State.awaiting (s : State) : Bool :=
  match s.target with
  | some t => t.pend.isSome
  | none => false

/-- One command byte taken as R80 takes it: an argument, or a byte that is no whole instruction. -/
def State.takeByte (bs : List Byte) (s : State) : State :=
  match bs with
  | [] => s
  | v :: more => (s.putBack more).receive v

/-- The next instruction of the command bytes `bs`, or the one byte that is an argument or no instruction. -/
def fetchCommand (bs : List Byte) (s : State) : Fetched :=
  if s.awaiting then .done (.next (s.takeByte bs))
  else
    match decodeCommand bs with
    | .ok (i, more) => .instr i (s.putBack more)
    | .error _ => .done (.next (s.takeByte bs))

/-- The next request: decoded, or `IllegalRequest` (R85), or the host has presented too few payload bytes
(log 20). -/
def fetchRequest (h : Header) (s : State) : Fetched :=
  match decodeRequest h s.payloadPort with
  | .ok (i, pl) => .instr i { s with payloadPort := pl }
  | .error .illegalRequest => .done (.next s.illegalRequest)
  | .error .payloadShort | .error .noByte | .error .argumentMissing | .error .refusedByte =>
    .done (.fault .payloadShort)

/-- The resets are taken at any step; while the engine is busy it goes on with its operation, and requests
wait at the port (R14); an idle engine takes the next input, or waits (R23). -/
def fetch (s : State) : Fetched :=
  match s.inputs with
  | .rst :: rest => .done (.next ({ s with inputs := rest }).engineReset)
  | .powerOn :: rest => .done (.next ({ s with inputs := rest }).targetPowerOn)
  | .request h :: rest =>
    if s.status.busy then .done s.run else fetchRequest h { s with inputs := rest }
  | .command bs :: rest =>
    if s.status.busy then .done s.run else fetchCommand bs { s with inputs := rest }
  | [] => if s.status.busy then .done s.run else .done (.next s)

/-- The words presented as the very next input of an idle engine, with no argument awaited by the target. -/
def State.present (w : Words) (s : State) : State :=
  let ready : State :=
    { s with
      eng := { s.eng with phase := .idle }
      status := { s.status with busy := false }
      tx := none
      target := s.target.map (fun t => { t with pend := none }) }
  match w with
  | .request h pl => { ready with inputs := .request h :: s.inputs, payloadPort := pl ++ s.payloadPort }
  | .command bs => { ready with inputs := .command bs :: s.inputs }

end Sys2Proof.Machine
end

