-- ==== Sys2Proof/Machine/Step.lean ====
section
/-!
DEFINITION. The step: fetch, and execute what was fetched.
-/

namespace Sys2Proof.Machine

/-- One step of the machine. -/
def step (s : State) : Host.Outcome State Fault Refusal :=
  match fetch s with
  | .instr i s' => exec i s'
  | .done o => o

/-- The state with the instruction of `w` presented as the next input (log 4, 5). -/
def State.withFetchWord (s : State) (nbits w : Nat) : State := s.present (tableWords nbits w)

end Sys2Proof.Machine
end

