-- ==== Sys2Proof/Machine/Traces.lean ====
section
/-!
DEFINITION. The transactions of each operation as the spec writes them down, with every transaction ok
(41_addressing_engine.md R51, 43_framebuffer_writer.md R66, 42_font_expander.md R65, 44_text_renderer.md R72,
45_blitters.md R76, R77, 46_display_controller.md R79, R81). The step does not use them: they are what the
sequencer's work is held against.
-/

namespace Sys2Proof.Machine

/-- `SetPosTxns(page, column)` (R51). -/
def setPosTxns (page column : Nat) : List Txn :=
  [.cmd (pageByte page), .cmd (colLoByte column), .cmd (colHiByte column)]

/-- `WriteTxns(page, column, data)` (R66). -/
def writeTxns (page column : Nat) (data : List Byte) : List Txn :=
  setPosTxns page column ++ (chunks data).map Txn.data

/-- The two writes of a glyph (R65). -/
def glyphTxns (row : GlyphRow) (page column : Nat) : List Txn :=
  writeTxns page column (upperBytes row).toList ++ writeTxns (page + 1) column (lowerBytes row).toList

/-- The text of `DRAWSTR` from text cursor `t` on: the transactions, and the code at the end: a character with
no font entry ends the operation (R72, R75). -/
def textTxns (font : List GlyphRow) (startPage startCol : Nat) : TextCursor → List Byte → List Txn × Err
  | _, [] => ([], .none)
  | t, c :: text =>
    match glyphRow font (some (.char c)) with
    | none => ([], .invalidGlyphInput)
    | some row =>
      let rest := textTxns font startPage startCol (t.advance startPage startCol) text
      (glyphTxns row t.page t.col ++ rest.1, rest.2)

/-- The four writes of an icon (R76). -/
def iconTxns (page column : Nat) (icon : List Byte) : List Txn :=
  writeTxns page column (iconTile icon 0) ++ writeTxns page (column + 8) (iconTile icon 1) ++
  writeTxns (page + 1) column (iconTile icon 2) ++ writeTxns (page + 1) (column + 8) (iconTile icon 3)

/-- The 384 writes of an image (R77). -/
def imageTxns (page column : Nat) (image : List Byte) : List Txn :=
  (List.range 6).flatMap (fun p =>
    (List.range 64).flatMap (fun c => writeTxns (page + p) (column + c) (imageByte image (p * 64 + c))))

/-- The eight writes of `CLEAR` (R81). -/
def clearTxns : List Txn :=
  (List.range 8).flatMap (fun page => writeTxns page 0 (List.replicate 128 0x00#8))

/-- The 25 transactions of `INIT` (R79). -/
def initTxns : List Txn := initSeq.map Txn.cmd

/-- The transactions a request issues when every one is answered ok, and the code it ends with: a function of
its operands, its payload and the font table (R11). A target command issues nothing. -/
def requestTxns (font : List GlyphRow) : Instr → List Txn × Err
  | .init => (initTxns, .none)
  | .setpos p c => (setPosTxns p.toNat c.toNat, .none)
  | .write p c data => if data = [] then ([], .emptyPayload) else (writeTxns p.toNat c.toNat data, .none)
  | .drawglyph p c tag v =>
    match glyphRow font (glyphSource tag.toNat v) with
    | none => ([], .invalidGlyphInput)
    | some row => (glyphTxns row p.toNat c.toNat, .none)
  | .drawstr p c text =>
    textTxns font p.toNat c.toNat { page := p.toNat, col := c.toNat } text
  | .drawicon p c icon => (iconTxns p.toNat c.toNat icon, .none)
  | .drawimg p c image => (imageTxns p.toNat c.toNat image, .none)
  | .clear => (clearTxns, .none)
  | .setpage _ | .setcollo _ | .setcolhi _ => ([], .none)
  | .initAE | .init40 | .initA1 | .initC8 | .initA4 | .initA6 | .initAF => ([], .none)
  | .initD5 _ | .initA8 _ | .initD3 _ | .init8D _ | .init20 _ => ([], .none)
  | .initDA _ | .init81 _ | .initD9 _ | .initDB _ => ([], .none)

end Sys2Proof.Machine
end

