-- ==== Sys2Proof/Safety.lean ====
section
/-!
DEFINITION. The terms claims are stated in: an idle engine, what the transport answers, a ready target
(70_reset_and_hazards.md R95), how an operation ends, the invariant of the machine, and the end of a run
(47_common_laws.md R110).
-/

namespace Sys2Proof.Machine

/-- The transport's next `n` answers are ok (R104). -/
abbrev allOk (n : Nat) (as : List Answer) : Prop := ∀ a ∈ as.take n, a = Answer.ok

/-- The engine can accept a request (R14). -/
abbrev State.Idle (s : State) : Prop := s.status.busy = false

/-- The target takes data bytes: horizontal mode is set and no argument is awaited (R95 (2), (4)). -/
abbrev Target.Ready (t : Target) : Prop := t.mode = .horiz ∧ t.pend = none

/-- The operation of a request; a command of the target is none. -/
def opOf : Instr → Option Op
  | .init => some .init
  | .setpos _ _ => some .setpos
  | .write _ _ _ => some .write
  | .drawglyph _ _ _ _ => some .drawglyph
  | .drawstr _ _ _ => some .drawstr
  | .drawicon _ _ _ => some .drawicon
  | .drawimg _ _ _ => some .drawimg
  | .clear => some .clear
  | .setpage _ | .setcollo _ | .setcolhi _ => none
  | .initAE | .init40 | .initA1 | .initC8 | .initA4 | .initA6 | .initAF => none
  | .initD5 _ | .initA8 _ | .initD3 _ | .init8D _ | .init20 _ => none
  | .initDA _ | .init81 _ | .initD9 _ | .initDB _ => none

/-- Transactions answered ok, as entries of the trace (R21). -/
def okEntries (ts : List Txn) : List Entry := ts.map (fun x => { txn := x, ok := true })

/-- The state after an operation that issued exactly `ts`, every one answered ok, and ended with code `err`:
the trace and the target have followed, the answers are used up, one code is recorded, and nothing else has
changed but the engine's dead registers `e` (R12, R14, R21, R32, R110). -/
def State.ended (s : State) (ts : List Txn) (err : Err) (e : Engine) : State :=
  { s with
    eng := e
    status := { busy := false, err := err }
    tx := none
    answered := s.answered ++ okEntries ts
    codes := s.codes ++ [err]
    target := s.target.bind (Target.applyAll ts)
    answers := s.answers.drop ts.length }

/-- The instruction's whole effect, all transactions ok: it ends idle, with the transactions `ts` and the code
`err`. -/
def Ends (i : Instr) (s : State) (ts : List Txn) (err : Err) : Prop :=
  ∃ e : Engine, e.phase = .idle ∧ exec i s = .next (s.ended ts err e)

/-! ## The invariant -/

/-- Every register fits the width R12 gives it, and the payload the length field of R42. -/
def Engine.Fits (e : Engine) : Prop :=
  e.aLen < 4096 ∧ e.wPage < 512 ∧ e.wCol < 512 ∧ e.wLen < 4096 ∧ e.wOff < 4096 ∧
  e.trPage < 512 ∧ e.trCol < 512 ∧ e.idx < 4096 ∧ e.payload.length < 4096

/-- A FrameBufferWriter call in progress: its bytes are `w_len` many, only its `CHECK` may find none, and a
chunk phase has bytes left to send (R69). -/
def Engine.CallSound (e : Engine) : Prop :=
  e.callData.length = e.wLen ∧
  (e.phase = .check ∨
    (e.phase = .cmdPage ∨ e.phase = .cmdCollo ∨ e.phase = .cmdColhi) ∧ e.wOff = 0 ∧ 0 < e.wLen ∨
    e.phase = .chunk ∧ e.wOff < e.wLen)

/-- The sequencer's position is one the operation in progress can be at. -/
def Engine.Sound (e : Engine) : Prop :=
  match e.op with
  | .init => (e.phase = .check ∧ e.idx = 0) ∨ (e.phase = .initseq ∧ e.idx < 25)
  | .setpos => e.phase = .check ∨ e.phase = .cmdPage ∨ e.phase = .cmdCollo ∨ e.phase = .cmdColhi
  | .write => e.CallSound
  | .drawglyph => e.payload.length = 1 ∧ ((e.phase = .expand ∧ e.idx = 0) ∨ (e.CallSound ∧ e.idx ≤ 1))
  | .drawstr =>
    e.trPage < 256 ∧ e.trCol < 256 ∧
    ((e.phase = .expand ∧ e.idx ≤ e.payload.length) ∨
      (e.CallSound ∧ e.idx < e.payload.length ∧ (e.wPage = e.trPage ∨ e.wPage = e.trPage + 1)))
  | .drawicon => e.payload.length = 32 ∧ e.idx < 4 ∧ e.CallSound
  | .drawimg => e.payload.length = 384 ∧ e.idx < 384 ∧ e.CallSound
  | .clear => e.idx < 8 ∧ e.CallSound

/-- The engine's command alphabet (R48): `0xB0..0xB7`, `0x00..0x1F`, and the bytes of `INIT_SEQ`. -/
def engineByte (v : Byte) : Bool :=
  v &&& 0xF8#8 = 0xB0#8 || v &&& 0xE0#8 = 0x00#8 || initSeq.contains v

/-- A transaction the engine can issue (R39, R48): a command byte of its alphabet, or 1 to 32 data bytes. -/
def Txn.Legal : Txn → Prop
  | .cmd v => engineByte v = true
  | .data bs => 1 ≤ bs.length ∧ bs.length ≤ 32

/-- The target's GDDRAM is in canonical form, and an awaited argument belongs to a command that takes one
(R18, R41). -/
def Target.Sound (t : Target) : Prop := t.g.wf ∧ ∀ c, t.pend = some c → c ∈ argCommands

/-- The invariant of the machine. -/
structure State.Inv (s : State) : Prop where
  /-- Busy exactly while an operation is in progress (R13, R14). -/
  busy_iff : s.status.busy = true ↔ s.eng.phase ≠ .idle
  /-- Registers fit their widths (R12). -/
  fits : s.eng.Fits
  /-- The sequencer's position is sound (R69). -/
  sound : s.eng.phase ≠ .idle → s.eng.Sound
  /-- What is on the transport port is what the sequencer issues at its position (R104). -/
  port : ∀ x, s.tx = some x → s.eng.txn = some x
  /-- The target's state is sound. -/
  target : ∀ t, s.target = some t → t.Sound
  /-- Every transaction of the trace, the unanswered one too, is one the engine can issue (R39, R48). -/
  legal : ∀ x ∈ s.trace, x.1.Legal

/-! ## Runs (R110) -/

/-- The run is over: nothing is left at the host port, the engine is idle, no transaction is unanswered. -/
def State.RunOver (s : State) : Prop := s.inputs = [] ∧ s.status.busy = false ∧ s.tx = none

/-- The result of a run (R110): the codes, the trace, the target's state if it has one. -/
def State.result (s : State) : List Err × List (Txn × Option Bool) × Option Target := (s.codes, s.trace, s.target)

end Sys2Proof.Machine
end

