-- ==== Sys2Proof/Certificates/Slice0/Obligations.lean ====
section
/-!
DEFINITION. The statements for the provers, each from the numbered rules of spec/. Two choices of the model
stand behind all that run an operation: one step runs it to its end or to a transaction left unanswered (log 2),
and a transport whose list of answers is used up answers ok (log 1).
-/

open Sys2Proof Sys2Proof.Machine

/-! ## Encodings (30_encoding.md) -/

/-- Every well-formed instruction is read back from its own words, whatever follows them
(30_encoding.md sections 2 and 3). -/
def Obligations.EncodeThenDecode : Prop :=
  ∀ (i : Instr) (more : List Byte), i.wellFormed = true → decode ((encode i).append more) = .ok (i, more)

/-- Words have one meaning: what decodes to an instruction is that instruction's encoding and what follows
(30_encoding.md sections 2 and 3). -/
def Obligations.DecodeThenEncode : Prop :=
  ∀ (w : Words) (i : Instr) (more : List Byte),
    decode w = .ok (i, more) → i.wellFormed = true ∧ w = (encode i).append more

/-- Request decode follows R43 and R47 (the spec's decision D4): a header is illegal exactly when it matches no row
of the opcode map, and that is the list of R47. -/
def Obligations.IllegalHeaders : Prop :=
  ∀ (o : BitVec 4) (l : BitVec 12) (p c : Byte) (pl : List Byte),
    (decodeRequest (requestHeader o l p c) pl = .error .illegalRequest ↔
      ∀ r ∈ requestRows, (requestHeader o l p c).toNat &&& r.mask ≠ r.pattern) ∧
    (decodeRequest (requestHeader o l p c) pl = .error .illegalRequest ↔
      8 ≤ o.toNat ∨ ((o = 0#4 ∨ o = 7#4) ∧ ¬ (l = 0#12 ∧ p = 0#8 ∧ c = 0#8)) ∨ (o = 1#4 ∧ l ≠ 0#12) ∨
        (o = 5#4 ∧ l ≠ 32#12) ∨ (o = 6#4 ∧ l ≠ 384#12))

/-- R49 (the spec's decision D4): a request's length is decided by its header alone, and exactly that many payload
bytes are taken. The last clause, that fewer bytes than that are rejected as `payloadShort`, is the model's choice
(log 20): the spec has such a machine wait for ever (93_implementation_defined.md U12). -/
def Obligations.PayloadLength : Prop :=
  ∀ (h : Header) (pl : List Byte),
    (∀ i rest, decodeRequest h pl = .ok (i, rest) →
      impliedPayload h ≤ pl.length ∧ rest = pl.drop (impliedPayload h)) ∧
    (decodeRequest h pl ≠ .error .illegalRequest → impliedPayload h ≤ pl.length →
      ∃ i, decodeRequest h pl = .ok (i, pl.drop (impliedPayload h))) ∧
    (decodeRequest h pl ≠ .error .illegalRequest → pl.length < impliedPayload h →
      decodeRequest h pl = .error .payloadShort)

/-- R44: the three addressing bytes of any page and column: by the formulas, and as fields; only `page[2:0]` and
`column[7:0]` reach the bus. -/
def Obligations.AddressingBytes : Prop :=
  ∀ page column : Nat,
    (pageByte page).toNat = 0xB0 ||| (page &&& 0x07) ∧
    (colLoByte column).toNat = 0x00 ||| (column &&& 0x0F) ∧
    (colHiByte column).toNat = 0x10 ||| ((column >>> 4) &&& 0x0F) ∧
    pageByte page = 0b10110#5 ++ (BitVec.ofNat 8 page).extractLsb' 0 3 ∧
    colLoByte column = 0b0000#4 ++ (BitVec.ofNat 8 column).extractLsb' 0 4 ∧
    colHiByte column = 0b0001#4 ++ (BitVec.ofNat 8 column).extractLsb' 4 4

/-- A few words of 95_test_vectors.md V32 and 30_encoding.md R41, decoded. -/
def Obligations.SampleWords : Prop :=
  decode (.request 0x10000948#32 []) = .ok (.setpos 9#8 72#8, []) ∧
  decode (.request 0x00000001#32 []) = .error .illegalRequest ∧
  decode (.request 0x30010205#32 [0x11#8]) = .ok (.drawglyph 2#8 5#8 1#12 0x11#8, []) ∧
  decode (.request 0x40030000#32 [0x41#8, 0x01#8, 0x41#8]) = .ok (.drawstr 0#8 0#8 [0x41#8, 0x01#8, 0x41#8], []) ∧
  decode (.command [0xB1#8]) = .ok (.setpage 1#3, []) ∧
  decode (.command [0x1C#8]) = .ok (.setcolhi 0xC#4, []) ∧
  decode (.command [0x20#8, 0x00#8]) = .ok (.init20 0#8, [])

/-! ## The step -/

/-- A step runs the decoded request: an idle engine whose port presents a header and the payload of a
well-formed instruction executes exactly that instruction, past its words. The ports are the model's lists
(log 4). -/
def Obligations.StepRunsRequest : Prop :=
  ∀ (s : State) (h : Header) (rest : List Input) (i : Instr) (pl : List Byte),
    s.Idle → s.inputs = .request h :: rest → decode (.request h s.payloadPort) = .ok (i, pl) →
    step s = exec i { s with inputs := rest, payloadPort := pl }

/-- A step runs the decoded command: command bytes that reach a target awaiting no argument are executed as the
instruction they decode to, and the bytes after it stay at the head of the inputs. That command bytes can come
without the engine is the model's choice (log 5). -/
def Obligations.StepRunsCommand : Prop :=
  ∀ (s : State) (bs more : List Byte) (rest : List Input) (i : Instr),
    s.Idle → s.inputs = .command bs :: rest → s.awaiting = false → decode (.command bs) = .ok (i, more) →
    step s = exec i { s with inputs := if more = [] then rest else .command more :: rest }

/-- R85 (the spec's decision D8): a header of no row ends in `IllegalRequest` (code 4) with no transaction issued,
no payload byte taken and the target untouched. -/
def Obligations.IllegalRequestAborts : Prop :=
  ∀ (s : State) (h : Header) (rest : List Input),
    s.Idle → s.inputs = .request h :: rest → (∀ r ∈ requestRows, h.toNat &&& r.mask ≠ r.pattern) →
    ∃ e : Engine, e.phase = .idle ∧
      step s = .next { s with
        inputs := rest, eng := e, status := { busy := false, err := .illegalRequest }, tx := none,
        codes := s.codes ++ [.illegalRequest] }

/-- R14 (the spec's decision D25): a busy engine accepts no request: executing one changes nothing (the model's
reading, log 21), and a step leaves every request at the port. -/
def Obligations.BusyAcceptsNothing : Prop :=
  (∀ (i : Instr) (s : State) (op : Op), opOf i = some op → s.status.busy = true → exec i s = .next s) ∧
  (∀ (s t : State) (h : Header) (rest : List Input), s.status.busy = true → s.inputs = .request h :: rest →
    step s = .next t → t.inputs = s.inputs ∧ t.payloadPort = s.payloadPort)

/-- R93: engine reset ends any operation: `IDLE`, status 0, trace empty; the target changes at most by the
transaction that was in flight, delivered whole or not at all (the spec's decision D18; the model's reading of
"delivered", log 15; that an `INIT` cut off keeps the mode its bytes have set is the model's choice, log 29). -/
def Obligations.EngineReset : Prop :=
  ∀ (s : State) (rest : List Input), s.inputs = .rst :: rest →
    ∃ t : State, step s = .next t ∧ t.eng.phase = .idle ∧ t.status.word = 0b0000#4 ∧ t.trace = [] ∧ t.tx = none ∧
      t.inputs = rest ∧ t.font = s.font ∧ t.payloadPort = s.payloadPort ∧ t.answers = s.answers ∧
      (s.tx = none → t.target = s.target) ∧
      (∀ x, s.tx = some x → t.target = s.target ∨ t.target = s.target.bind (Target.apply x))

/-- R23, R93: target power-on leaves mode `UNINIT`, each of the 1024 cells with the byte that this power-on drew
for it, and an awaited argument, if any, of one of the nine commands; nothing of the engine changes (the spec's
decision D18). That the draws are numbered is the model's form of "any byte" (log 10, 16). -/
def Obligations.TargetPowerOn : Prop :=
  ∀ (s : State) (rest : List Input), s.inputs = .powerOn :: rest →
    ∃ t : Target, step s = .next { s with inputs := rest, target := some t, draws := s.draws + 1 } ∧
      t.mode = .uninit ∧ (∀ p c, t.cell p c = Config.powerOnByte s.draws (cellAddr p c)) ∧
      ∀ v, t.pend = some v → v ∈ argCommands

/-- R23: what both resets leave, where the spec gives it. The rest of `State.reset` is the model's choice
(log 7 to 10, 23, 25). -/
def Obligations.ResetState : Prop :=
  State.reset.eng.phase = .idle ∧ State.reset.status.word = 0b0000#4 ∧ State.reset.trace = [] ∧
  State.reset.tx = none ∧ ∃ t, State.reset.target = some t ∧ t.mode = .uninit

/-! ## AddressingEngine and the target (41_addressing_engine.md) -/

/-- R56: the net effect of `SETPOS`, with its three bytes (R51), for every page, column and cursor. -/
def Obligations.SetposEnds : Prop :=
  ∀ (s : State) (t : Target) (p c : Byte),
    s.Idle → s.target = some t → t.pend = none → allOk 3 s.answers →
    ∃ e : Engine, e.phase = .idle ∧
      exec (.setpos p c) s = .next { s with
        eng := e, status := { busy := false, err := .none }, tx := none, codes := s.codes ++ [.none],
        answered := s.answered ++ okEntries
          [.cmd (0xB0#8 ||| (p &&& 0x07#8)), .cmd (0x00#8 ||| (c &&& 0x0F#8)),
           .cmd (0x10#8 ||| ((c >>> 4) &&& 0x0F#8))],
        target := some { t with page := p.extractLsb' 0 3, col := c.extractLsb' 0 7 },
        answers := s.answers.drop 3 }

/-- R57: two positions leave the same target state exactly when they agree modulo 8 and 128, and are the same
bytes exactly when they agree modulo 8 and 256. -/
def Obligations.SetposEquivalence : Prop :=
  ∀ p1 c1 p2 c2 : Nat,
    (∀ t : Target, t.pend = none →
      (Target.applyAll (setPosTxns p1 c1) t = Target.applyAll (setPosTxns p2 c2) t ↔
        p1 % 8 = p2 % 8 ∧ c1 % 128 = c2 % 128)) ∧
    (setPosTxns p1 c1 = setPosTxns p2 c2 ↔ p1 % 8 = p2 % 8 ∧ c1 % 256 = c2 % 256)

/-- R52 and R53: `SETPAGE` and `SETCOLLO`, by their masks, at a target that awaits no argument. -/
def Obligations.PageAndLowColumn : Prop :=
  ∀ (v : Byte) (t : Target), t.pend = none →
    (v &&& 0xF8#8 = 0xB0#8 → t.cmd v = some { t with page := (v &&& 0x07#8).extractLsb' 0 3 }) ∧
    (v &&& 0xF0#8 = 0x00#8 → t.cmd v = some { t with col := t.col.extractLsb' 4 3 ++ v.extractLsb' 0 4 })

/-- R54: `SETCOLHI`, by its mask, at a target that awaits no argument. That bit 3 of the byte is ignored is the
spec's decision D16. -/
def Obligations.HighColumn : Prop :=
  ∀ (v : Byte) (t : Target), t.pend = none → v &&& 0xF0#8 = 0x10#8 →
    t.cmd v = some { t with col := v.extractLsb' 0 3 ++ t.col.extractLsb' 0 4 }

/-- R52, R53, R54 as instructions: `SETPAGE`, `SETCOLLO` and `SETCOLHI` at a target that awaits no argument
change the cursor field they name and nothing else of the machine. That bit 3 of `SETCOLHI` is ignored is the
spec's decision D16; that these bytes can reach the target without the engine is the model's (log 5). -/
def Obligations.AddressingCommandsEnd : Prop :=
  ∀ (s : State) (t : Target), s.target = some t → t.pend = none →
    (∀ p : BitVec 3, exec (.setpage p) s = .next { s with target := some { t with page := p } }) ∧
    (∀ l : BitVec 4, exec (.setcollo l) s =
      .next { s with target := some { t with col := t.col.extractLsb' 4 3 ++ l } }) ∧
    (∀ h : BitVec 4, exec (.setcolhi h) s =
      .next { s with target := some { t with col := h.extractLsb' 0 3 ++ t.col.extractLsb' 0 4 } })

/-- R55: a data byte: in horizontal mode it is stored at the cursor, every other cell is unchanged, and the
cursor goes to the next column, or to column 0 of the next page, page 0 after page 7; in any other mode it is
refused. A block write is its bytes, in order; a register write is its command byte. Column 0, page 0 after page
7, and the refusal are the spec's decisions D14, D13 and D17. -/
def Obligations.DataByte : Prop :=
  ∀ (d : Byte) (t : Target),
    (t.mode = .horiz → ∃ t' : Target, t.apply (.data [d]) = some t' ∧
      (∀ p c, t'.cell p c = if p = t.page ∧ c = t.col then d else t.cell p c) ∧
      (t.col = 127#7 → t'.col = 0#7 ∧ t'.page.toNat = (t.page.toNat + 1) % 8) ∧
      (t.col ≠ 127#7 → t'.col.toNat = t.col.toNat + 1 ∧ t'.page = t.page) ∧
      t'.mode = t.mode ∧ t'.pend = t.pend) ∧
    (t.mode ≠ .horiz → t.apply (.data [d]) = none) ∧
    (∀ ds, t.apply (.data (d :: ds)) = (t.apply (.data [d])).bind (Target.apply (.data ds))) ∧
    t.apply (.cmd d) = t.cmd d

/-! ## FontExpander (42_font_expander.md) -/

/-- R58: the glyph codes, signed and unwrapped, their ranges, and the overlap of the two namespaces. -/
def Obligations.GlyphCodes : Prop :=
  (∀ c : Byte, glyphCode (.char c) = (c.toNat : Int) - 0x20) ∧
  (∀ n : Byte, glyphCode (.index n) = (n.toNat : Int) + 0x10) ∧
  (∀ c : Byte, -32 ≤ glyphCode (.char c) ∧ glyphCode (.char c) ≤ 223) ∧
  (∀ n : Byte, 16 ≤ glyphCode (.index n) ∧ glyphCode (.index n) ≤ 271) ∧
  (∀ n : Byte, n.toNat + 0x30 < 256 → glyphCode (.index n) = glyphCode (.char (n + 0x30#8)))

/-- R61: bit doubling. -/
def Obligations.BitDoubling : Prop :=
  ∀ (n : BitVec 4) (i : Fin 4),
    (dbl4 n).getLsbD (2 * i.val) = n.getLsbD i.val ∧ (dbl4 n).getLsbD (2 * i.val + 1) = n.getLsbD i.val

/-- R60, R62: each source column gives two columns of the cell, its low nibble doubled in the upper half and its
high nibble in the lower; in pixels, the cell pixel at column `k` and row `y` is the source pixel at column
`k div 2`, row `y div 2`. -/
def Obligations.GlyphPixels : Prop :=
  ∀ row : GlyphRow,
    (∀ j : Fin 5,
      (upperBytes row)[2 * j.val]'(by omega) = dbl4 (row[j].extractLsb' 0 4) ∧
      (upperBytes row)[2 * j.val + 1]'(by omega) = dbl4 (row[j].extractLsb' 0 4) ∧
      (lowerBytes row)[2 * j.val]'(by omega) = dbl4 (row[j].extractLsb' 4 4) ∧
      (lowerBytes row)[2 * j.val + 1]'(by omega) = dbl4 (row[j].extractLsb' 4 4)) ∧
    ∀ (k : Fin 10) (y : Fin 16),
      (if y.val < 8 then (upperBytes row)[k].getLsbD y.val else (lowerBytes row)[k].getLsbD (y.val - 8)) =
        (row[k.val / 2]'(by omega)).getLsbD (y.val / 2)

/-- R105, R64: the font port gives byte `i` of entry `code` at address `code * 5 + i`, and a glyph source has
no entry exactly when it is none or its code is negative or not below `N_GLYPHS`. -/
def Obligations.FontLookup : Prop :=
  (∀ (font : List GlyphRow) (code : Nat) (i : Fin 5) (h : code < font.length),
    fontPort font (fontAddr code i.val) = some ((font[code])[i])) ∧
  (∀ (font : List GlyphRow) (src : GlyphSource),
    glyphRow font (some src) = none ↔ glyphCode src < 0 ∨ (font.length : Int) ≤ glyphCode src)

/-- R65: one glyph: the eight transactions, and in the target the ten upper bytes from `(page, column)` on and
the ten lower bytes from `(page + 1, column)` on, every other cell unchanged, and the cursor behind the last of
them (R70). -/
def Obligations.DrawglyphEnds : Prop :=
  ∀ (s : State) (t : Target) (p c : Byte) (tag : BitVec 12) (v : Byte) (row : GlyphRow),
    s.Idle → s.target = some t → t.Ready → allOk 8 s.answers →
    glyphRow s.font (glyphSource tag.toNat v) = some row →
    Ends (.drawglyph p c tag v) s
      (setPosTxns p.toNat c.toNat ++ [.data (upperBytes row).toList] ++
        setPosTxns (p.toNat + 1) c.toNat ++ [.data (lowerBytes row).toList]) .none ∧
    ∃ t' : Target,
      Target.applyAll (setPosTxns p.toNat c.toNat ++ [.data (upperBytes row).toList] ++
        setPosTxns (p.toNat + 1) c.toNat ++ [.data (lowerBytes row).toList]) t = some t' ∧
      (∀ k : Fin 10, t'.byte ((posAddr p.toNat c.toNat + k.val) % 1024) = (upperBytes row)[k]) ∧
      (∀ k : Fin 10, t'.byte ((posAddr (p.toNat + 1) c.toNat + k.val) % 1024) = (lowerBytes row)[k]) ∧
      (∀ a, (∀ k < 10, a ≠ (posAddr p.toNat c.toNat + k) % 1024) →
        (∀ k < 10, a ≠ (posAddr (p.toNat + 1) c.toNat + k) % 1024) → t'.byte a = t.byte a) ∧
      t'.page.toNat = (posAddr (p.toNat + 1) c.toNat + 10) % 1024 / 128 ∧
      t'.col.toNat = (posAddr (p.toNat + 1) c.toNat + 10) % 128 ∧
      t'.mode = t.mode ∧ t'.pend = t.pend

/-- R64: a tag that is neither 0 nor 1, or a code outside the font table, ends `DRAWGLYPH` in
`InvalidGlyphInput` with no transaction (the tag is the spec's decision D9, the code its decision D10). -/
def Obligations.DrawglyphFaults : Prop :=
  ∀ (s : State) (p c : Byte) (tag : BitVec 12) (v : Byte), s.Idle →
    (2 ≤ tag.toNat ∨
      tag = 0#12 ∧ ((v.toNat : Int) - 0x20 < 0 ∨ (s.font.length : Int) ≤ (v.toNat : Int) - 0x20) ∨
      tag = 1#12 ∧ s.font.length ≤ v.toNat + 0x10) →
    Ends (.drawglyph p c tag v) s [] .invalidGlyphInput

/-! ## FrameBufferWriter (43_framebuffer_writer.md) -/

/-- R68: the chunks of a non-empty stream. -/
def Obligations.ChunkRule : Prop :=
  ∀ data : List Byte, data ≠ [] →
    (chunks data).length = (data.length + 31) / 32 ∧
    (∀ (i : Nat) (h : i < (chunks data).length),
      (chunks data)[i] = (data.drop (32 * i)).take (min (32 * i + 32) data.length - 32 * i)) ∧
    (chunks data).flatten = data ∧
    (∀ (i : Nat) (h : i < (chunks data).length), i + 1 < (chunks data).length → ((chunks data)[i]).length = 32)

/-- R70: the net effect of `WRITE`, with its transactions (R66): each cell the stream reaches holds the last
byte that reached it, every other cell is unchanged, the cursor is behind the last byte, and any other way of
cutting the stream would give the same. -/
def Obligations.WriteNetEffect : Prop :=
  ∀ (s : State) (t : Target) (p c : Byte) (data : List Byte),
    s.Idle → s.target = some t → t.Ready → data ≠ [] → data.length ≤ 4095 →
    allOk (3 + (data.length + 31) / 32) s.answers →
    Ends (.write p c data) s (setPosTxns p.toNat c.toNat ++ (chunks data).map Txn.data) .none ∧
    ∃ t' : Target,
      Target.applyAll (setPosTxns p.toNat c.toNat ++ (chunks data).map Txn.data) t = some t' ∧
      (∀ (a k : Nat) (hk : k < data.length), (posAddr p.toNat c.toNat + k) % 1024 = a →
        (∀ j, k < j → j < data.length → (posAddr p.toNat c.toNat + j) % 1024 ≠ a) →
        t'.byte a = data[k]) ∧
      (∀ a, (∀ k < data.length, (posAddr p.toNat c.toNat + k) % 1024 ≠ a) → t'.byte a = t.byte a) ∧
      t'.page.toNat = (posAddr p.toNat c.toNat + data.length) % 1024 / 128 ∧
      t'.col.toNat = (posAddr p.toNat c.toNat + data.length) % 128 ∧
      t'.mode = t.mode ∧ t'.pend = t.pend ∧
      ∀ cs : List (List Byte), cs.flatten = data →
        Target.applyAll (setPosTxns p.toNat c.toNat ++ cs.map Txn.data) t = some t'

/-- R67: an empty `WRITE` ends in `EmptyPayload` with no transaction; and no other operation can raise it, which
R67 itself derives from R65, R72, R76, R77 and R81. -/
def Obligations.EmptyPayload : Prop :=
  (∀ (s : State) (p c : Byte), s.Idle → Ends (.write p c []) s [] .emptyPayload) ∧
  (∀ (i : Instr) (s t : State) (op : Op), opOf i = some op → i.wellFormed = true → s.Idle →
    exec i s = .next t → t.status.err = .emptyPayload → ∃ p c, i = .write p c [])

/-! ## TextRenderer (44_text_renderer.md) -/

/-- R72 with the closed forms of R73 and R74: a string whose characters all have entries draws character `i` at
page `startPage + 2 ((i div m) mod q)`, column `startColumn + 11 (i mod m)`. -/
def Obligations.DrawstrEnds : Prop :=
  ∀ (s : State) (p c : Byte) (text : List Byte) (rows : List GlyphRow) (m q : Nat),
    s.Idle → text.length ≤ 4095 → allOk (8 * text.length) s.answers →
    text.map (fun ch => glyphRow s.font (some (.char ch))) = rows.map some →
    m = (if c.toNat ≤ 118 then (118 - c.toNat) / 11 + 1 else 1) →
    q = (if p.toNat < 7 then (7 - p.toNat + 1) / 2 else 1) →
    Ends (.drawstr p c text) s
      (rows.zipIdx.flatMap (fun x =>
        glyphTxns x.1 (p.toNat + 2 * (x.2 / m % q)) (c.toNat + 11 * (x.2 % m)))) .none

/-- R72, R65, R70: what a string leaves alone at the target: every cell that no glyph of it reaches, the mode
and the awaited argument. -/
def Obligations.DrawstrFrame : Prop :=
  ∀ (s u : State) (t : Target) (p c : Byte) (text : List Byte) (m q : Nat),
    s.Idle → s.target = some t → t.Ready → text.length ≤ 4095 → allOk (8 * text.length) s.answers →
    (∀ ch ∈ text, glyphRow s.font (some (.char ch)) ≠ none) →
    m = (if c.toNat ≤ 118 then (118 - c.toNat) / 11 + 1 else 1) →
    q = (if p.toNat < 7 then (7 - p.toNat + 1) / 2 else 1) →
    exec (.drawstr p c text) s = .next u →
    ∃ t' : Target, u.target = some t' ∧ t'.mode = t.mode ∧ t'.pend = t.pend ∧
      ∀ a, (∀ i < text.length, ∀ k < 10,
          a ≠ (posAddr (p.toNat + 2 * (i / m % q)) (c.toNat + 11 * (i % m)) + k) % 1024 ∧
          a ≠ (posAddr (p.toNat + 2 * (i / m % q) + 1) (c.toNat + 11 * (i % m)) + k) % 1024) →
        t'.byte a = t.byte a

/-- R75: a character with no entry ends the string in `InvalidGlyphInput`; the characters before it have been
drawn, it and those after it issue nothing (the spec's decision D12). -/
def Obligations.DrawstrFaults : Prop :=
  ∀ (s : State) (p c : Byte) (good : List Byte) (bad : Byte) (rest : List Byte),
    s.Idle → (good ++ bad :: rest).length ≤ 4095 → allOk (8 * good.length) s.answers →
    (∀ ch ∈ good, glyphRow s.font (some (.char ch)) ≠ none) →
    glyphRow s.font (some (.char bad)) = none →
    (requestTxns s.font (.drawstr p c good)).1.length = 8 * good.length ∧
    Ends (.drawstr p c (good ++ bad :: rest)) s (requestTxns s.font (.drawstr p c good)).1 .invalidGlyphInput

/-! ## IconBlitter and ImageBlitter (45_blitters.md) -/

/-- R76: the four writes of an icon, in order, and in the target byte `k` of tile `j` in the `k`-th cell from the
tile's position on, every other cell unchanged, and the cursor behind the last byte of the last tile (R70). -/
def Obligations.DrawiconEnds : Prop :=
  ∀ (s : State) (t : Target) (p c : Byte) (tiles : Vector (Vector Byte 8) 4),
    s.Idle → s.target = some t → t.Ready → allOk 16 s.answers →
    Ends (.drawicon p c (tiles[0].toList ++ tiles[1].toList ++ tiles[2].toList ++ tiles[3].toList)) s
      (setPosTxns p.toNat c.toNat ++ [.data tiles[0].toList] ++
       setPosTxns p.toNat (c.toNat + 8) ++ [.data tiles[1].toList] ++
       setPosTxns (p.toNat + 1) c.toNat ++ [.data tiles[2].toList] ++
       setPosTxns (p.toNat + 1) (c.toNat + 8) ++ [.data tiles[3].toList]) .none ∧
    ∃ t' : Target,
      Target.applyAll
        (setPosTxns p.toNat c.toNat ++ [.data tiles[0].toList] ++
         setPosTxns p.toNat (c.toNat + 8) ++ [.data tiles[1].toList] ++
         setPosTxns (p.toNat + 1) c.toNat ++ [.data tiles[2].toList] ++
         setPosTxns (p.toNat + 1) (c.toNat + 8) ++ [.data tiles[3].toList]) t = some t' ∧
      (∀ (j : Fin 4) (k : Fin 8),
        t'.byte ((posAddr (p.toNat + j.val / 2) (c.toNat + 8 * (j.val % 2)) + k.val) % 1024) =
          tiles[j][k]) ∧
      (∀ a, (∀ (j : Fin 4) (k : Fin 8),
          a ≠ (posAddr (p.toNat + j.val / 2) (c.toNat + 8 * (j.val % 2)) + k.val) % 1024) →
        t'.byte a = t.byte a) ∧
      t'.page.toNat = (posAddr (p.toNat + 1) (c.toNat + 8) + 8) % 1024 / 128 ∧
      t'.col.toNat = (posAddr (p.toNat + 1) (c.toNat + 8) + 8) % 128 ∧
      t'.mode = t.mode ∧ t'.pend = t.pend

/-- R77: the 384 one-byte writes of an image, in index order, and the net effect. -/
def Obligations.DrawimgNetEffect : Prop :=
  ∀ (s : State) (t : Target) (p c : Byte) (image : List Byte) (hl : image.length = 384),
    s.Idle → s.target = some t → t.Ready → allOk 1536 s.answers →
    Ends (.drawimg p c image) s
      ((List.range 384).flatMap (fun k =>
        setPosTxns (p.toNat + k / 64) (c.toNat + k % 64) ++ [.data [image.getD k 0#8]])) .none ∧
    ∃ t' : Target,
      Target.applyAll ((List.range 384).flatMap (fun k =>
        setPosTxns (p.toNat + k / 64) (c.toNat + k % 64) ++ [.data [image.getD k 0#8]])) t = some t' ∧
      (∀ (q : Fin 6) (k : Fin 64), t'.byte (posAddr (p.toNat + q.val) (c.toNat + k.val)) =
        image[q.val * 64 + k.val]'(by omega)) ∧
      (∀ a, (∀ (q : Fin 6) (k : Fin 64), a ≠ posAddr (p.toNat + q.val) (c.toNat + k.val)) →
        t'.byte a = t.byte a) ∧
      t'.page.toNat = (posAddr (p.toNat + 5) (c.toNat + 63) + 1) % 1024 / 128 ∧
      t'.col.toNat = (posAddr (p.toNat + 5) (c.toNat + 63) + 1) % 128 ∧
      t'.mode = t.mode ∧ t'.pend = t.pend

/-! ## DisplayController (46_display_controller.md) -/

/-- R79 and R80: the 25 bytes of `INIT`, and its whole effect on a target in any state: horizontal mode, no
argument awaited (the spec's decision D15: how the target decodes command bytes). -/
def Obligations.InitEnds : Prop :=
  ∀ (s : State) (t : Target), s.Idle → s.target = some t → allOk 25 s.answers →
    ∃ e : Engine, e.phase = .idle ∧
      exec .init s = .next { s with
        eng := e, status := { busy := false, err := .none }, tx := none, codes := s.codes ++ [.none],
        answered := s.answered ++ okEntries
          (([0xAE, 0xD5, 0x80, 0xA8, 0x3F, 0xD3, 0x00, 0x40, 0x8D, 0x14, 0x20, 0x00, 0xA1, 0xC8, 0xDA, 0x12,
             0x81, 0xCF, 0xD9, 0xF1, 0xDB, 0x40, 0xA4, 0xA6, 0xAF] : List Byte).map Txn.cmd),
        target := some { t with mode := .horiz, pend := none },
        answers := s.answers.drop 25 }

/-- R81: `CLEAR`: 24 commands and 32 blocks of 32 zero bytes; afterwards every cell is zero and the cursor is
`(0, 0)`. -/
def Obligations.ClearNetEffect : Prop :=
  ∀ (s : State) (t : Target), s.Idle → s.target = some t → t.Ready → allOk 56 s.answers →
    Ends .clear s
      ((List.range 8).flatMap (fun page =>
        setPosTxns page 0 ++ List.replicate 4 (.data (List.replicate 32 0x00#8)))) .none ∧
    ∃ t' : Target,
      Target.applyAll ((List.range 8).flatMap (fun page =>
        setPosTxns page 0 ++ List.replicate 4 (.data (List.replicate 32 0x00#8)))) t = some t' ∧
      (∀ p c, t'.cell p c = 0x00#8) ∧ (∀ a, 1024 ≤ a → t'.byte a = t.byte a) ∧
      t'.page = 0#3 ∧ t'.col = 0#7 ∧ t'.mode = t.mode ∧ t'.pend = t.pend

/-- R80, one-byte initialization commands: no modelled effect, on the target or anything else (the spec's decision
D15; that the bytes can come without the engine is the model's, log 5). -/
def Obligations.OneByteCommandsEnd : Prop :=
  ∀ (s : State) (t : Target), s.target = some t → t.pend = none →
    exec .initAE s = .next s ∧ exec .init40 s = .next s ∧ exec .initA1 s = .next s ∧ exec .initC8 s = .next s ∧
    exec .initA4 s = .next s ∧ exec .initA6 s = .next s ∧ exec .initAF s = .next s

/-- R80, two-byte initialization commands: the argument is taken as such; only command `0x20` has an effect, the
mode: `0x00` sets `HORIZ`, any other value `OTHER` (the spec's decision D15; log 5). -/
def Obligations.TwoByteCommandsEnd : Prop :=
  ∀ (s : State) (t : Target) (a : Byte), s.target = some t → t.pend = none →
    exec (.initD5 a) s = .next s ∧ exec (.initA8 a) s = .next s ∧ exec (.initD3 a) s = .next s ∧
    exec (.init8D a) s = .next s ∧ exec (.initDA a) s = .next s ∧ exec (.init81 a) s = .next s ∧
    exec (.initD9 a) s = .next s ∧ exec (.initDB a) s = .next s ∧
    exec (.init20 a) s = .next { s with
      target := some { t with mode := if a = 0x00#8 then .horiz else .other } }

/-- R80: a command byte that arrives while an argument is awaited is that argument and is not decoded; it moves no
cursor, changes no byte of the GDDRAM (neither the stored ones nor those of power-on), and changes the mode only if
the awaiting command is `0x20` (the spec's decision D15). -/
def Obligations.ArgumentIsNotDecoded : Prop :=
  ∀ (v cmd : Byte) (t : Target), t.pend = some cmd →
    ∃ t' : Target, t.cmd v = some t' ∧ t'.pend = none ∧ t'.page = t.page ∧ t'.col = t.col ∧
      t'.g = t.g ∧ t'.power = t.power ∧ (∀ p c, t'.cell p c = t.cell p c) ∧
      (cmd ≠ 0x20#8 → t'.mode = t.mode) ∧
      (cmd = 0x20#8 → t'.mode = if v = 0x00#8 then .horiz else .other)

/-- R80: what a target command does, in every state of the target, is what the target does with the bytes of
its encoding, one after the other (the spec's decision D15; log 5, 27). -/
def Obligations.CommandIsItsBytes : Prop :=
  ∀ (i : Instr) (bs : List Byte) (s : State), encode i = .command bs →
    exec i s = .next { s with target := s.target.bind (Target.applyAll (bs.map Txn.cmd)) }

/-! ## Faults, waiting, and the target's state (60_exceptions.md, 70_reset_and_hazards.md) -/

/-- R82, R14: the status word, and the numbers of the four faults. -/
def Obligations.StatusWord : Prop :=
  (∀ st : Status, st.word.getLsbD 3 = st.busy ∧ st.word.extractLsb' 0 3 = st.err.code) ∧
  Err.code .none = 0#3 ∧ Err.code .invalidGlyphInput = 1#3 ∧ Err.code .emptyPayload = 2#3 ∧
  Err.code .transportFailure = 3#3 ∧ Err.code .illegalRequest = 4#3 ∧
  ∀ e : Err, e.code.toNat ≤ 4 ∧ (e.code = 0#3 ↔ e = .none)

/-- R86, R87: a transaction answered fail is the last of its operation, which ends with `TransportFailure`;
the ones before it have taken full effect, and the target is as R84 leaves it (the spec's decision D19; its free
values are log 12 to 14). -/
def Obligations.TransportFailureAborts : Prop :=
  ∀ (i : Instr) (op : Op) (s : State) (k : Nat) (rest : List Answer),
    opOf i = some op → i.wellFormed = true → s.Idle →
    ∀ hk : k < (requestTxns s.font i).1.length, s.answers = List.replicate k .ok ++ .fail :: rest →
    ∃ e : Engine, e.phase = .idle ∧
      exec i s = .next { s with
        eng := e, status := { busy := false, err := .transportFailure }, tx := none,
        codes := s.codes ++ [.transportFailure],
        answered := s.answered ++ okEntries ((requestTxns s.font i).1.take k) ++
          [{ txn := (requestTxns s.font i).1[k], ok := false }],
        target := (s.target.bind (Target.applyAll ((requestTxns s.font i).1.take k))).map
          (Target.fail s.draws op (requestTxns s.font i).1[k]),
        answers := rest, draws := s.draws + 1 }

/-- R84 (b), (c), (d) (the spec's decision D19): what a failed transaction leaves. (b) an addressing command: the
cursor is any value; (c) a block write, in every mode: the cursor and the cells of its footprint are any value;
(d) a command inside `INIT`: mode `UNINIT`, awaited argument and cursor any value. Nothing else changes. -/
def Obligations.FailedTransaction : Prop :=
  ∀ (n : Nat) (op : Op) (t : Target),
    (∀ v, op ≠ .init → ∃ p c, Target.fail n op (.cmd v) t = { t with page := p, col := c }) ∧
    (∀ bs, ∃ p c g, Target.fail n op (.data bs) t = { t with page := p, col := c, g := g } ∧
      ∀ a, (∀ k < bs.length, (cellAddr t.page t.col + k) % 1024 ≠ a) →
        (Target.fail n op (.data bs) t).byte a = t.byte a) ∧
    (∀ v, ∃ p c d, Target.fail n .init (.cmd v) t = { t with page := p, col := c, mode := .uninit, pend := d } ∧
      ∀ w, d = some w → w ∈ argCommands)

/-- R102, R104, R9, R21: a transaction the transport leaves unanswered is held on the port, and is the last of the
trace, with no answer; the engine stays busy at that transaction, with the ones before it answered and applied.
That an answer can be missing at a step is the model's choice (log 3). -/
def Obligations.UnansweredIsHeld : Prop :=
  ∀ (i : Instr) (op : Op) (s : State) (k : Nat) (rest : List Answer),
    opOf i = some op → i.wellFormed = true → s.Idle →
    ∀ hk : k < (requestTxns s.font i).1.length, s.answers = List.replicate k .ok ++ .wait :: rest →
    ∃ (e : Engine) (t : State), e.phase ≠ .idle ∧ e.txn = some (requestTxns s.font i).1[k] ∧
      exec i s = .next t ∧
      t = { s with
        eng := e, status := { busy := true, err := .none }, tx := some (requestTxns s.font i).1[k],
        answered := s.answered ++ okEntries ((requestTxns s.font i).1.take k),
        target := s.target.bind (Target.applyAll ((requestTxns s.font i).1.take k)),
        answers := rest } ∧
      (s.tx = none →
        t.trace = s.trace ++ ((requestTxns s.font i).1.take k).map (fun x => (x, some true)) ++
          [((requestTxns s.font i).1[k], none)])

/-- R102: waiting cannot be seen in the result: the step after an unanswered transaction gives exactly what the
operation would have given with no wait in the answers (log 3). -/
def Obligations.WaitingIsInvisible : Prop :=
  ∀ (i : Instr) (op : Op) (s t : State) (k : Nat) (rest : List Answer),
    opOf i = some op → i.wellFormed = true → s.Idle → k < (requestTxns s.font i).1.length →
    (∀ r, s.inputs ≠ .rst :: r) → (∀ r, s.inputs ≠ .powerOn :: r) →
    s.answers = List.replicate k .ok ++ .wait :: rest → exec i s = .next t →
    step t = exec i { s with answers := List.replicate k .ok ++ rest }

/-- R110, R55: data bytes that reach a target outside horizontal mode: the operation completes as ever, with its
trace and code `NONE`, and the target has no state from there on (the spec's decision D17; log 11). -/
def Obligations.DataOutsideHorizontalMode : Prop :=
  ∀ (s : State) (t : Target) (p c : Byte) (data : List Byte),
    s.Idle → s.target = some t → t.mode ≠ .horiz → t.pend = none → data ≠ [] → data.length ≤ 4095 →
    allOk (3 + (data.length + 31) / 32) s.answers →
    ∃ e : Engine, e.phase = .idle ∧
      exec (.write p c data) s = .next { s with
        eng := e, status := { busy := false, err := .none }, tx := none, codes := s.codes ++ [.none],
        answered := s.answered ++ okEntries (setPosTxns p.toNat c.toNat ++ (chunks data).map Txn.data),
        target := none,
        answers := s.answers.drop (3 + (data.length + 31) / 32) }

/-- R110: a target that has no state has none until it is powered on again (log 11). -/
def Obligations.LostTargetStaysLost : Prop :=
  ∀ s t : State, s.target = none → (∀ r, s.inputs ≠ .powerOn :: r) → step s = .next t → t.target = none

/-! ## The whole machine -/

/-- R11, R32: with every transaction answered ok, each of the eight operations issues exactly the transactions
the spec writes down for it, ends with the code it gives, and leaves everything else as it was. -/
def Obligations.RequestsEnd : Prop :=
  ∀ (i : Instr) (op : Op) (s : State),
    opOf i = some op → i.wellFormed = true → s.Idle → allOk (requestTxns s.font i).1.length s.answers →
    Ends i s (requestTxns s.font i).1 (requestTxns s.font i).2

/-- R107: the transaction counts of the operations. -/
def Obligations.TransactionCounts : Prop :=
  ∀ font : List GlyphRow,
    (requestTxns font .init).1.length = 25 ∧
    (∀ p c, (requestTxns font (.setpos p c)).1.length = 3) ∧
    (∀ p c data, data ≠ [] → (requestTxns font (.write p c data)).1.length = 3 + (data.length + 31) / 32) ∧
    (∀ p c tag v, (requestTxns font (.drawglyph p c tag v)).2 = .none →
      (requestTxns font (.drawglyph p c tag v)).1.length = 8) ∧
    (∀ p c text, (requestTxns font (.drawstr p c text)).2 = .none →
      (requestTxns font (.drawstr p c text)).1.length = 8 * text.length) ∧
    (∀ p c icon, icon.length = 32 → (requestTxns font (.drawicon p c icon)).1.length = 16) ∧
    (∀ p c image, image.length = 384 → (requestTxns font (.drawimg p c image)).1.length = 1536) ∧
    (requestTxns font .clear).1.length = 56

/-- R11: what an operation issues and how it ends depends on its operands, its payload, the font and the
transport's answers, and on nothing else: not on the target, on earlier operations, or on any engine register. -/
def Obligations.OnlyOperandsMatter : Prop :=
  ∀ (i : Instr) (op : Op) (s1 s2 t1 t2 : State),
    opOf i = some op → i.wellFormed = true → s1.Idle → s2.Idle → s1.font = s2.font → s1.answers = s2.answers →
    exec i s1 = .next t1 → exec i s2 = .next t2 →
    ∃ new : List Entry, t1.answered = s1.answered ++ new ∧ t2.answered = s2.answered ++ new ∧
      t1.status = t2.status ∧ t1.tx = t2.tx ∧ t1.answers = t2.answers

/-- R21, R32, R87: a step that is no engine reset only appends to the answered part of the trace, a failed
transaction is the last it appends, and when none failed the target is the fold of its step function over what was
appended. -/
def Obligations.TargetFollowsTrace : Prop :=
  ∀ s t : State, (∀ r, s.inputs ≠ .rst :: r) → (∀ r, s.inputs ≠ .powerOn :: r) →
    (∀ bs r, s.inputs ≠ .command bs :: r) → step s = .next t →
    ∃ new : List Entry, t.answered = s.answered ++ new ∧ (∀ en ∈ new.dropLast, en.ok = true) ∧
      ((∀ en ∈ new, en.ok = true) → t.target = s.target.bind (Target.applyAll (new.map Entry.txn)))

/-- R20: no step changes the font table. -/
def Obligations.FontIsReadOnly : Prop :=
  ∀ s t : State, step s = .next t → t.font = s.font

/-- R39, R104, R25: the record of each transaction: a register write is one command byte for register `0x00`, a
block write is its 1 to 32 data bytes for register `0x40`, and both go to device `0x3C`. -/
def Obligations.TransactionRecords : Prop :=
  (∀ v : Byte, (Txn.cmd v).fields = { kind := false, dev := 0x3C#7, reg := 0x00#8, len := 1#6, bytes := [v] }) ∧
  ∀ bs : List Byte, 1 ≤ bs.length → bs.length ≤ 32 →
    (Txn.data bs).fields.kind = true ∧ (Txn.data bs).fields.dev = 0x3C#7 ∧ (Txn.data bs).fields.reg = 0x40#8 ∧
    (Txn.data bs).fields.len.toNat = bs.length ∧ (Txn.data bs).fields.bytes = bs

/-- The invariant holds after reset. -/
def Obligations.InvariantAtReset : Prop := State.reset.Inv

/-- Every step keeps the invariant: busy exactly while an operation is in progress, registers within their
widths, a sound sequencer position, the port carrying what the sequencer issues, the GDDRAM in canonical form,
and only transactions of R39 and R48 in the trace. Registers of 9 and 12 bits are natural numbers (log 17). -/
def Obligations.InvariantKept : Prop :=
  ∀ s t : State, s.Inv → step s = .next t → t.Inv

/-- From every state of the invariant, the only way a step stops the machine is the host presenting fewer
payload bytes than its header implies (R103; that this is a stop by name is log 20). -/
def Obligations.OnlyShortPayloadStops : Prop :=
  ∀ s : State, s.Inv →
    (∀ r, step s ≠ .refused r) ∧
    ∀ f, step s = .fault f → f = .payloadShort ∧ s.Idle ∧
      ∃ h rest, s.inputs = .request h :: rest ∧ s.payloadPort.length < impliedPayload h
end

