-- ==== Sys2Proof/Laws/Encoding.lean ====
section
/-!
SUPPORT. Request headers by their fields (30_encoding.md R42): a header is its four fields, the masks of R43
keep fields whole, and request decode is a case split on the fields.
-/

namespace Sys2Proof

/-- Bits 31:28 of a header (R42). -/
def headerOpc (h : Header) : BitVec 4 := h.extractLsb' 28 4

theorem header_of_fields (h : Header) :
    requestHeader (headerOpc h) (headerLen h) (headerPage h) (headerColumn h) = h := by
  unfold requestHeader headerOpc headerLen headerPage headerColumn
  rw [BitVec.extractLsb'_append_extractLsb'_eq_extractLsb' (by rfl),
    BitVec.extractLsb'_append_extractLsb'_eq_extractLsb' (by rfl),
    BitVec.extractLsb'_append_extractLsb'_eq_extractLsb' (by rfl)]
  exact BitVec.extractLsb'_eq_self

@[simp] theorem headerColumn_requestHeader (opc : BitVec 4) (len : BitVec 12) (p c : Byte) :
    headerColumn (requestHeader opc len p c) = c := by
  exact BitVec.extractLsb'_append_eq_right

@[simp] theorem headerPage_requestHeader (opc : BitVec 4) (len : BitVec 12) (p c : Byte) :
    headerPage (requestHeader opc len p c) = p := by
  ext i hi
  simp only [headerPage, requestHeader, BitVec.getElem_extractLsb', BitVec.getLsbD_append]
  have h1 : ¬ 8 + i < 8 := by omega
  simp [h1, hi]

@[simp] theorem headerLen_requestHeader (opc : BitVec 4) (len : BitVec 12) (p c : Byte) :
    headerLen (requestHeader opc len p c) = len := by
  ext i hi
  simp only [headerLen, requestHeader, BitVec.getElem_extractLsb', BitVec.getLsbD_append]
  have h1 : ¬ 16 + i < 8 := by omega
  have h2 : ¬ 16 + i - 8 < 8 := by omega
  have h3 : 16 + i - 8 - 8 = i := by omega
  simp [h1, h2, h3, hi]

@[simp] theorem headerOpc_requestHeader (opc : BitVec 4) (len : BitVec 12) (p c : Byte) :
    headerOpc (requestHeader opc len p c) = opc := by
  ext i hi
  simp only [headerOpc, requestHeader, BitVec.getElem_extractLsb', BitVec.getLsbD_append]
  have h1 : ¬ 28 + i < 8 := by omega
  have h2 : ¬ 28 + i - 8 < 8 := by omega
  have h3 : ¬ 28 + i - 8 - 8 < 12 := by omega
  have h4 : 28 + i - 8 - 8 - 12 = i := by omega
  simp [h1, h2, h3, h4, hi]

theorem requestHeader_inj {o o' : BitVec 4} {l l' : BitVec 12} {p p' c c' : Byte} :
    requestHeader o l p c = requestHeader o' l' p' c' ↔ o = o' ∧ l = l' ∧ p = p' ∧ c = c' := by
  constructor
  · intro h
    refine ⟨?_, ?_, ?_, ?_⟩
    · simpa using congrArg headerOpc h
    · simpa using congrArg headerLen h
    · simpa using congrArg headerPage h
    · simpa using congrArg headerColumn h
  · rintro ⟨rfl, rfl, rfl, rfl⟩; rfl

theorem requestHeader_and (o o' : BitVec 4) (l l' : BitVec 12) (p p' c c' : Byte) :
    requestHeader o l p c &&& requestHeader o' l' p' c' =
      requestHeader (o &&& o') (l &&& l') (p &&& p') (c &&& c') := by
  have h1 : (o ++ l) &&& (o' ++ l') = (o &&& o') ++ (l &&& l') := BitVec.and_append
  have h2 : (o ++ l ++ p) &&& (o' ++ l' ++ p') = ((o ++ l) &&& (o' ++ l')) ++ (p &&& p') := BitVec.and_append
  have h3 : (o ++ l ++ p ++ c) &&& (o' ++ l' ++ p' ++ c') =
      ((o ++ l ++ p) &&& (o' ++ l' ++ p')) ++ (c &&& c') := BitVec.and_append
  rw [h2, h1] at h3
  exact h3

/-- The mask that keeps the opcode. -/
theorem and_opcMask (o : BitVec 4) (l : BitVec 12) (p c : Byte) :
    requestHeader o l p c &&& 0xF0000000#32 = requestHeader o 0#12 0#8 0#8 := by
  rw [show 0xF0000000#32 = requestHeader 0xF#4 0#12 0#8 0#8 from rfl, requestHeader_and]
  have : o &&& 0xF#4 = o := BitVec.and_allOnes (x := o)
  simp [this]

/-- The mask that keeps opcode and length. -/
theorem and_lenMask (o : BitVec 4) (l : BitVec 12) (p c : Byte) :
    requestHeader o l p c &&& 0xFFFF0000#32 = requestHeader o l 0#8 0#8 := by
  rw [show 0xFFFF0000#32 = requestHeader 0xF#4 0xFFF#12 0#8 0#8 from rfl, requestHeader_and]
  have h1 : o &&& 0xF#4 = o := BitVec.and_allOnes (x := o)
  have h2 : l &&& 0xFFF#12 = l := BitVec.and_allOnes (x := l)
  simp [h1, h2]

/-- The mask that keeps everything. -/
theorem and_fullMask (h : Header) : h &&& 0xFFFFFFFF#32 = h := BitVec.and_allOnes (x := h)

/-- Request decode on the fields of the header (R42, R43). -/
theorem decodeRequest_fields (o : BitVec 4) (l : BitVec 12) (p c : Byte) (pl : List Byte) :
    decodeRequest (requestHeader o l p c) pl =
      if o = 0#4 ∧ l = 0#12 ∧ p = 0#8 ∧ c = 0#8 then .ok (.init, pl)
      else if o = 1#4 ∧ l = 0#12 then .ok (.setpos p c, pl)
      else if o = 2#4 then withPayload l.toNat pl (.write p c)
      else if o = 3#4 then
        match pl with
        | v :: rest => .ok (.drawglyph p c l v, rest)
        | [] => .error .payloadShort
      else if o = 4#4 then withPayload l.toNat pl (.drawstr p c)
      else if o = 5#4 ∧ l = 32#12 then withPayload 32 pl (.drawicon p c)
      else if o = 6#4 ∧ l = 384#12 then withPayload 384 pl (.drawimg p c)
      else if o = 7#4 ∧ l = 0#12 ∧ p = 0#8 ∧ c = 0#8 then .ok (.clear, pl)
      else .error .illegalRequest := by
  unfold decodeRequest
  rw [and_fullMask, and_lenMask, and_opcMask]
  rw [show 0x00000000#32 = requestHeader 0#4 0#12 0#8 0#8 from rfl,
    show 0x10000000#32 = requestHeader 1#4 0#12 0#8 0#8 from rfl,
    show 0x20000000#32 = requestHeader 2#4 0#12 0#8 0#8 from rfl,
    show 0x30000000#32 = requestHeader 3#4 0#12 0#8 0#8 from rfl,
    show 0x40000000#32 = requestHeader 4#4 0#12 0#8 0#8 from rfl,
    show 0x50200000#32 = requestHeader 5#4 32#12 0#8 0#8 from rfl,
    show 0x61800000#32 = requestHeader 6#4 384#12 0#8 0#8 from rfl,
    show 0x70000000#32 = requestHeader 7#4 0#12 0#8 0#8 from rfl]
  simp only [requestHeader_inj, and_true, headerPage_requestHeader, headerColumn_requestHeader,
    headerLen_requestHeader]
  all_goals cases pl <;> rfl

/-! ## Taking a payload -/

theorem takeExact_append (bs more : List Byte) : takeExact bs.length (bs ++ more) = some (bs, more) := by
  induction bs with
  | nil => cases more <;> rfl
  | cons b bs ih => simp [takeExact, ih]

theorem takeExact_some {n : Nat} {bs taken rest : List Byte} (h : takeExact n bs = some (taken, rest)) :
    bs = taken ++ rest ∧ taken.length = n := by
  induction n generalizing bs taken with
  | zero => simp only [takeExact, Option.some.injEq, Prod.mk.injEq] at h; obtain ⟨rfl, rfl⟩ := h; simp
  | succ n ih =>
    cases bs with
    | nil => simp [takeExact] at h
    | cons b bs =>
      simp only [takeExact] at h
      cases ht : takeExact n bs with
      | none => simp [ht] at h
      | some r =>
        obtain ⟨t, r⟩ := r
        simp only [ht, Option.some.injEq, Prod.mk.injEq] at h
        obtain ⟨rfl, rfl⟩ := h
        obtain ⟨rfl, hl⟩ := ih ht
        simp [hl]

theorem takeExact_none {n : Nat} {bs : List Byte} : takeExact n bs = none ↔ bs.length < n := by
  induction n generalizing bs with
  | zero => simp [takeExact]
  | succ n ih =>
    cases bs with
    | nil => simp [takeExact]
    | cons b bs =>
      simp only [takeExact, List.length_cons, Nat.add_lt_add_iff_right, ← ih]
      cases takeExact n bs <;> simp

/-! ## What is decoded is well formed -/

theorem decodeRequest_wellFormed {h : Header} {pl rest : List Byte} {i : Instr}
    (hd : decodeRequest h pl = .ok (i, rest)) : i.wellFormed = true := by
  rw [← header_of_fields h, decodeRequest_fields] at hd
  have := (headerLen h).isLt
  simp only [withPayload] at hd
  split_ifs at hd <;> try (split at hd) <;> try (cases hd)
  all_goals
    first
    | rfl
    | (cases hd; rfl)
    | (have := (takeExact_some ‹_›).2; simp only [Instr.wellFormed, decide_eq_true_eq]; omega)

theorem decodeCommand_wellFormed {bs rest : List Byte} {i : Instr} (hd : decodeCommand bs = .ok (i, rest)) :
    i.wellFormed = true := by
  unfold decodeCommand at hd
  split at hd
  · cases hd
  · split_ifs at hd
    · cases hd; rfl
    · cases hd; rfl
    · cases hd; rfl
    · split at hd
      · cases hd
        rename_i h
        unfold plainCommand at h
        split_ifs at h <;> cases h <;> rfl
      · unfold decodeArg at hd
        split at hd
        · split at hd <;> cases hd
        · split at hd <;> cases hd
          rename_i h
          unfold argCommand at h
          split_ifs at h <;> cases h <;> rfl

end Sys2Proof
end

