-- ==== Sys2Proof/Laws/Memory.lean ====
section
/-!
SUPPORT. The GDDRAM's laws: a read after a write, and that every operation keeps the canonical form
(10_state.md R17, 20_memory.md R24).
-/

namespace Sys2Proof.Machine

@[simp] theorem read_write_same (m : Memory) (k : Nat) (v : Byte) : (m.write k v).read k = some v := by
  induction m with
  | nil => simp [Memory.write, Memory.read]
  | cons x m ih =>
    obtain ⟨a, w⟩ := x
    simp only [Memory.write]
    split
    · simp [Memory.read]
    · split
      · simp [Memory.read]
      · rename_i h1 h2; simp [Memory.read, h2, ih]

theorem read_write_other (m : Memory) {k j : Nat} (v : Byte) (h : j ≠ k) : (m.write k v).read j = m.read j := by
  induction m with
  | nil => simp [Memory.write, Memory.read, h]
  | cons x m ih =>
    obtain ⟨a, w⟩ := x
    simp only [Memory.write]
    split
    · simp [Memory.read, h]
    · split
      · rename_i h2; subst h2; simp [Memory.read, h]
      · simp [Memory.read, ih]

theorem mem_write {m : Memory} {k : Nat} {v : Byte} {x : Host.Cell} (h : x ∈ m.write k v) :
    x = (k, v) ∨ x ∈ m := by
  induction m with
  | nil => simpa [Memory.write] using h
  | cons y m ih =>
    obtain ⟨a, w⟩ := y
    simp only [Memory.write] at h
    split at h
    · simpa using h
    · split at h
      · rcases List.mem_cons.mp h with h | h
        · exact .inl h
        · exact .inr (List.mem_cons_of_mem _ h)
      · rcases List.mem_cons.mp h with h | h
        · exact .inr (h ▸ List.mem_cons_self)
        · rcases ih h with h | h
          · exact .inl h
          · exact .inr (List.mem_cons_of_mem _ h)

theorem write_sorted {m : Memory} (k : Nat) (v : Byte) (h : m.Pairwise (fun x y => x.1 < y.1)) :
    (m.write k v).Pairwise (fun x y => x.1 < y.1) := by
  induction m with
  | nil => simp [Memory.write]
  | cons y m ih =>
    obtain ⟨a, w⟩ := y
    rw [List.pairwise_cons] at h
    simp only [Memory.write]
    split
    · rename_i hk
      refine List.pairwise_cons.mpr ⟨fun x hx => ?_, List.pairwise_cons.mpr h⟩
      rcases List.mem_cons.mp hx with rfl | hx
      · exact hk
      · exact lt_trans hk (h.1 x hx)
    · split
      · rename_i hk
        subst hk
        exact List.pairwise_cons.mpr ⟨h.1, h.2⟩
      · rename_i h1 h2
        refine List.pairwise_cons.mpr ⟨fun x hx => ?_, ih h.2⟩
        rcases mem_write hx with rfl | hx
        · simp only; omega
        · exact h.1 x hx

/-- Every store keeps the canonical form. -/
theorem write_wf {m : Memory} {k : Nat} (v : Byte) (h : m.wf) (hk : k < 1024) : (m.write k v).wf := by
  refine ⟨write_sorted k v h.1, fun x hx => ?_⟩
  rcases mem_write hx with rfl | hx
  · simpa [nPages, nCols] using hk
  · exact h.2 x hx

theorem reset_wf : Memory.wf Target.reset.g := by decide

theorem cellAddr_lt (p : BitVec 3) (c : BitVec 7) : cellAddr p c < 1024 := by
  have := p.isLt
  have := c.isLt
  simp only [cellAddr, nCols]
  omega

theorem scramble_wf {m : Memory} (n a len : Nat) (h : m.wf) : (m.scramble n a len).wf := by
  induction len with
  | zero => exact h
  | succ k ih => exact write_wf _ ih (Nat.mod_lt _ (by decide))

/-- A failed transaction damages only its footprint. -/
theorem scramble_read {m : Memory} (n a : Nat) {len j : Nat} (h : ∀ k < len, (a + k) % 1024 ≠ j) :
    (m.scramble n a len).read j = m.read j := by
  induction len with
  | zero => rfl
  | succ k ih =>
    simp only [Memory.scramble]
    rw [read_write_other _ _ (by simpa [nPages, nCols] using (h k (by omega)).symm)]
    exact ih (fun i hi => h i (by omega))

/-! ## The bytes the GDDRAM holds (R17) -/

@[simp] theorem byte_store_same (d : Byte) (t : Target) : (t.store d).byte (cellAddr t.page t.col) = d := by
  simp [Target.byte, Target.store]

theorem byte_store_other (d : Byte) (t : Target) {a : Nat} (h : a ≠ cellAddr t.page t.col) :
    (t.store d).byte a = t.byte a := by
  simp [Target.byte, Target.store, read_write_other _ _ h]

/-- A byte stored since power-on is the byte held. -/
theorem byte_of_read {t : Target} {a : Nat} {v : Byte} (h : t.g.read a = some v) : t.byte a = v := by
  simp [Target.byte, h]

/-- Targets that agree on an address, and come from one power-on, hold the same byte there. -/
theorem byte_congr {t u : Target} {a : Nat} (hg : t.g.read a = u.g.read a) (hp : t.power = u.power) :
    t.byte a = u.byte a := by
  simp [Target.byte, hg, hp]

/-- A failed block write keeps every byte outside its footprint (R84 (c)). -/
theorem byte_failData (n len : Nat) {t : Target} {a : Nat}
    (h : ∀ k < len, (cellAddr t.page t.col + k) % 1024 ≠ a) : (t.failData n len).byte a = t.byte a :=
  byte_congr (scramble_read n _ h) rfl

end Sys2Proof.Machine
end

