-- ==== Sys2Proof/Laws/Sequencer.lean ====
section
/-!
SUPPORT. What a run of the sequencer does, said once: a run is a number of rows (R69); a chain of rows with every
transaction ok is the chain of the engine's own moves (`Engine.goes`), with the trace and the target following; a
row that is not answered ok ends the run; and what every row keeps, a run keeps.
-/

namespace Sys2Proof.Machine

/-! ## A run is a number of rows -/

/-- `n` rows, stopping where the sequencer stops. -/
def rowN : Nat → State → Tick
  | 0, s => .go s
  | n + 1, s => (row s).andThen (rowN n)

theorem andThen_andThen (t : Tick) (f g : State → Tick) :
    (t.andThen f).andThen g = t.andThen (fun s => (f s).andThen g) := by
  cases t <;> rfl

theorem rowN_one (s : State) : rowN 1 s = row s := by
  unfold rowN
  cases row s <;> rfl

theorem rowN_add (a b : Nat) (s : State) : rowN (a + b) s = (rowN a s).andThen (rowN b) := by
  induction a generalizing s with
  | zero => rw [Nat.zero_add]; rfl
  | succ a ih =>
    rw [Nat.succ_add]
    show (row s).andThen (rowN (a + b)) = ((row s).andThen (rowN a)).andThen (rowN b)
    rw [andThen_andThen]
    exact congrArg (fun f => (row s).andThen f) (funext ih)

/-- Rows after the sequencer has stopped change nothing. -/
theorem rowN_mono {n m : Nat} {s s' : State} (h : rowN n s = .stop s') (hm : n ≤ m) : rowN m s = .stop s' := by
  obtain ⟨d, rfl⟩ := Nat.le.dest hm
  rw [rowN_add, h]
  rfl

theorem settleRows_eq (n : Nat) (s : State) : ∃ j, j ≤ n ∧ settleRows n s = rowN j s := by
  induction n generalizing s with
  | zero => exact ⟨0, le_rfl, rfl⟩
  | succ n ih =>
    unfold settleRows
    split
    · cases h : row s with
      | go u =>
        obtain ⟨j, hj, hu⟩ := ih u
        exact ⟨j + 1, by omega, by simp only [rowN, h, Tick.andThen, hu]⟩
      | stop u => exact ⟨1, by omega, by rw [rowN_one, h]; rfl⟩
      | stuck => exact ⟨1, by omega, by rw [rowN_one, h]; rfl⟩
    · exact ⟨0, by omega, rfl⟩

/-- The internal rows before a transaction are a number of rows. -/
theorem settle_eq (s : State) : ∃ j, s.settle = rowN j s := by
  obtain ⟨j, -, h⟩ := settleRows_eq 2 s
  exact ⟨j, h⟩

/-- A tick is one row or more. -/
theorem tick_eq (s : State) : ∃ j, 0 < j ∧ tick s = rowN j s := by
  unfold tick
  cases h : row s with
  | go u =>
    obtain ⟨j, hj⟩ := settle_eq u
    exact ⟨j + 1, by omega, by simp only [rowN, h, Tick.andThen, hj]⟩
  | stop u => exact ⟨1, by omega, by rw [rowN_one, h]; rfl⟩
  | stuck => exact ⟨1, by omega, by rw [rowN_one, h]; rfl⟩

/-- A run of rows that stops within `n` rows stops the ticks too. -/
theorem ticks_stop {k n : Nat} {s s' : State} (h : rowN n s = .stop s') (hn : n ≤ 2 ^ k) : ticks k s = .stop s' := by
  have key : ∀ (k : Nat) (s : State), ∃ m, 2 ^ k ≤ m ∧ ticks k s = rowN m s := by
    intro k
    induction k with
    | zero =>
      intro s
      obtain ⟨j, hj, h⟩ := tick_eq s
      exact ⟨j, by rw [Nat.pow_zero]; omega, h⟩
    | succ k ih =>
      intro s
      obtain ⟨m, hm, h⟩ := ih s
      simp only [ticks, h]
      cases hr : rowN m s with
      | go u =>
        obtain ⟨m2, hm2, h2⟩ := ih u
        refine ⟨m + m2, by rw [Nat.pow_succ]; omega, ?_⟩
        rw [rowN_add, hr]
        exact h2
      | stop u => exact ⟨m + 2 ^ k, by rw [Nat.pow_succ]; omega, by rw [rowN_add, hr]; rfl⟩
      | stuck => exact ⟨m + 2 ^ k, by rw [Nat.pow_succ]; omega, by rw [rowN_add, hr]; rfl⟩
  obtain ⟨m, hm, hk⟩ := key k s
  rw [hk, rowN_mono h (le_trans hn hm)]

theorem two_pow_runDepth : 2 ^ runDepth = 131072 := by norm_num [runDepth]

/-- A run is its rows, when they stop in time. -/
theorem run_stop {n : Nat} {s s' : State} (h : rowN n s = .stop s') (hn : n ≤ 2 ^ runDepth) :
    s.run = .next s' := by
  obtain ⟨j, hj⟩ := settle_eq s
  have hall : rowN (j + n) s = .stop s' := rowN_mono h (by omega)
  rw [rowN_add] at hall
  unfold State.run
  rw [hj]
  cases hr : rowN j s with
  | go u =>
    rw [hr] at hall
    simp only [Tick.andThen] at hall ⊢
    rw [ticks_stop hall hn]
    rfl
  | stop u => rw [hr] at hall; cases hall; rfl
  | stuck => rw [hr] at hall; cases hall

/-! ## The engine's own moves, every transaction ok -/

/-- One move: the transaction issued, if any, and where control goes once it is answered ok. -/
def Engine.move (font : List GlyphRow) (e : Engine) : Option Txn × Next :=
  match e.phase with
  | .idle => (none, .noRow)
  | .check => (none, e.check)
  | .expand => (none, e.expand font)
  | .cmdPage | .cmdCollo | .cmdColhi | .chunk | .initseq =>
    match e.txn with
    | some x => (some x, e.afterOk)
    | none => (none, .noRow)

/-- `n` moves: the transactions issued, and where control stands. -/
def Engine.goes (font : List GlyphRow) : Nat → Engine → List Txn × Next
  | 0, e => ([], .goOn e)
  | n + 1, e =>
    match e.move font with
    | (x, .goOn e') => (x.toList ++ (Engine.goes font n e').1, (Engine.goes font n e').2)
    | (x, .complete) => (x.toList, .complete)
    | (x, .fault err) => (x.toList, .fault err)
    | (x, .noRow) => (x.toList, .noRow)

theorem goes_add (font : List GlyphRow) (a b : Nat) (e e' : Engine) (ts : List Txn)
    (h : e.goes font a = (ts, .goOn e')) :
    e.goes font (a + b) = (ts ++ (e'.goes font b).1, (e'.goes font b).2) := by
  induction a generalizing e ts with
  | zero =>
    simp only [Engine.goes, Prod.mk.injEq, Next.goOn.injEq] at h
    obtain ⟨rfl, rfl⟩ := h
    simp
  | succ a ih =>
    rw [Nat.succ_add]
    simp only [Engine.goes] at h ⊢
    rcases hm : e.move font with ⟨x, nx⟩
    rw [hm] at h
    cases nx <;> simp only [Prod.mk.injEq, reduceCtorEq, and_false] at h
    case goOn e1 =>
      obtain ⟨h1, h2⟩ := h
      have hh : e1.goes font a = ((e1.goes font a).1, .goOn e') := by rw [← h2]
      have := ih e1 _ hh
      simp only [this, ← h1, List.append_assoc]

theorem goes_step (font : List GlyphRow) (n : Nat) {e e' : Engine} {x : Option Txn}
    (h : e.move font = (x, .goOn e')) :
    e.goes font (n + 1) = (x.toList ++ (e'.goes font n).1, (e'.goes font n).2) := by
  simp [Engine.goes, h]

theorem goes_trans (font : List GlyphRow) {a b : Nat} {e e' : Engine} {ts us : List Txn} {nx : Next}
    (h : e.goes font a = (ts, .goOn e')) (h' : e'.goes font b = (us, nx)) :
    e.goes font (a + b) = (ts ++ us, nx) := by
  rw [goes_add font a b e e' ts h, h']

/-! ## The state follows the engine -/

theorem allOk_head {n : Nat} {as : List Answer} (h : allOk (n + 1) as) :
    nextAnswer as = (.ok, as.drop 1) ∧ allOk n (as.drop 1) := by
  cases as with
  | nil => exact ⟨rfl, by simp [allOk]⟩
  | cons a as =>
    have ha : a = .ok := h a (by simp)
    subst ha
    exact ⟨rfl, fun b hb => h b (by simp only [List.drop_succ_cons, List.drop_zero] at hb; simp [hb])⟩

theorem allOk_split {a b : Nat} {as : List Answer} (h : allOk (a + b) as) :
    allOk a as ∧ allOk b (as.drop a) := by
  rw [allOk, List.take_add] at h
  exact ⟨fun x hx => h x (List.mem_append_left _ hx), fun x hx => h x (List.mem_append_right _ hx)⟩

/-- A state in which the transactions `ts` have been answered ok and the engine stands at `e`. -/
def State.played (ts : List Txn) (e : Engine) (s : State) : State :=
  { s with
    eng := e
    tx := if ts = [] then s.tx else none
    answered := s.answered ++ ts.map (fun x => { txn := x, ok := true })
    target := s.target.bind (Target.applyAll ts)
    answers := s.answers.drop ts.length }

theorem played_nil (s : State) : s.played [] s.eng = s := by
  simp only [State.played, List.map_nil, List.append_nil, List.length_nil, List.drop_zero, if_true]
  have : s.target.bind (Target.applyAll []) = s.target := by cases s.target <;> rfl
  rw [this]

theorem played_played (ts us : List Txn) (e e' : Engine) (s : State) :
    (s.played ts e).played us e' = s.played (ts ++ us) e' := by
  have happ : ∀ (ts : List Txn) (t : Target),
      (Target.applyAll ts t).bind (Target.applyAll us) = Target.applyAll (ts ++ us) t := by
    intro ts
    induction ts with
    | nil => intro t; rfl
    | cons x xs ih =>
      intro t
      simp only [Target.applyAll, List.cons_append]
      cases t.apply x with
      | none => rfl
      | some t' => simpa using ih t'
  simp only [State.played, List.map_append, List.append_assoc, List.length_append, List.drop_drop]
  congr 1
  · by_cases hu : us = [] <;> by_cases ht : ts = [] <;> simp [hu, ht]
  · cases s.target with
    | none => rfl
    | some t => simpa using happ ts t

/-- One row is one move of the engine, its transaction answered ok. -/
theorem row_ok {s : State} {x : Option Txn} {nx : Next} (h : s.eng.move s.font = (x, nx))
    (hrow : nx ≠ .noRow) (hok : allOk x.toList.length s.answers) : row s = (s.played x.toList s.eng).goto nx := by
  have internal : ∀ nx', (s.played [] s.eng).goto nx' = s.goto nx' := by intro nx'; rw [played_nil]
  unfold Engine.move at h
  unfold row
  have bus : ∀ (m : (match s.eng.txn with
        | some y => (some y, s.eng.afterOk)
        | none => (none, Next.noRow)) = (x, nx)),
      (match s.eng.txn with
        | some y => s.transact y
        | none => Tick.stuck) = (s.played x.toList s.eng).goto nx := by
    intro m
    cases hx : s.eng.txn with
    | none =>
      rw [hx] at m
      obtain ⟨rfl, rfl⟩ := Prod.mk.inj m
      rfl
    | some y =>
      rw [hx] at m
      obtain ⟨rfl, rfl⟩ := Prod.mk.inj m
      have hn := (allOk_head (n := 0) hok).1
      have ht : ∀ o : Option Target, o.bind (Target.apply y) = o.bind (Target.applyAll [y]) := by
        intro o; cases o <;> simp [Target.applyAll]
      simp [State.transact, State.await, State.issue, State.answer, State.deliver, State.played, hn, ht]
  cases hp : s.eng.phase <;> rw [hp] at h <;> simp only at h ⊢
  case idle => exact absurd (Prod.mk.inj h).2.symm hrow
  case check => obtain ⟨rfl, rfl⟩ := Prod.mk.inj h; exact (internal _).symm
  case expand => obtain ⟨rfl, rfl⟩ := Prod.mk.inj h; exact (internal _).symm
  all_goals exact bus h

theorem goto_font {s s' : State} {nx : Next} (h : s.goto nx = .go s') :
    s'.font = s.font ∧ nx = .goOn s'.eng ∧ s' = { s with eng := s'.eng } := by
  cases nx with
  | goOn e => simp only [State.goto, Tick.go.injEq] at h; subst h; exact ⟨rfl, rfl, rfl⟩
  | complete => simp [State.goto] at h
  | fault err => simp [State.goto] at h
  | noRow => simp [State.goto] at h

/-- A chain of moves, every transaction answered ok, is a chain of rows; `e` is the engine at the last one. -/
theorem rowN_ok (n : Nat) {s : State} {ts : List Txn} {nx : Next} (hn : 0 < n)
    (h : s.eng.goes s.font n = (ts, nx)) (hrow : nx ≠ .noRow) (hok : allOk ts.length s.answers) :
    ∃ e m, m ≤ n ∧ rowN m s = (s.played ts e).goto nx := by
  induction n generalizing s ts with
  | zero => omega
  | succ n ih =>
    rcases hm : s.eng.move s.font with ⟨x, nx1⟩
    have stop : nx1 = nx → ts = x.toList → ∃ e m, m ≤ n + 1 ∧ rowN m s = (s.played ts e).goto nx := by
      intro h1 h2
      subst h1 h2
      refine ⟨s.eng, 1, by omega, ?_⟩
      have := row_ok hm hrow hok
      rw [rowN_one, this]
    cases nx1 with
    | complete =>
      simp only [Engine.goes, hm, Prod.mk.injEq] at h
      exact stop h.2 h.1.symm
    | fault err =>
      simp only [Engine.goes, hm, Prod.mk.injEq] at h
      exact stop h.2 h.1.symm
    | noRow =>
      simp only [Engine.goes, hm, Prod.mk.injEq] at h
      exact stop h.2 h.1.symm
    | goOn e1 =>
      rw [goes_step _ n hm] at h
      simp only [Prod.mk.injEq] at h
      obtain ⟨h1, h2⟩ := h
      have hx : allOk x.toList.length s.answers := by
        rw [← h1, List.length_append] at hok
        exact (allOk_split hok).1
      have ht := row_ok hm (by simp) hx
      rcases Nat.eq_zero_or_pos n with rfl | hpos
      · simp only [Engine.goes, List.append_nil] at h1 h2
        exact stop h2 h1.symm
      · have hok' : allOk (e1.goes s.font n).1.length (s.answers.drop x.toList.length) := by
          rw [← h1, List.length_append] at hok
          exact (allOk_split hok).2
        obtain ⟨e, m, hm', hrun⟩ := ih (s := s.played x.toList e1) (ts := (e1.goes s.font n).1) hpos
          (Prod.ext rfl h2) hok'
        refine ⟨e, m + 1, by omega, ?_⟩
        rw [played_played, h1] at hrun
        simp only [rowN, ht, State.goto, Tick.andThen]
        exact hrun

/-- An operation whose every transaction is answered ok: its trace, its target, and its end. -/
theorem run_ok {n : Nat} {s : State} {ts : List Txn} {nx : Next} (hn : 0 < n) (hb : n ≤ 2 ^ runDepth)
    (h : s.eng.goes s.font n = (ts, nx)) (hok : allOk ts.length s.answers) :
    (nx = .complete → ∃ e, s.run = .next (s.played ts e).complete) ∧
    (∀ err, nx = .fault err → ∃ e, s.run = .next ((s.played ts e).raise err)) := by
  constructor
  · rintro rfl
    obtain ⟨e, m, hm, ht⟩ := rowN_ok n hn h (by simp) hok
    exact ⟨e, run_stop ht (le_trans hm hb)⟩
  · rintro err rfl
    obtain ⟨e, m, hm, ht⟩ := rowN_ok n hn h (by simp) hok
    exact ⟨e, run_stop ht (le_trans hm hb)⟩

/-! ## A transaction that is not answered ok -/

/-- Where the engine stands before its `k`-th transaction (counting from 0). -/
theorem goes_prefix (font : List GlyphRow) (n : Nat) {e : Engine} {ts : List Txn} {nx : Next} {k : Nat}
    (h : e.goes font n = (ts, nx)) (hk : k < ts.length) :
    ∃ m e1, m < n ∧ e.goes font m = (ts.take k, .goOn e1) ∧ (e1.move font).1 = some ts[k] := by
  induction n generalizing e ts k with
  | zero =>
    obtain ⟨rfl, -⟩ := Prod.mk.inj h
    exact absurd hk (Nat.not_lt_zero _)
  | succ n ih =>
    rcases hm : e.move font with ⟨x, nx1⟩
    have here : ∀ us, ts = x.toList ++ us → k < x.toList.length →
        ∃ m e1, m < n + 1 ∧ e.goes font m = (ts.take k, .goOn e1) ∧ (e1.move font).1 = some ts[k] := by
      intro us hts hlt
      cases x with
      | none => simp at hlt
      | some x =>
        have hk0 : k = 0 := by simpa using hlt
        subst hk0 hts
        exact ⟨0, e, by omega, rfl, by rw [hm]; rfl⟩
    cases nx1 with
    | goOn e1 =>
      rw [goes_step _ n hm] at h
      obtain ⟨h1, h2⟩ := Prod.mk.inj h
      by_cases hlt : k < x.toList.length
      · exact here _ h1.symm hlt
      · subst h1
        rw [List.length_append] at hk
        obtain ⟨m, e2, hm2, hg, hx⟩ := ih (e := e1) (ts := (e1.goes font n).1) (k := k - x.toList.length)
          (Prod.ext rfl h2) (by omega)
        refine ⟨m + 1, e2, by omega, ?_, ?_⟩
        · rw [goes_step font m hm, hg, List.take_append, List.take_of_length_le (l := x.toList) (by omega)]
        · rw [hx, List.getElem_append_right (by omega)]
    | complete =>
      simp only [Engine.goes, hm] at h
      exact here [] (by simpa using (Prod.mk.inj h).1.symm) (by rw [(Prod.mk.inj h).1]; exact hk)
    | fault err =>
      simp only [Engine.goes, hm] at h
      exact here [] (by simpa using (Prod.mk.inj h).1.symm) (by rw [(Prod.mk.inj h).1]; exact hk)
    | noRow =>
      simp only [Engine.goes, hm] at h
      exact here [] (by simpa using (Prod.mk.inj h).1.symm) (by rw [(Prod.mk.inj h).1]; exact hk)

theorem row_transact {s : State} {x : Txn} (h : (s.eng.move s.font).1 = some x) : row s = s.transact x := by
  unfold Engine.move at h
  unfold row
  cases hp : s.eng.phase <;> rw [hp] at h <;> simp only at h ⊢ <;> first | exact absurd h (by simp) | skip
  all_goals
    cases hx : s.eng.txn with
    | none => rw [hx] at h; simp at h
    | some y => rw [hx] at h; simp only [Option.some.injEq] at h; rw [h]

/-! ## A move keeps the operation -/

theorem check_op {e e' : Engine} (h : e.check = .goOn e') : e'.op = e.op := by
  unfold Engine.check at h
  split at h
  · cases h; rfl
  · cases h; rfl
  all_goals
    split at h <;> cases h
    rfl

theorem expandGlyph_op {font : List GlyphRow} {src : Option GlyphSource} {page col : Nat} {e e' : Engine}
    (h : e.expandGlyph font src page col = .goOn e') : e'.op = e.op := by
  unfold Engine.expandGlyph at h
  split at h <;> simp only [Next.goOn.injEq, reduceCtorEq] at h
  subst h
  rfl

theorem expand_op {font : List GlyphRow} {e e' : Engine} (h : e.expand font = .goOn e') : e'.op = e.op := by
  unfold Engine.expand at h
  split at h <;> try simp only [reduceCtorEq] at h
  all_goals
    split at h
    · exact expandGlyph_op h
    · simp at h

theorem writeReturn_op {e e' : Engine} (h : e.writeReturn = .goOn e') : e'.op = e.op := by
  unfold Engine.writeReturn at h
  split at h <;> try simp only [reduceCtorEq] at h
  all_goals
    simp only [Engine.glyphReturn, Engine.textReturn, Engine.iconReturn, Engine.imageReturn,
      Engine.clearReturn] at h
    split at h <;> simp only [Next.goOn.injEq, reduceCtorEq] at h <;> (subst h; rfl)

theorem afterOk_op {e e' : Engine} (h : e.afterOk = .goOn e') : e'.op = e.op := by
  unfold Engine.afterOk at h
  split at h <;> try simp only [reduceCtorEq, Next.goOn.injEq] at h
  · subst h; rfl
  · subst h; rfl
  · unfold Engine.afterColhi at h
    split at h <;> simp only [reduceCtorEq, Next.goOn.injEq] at h <;> (subst h; rfl)
  · unfold Engine.afterChunk at h
    split at h
    · simp only [Next.goOn.injEq] at h; subst h; rfl
    · exact writeReturn_op (e := { e with wOff := e.wLen }) h
  · unfold Engine.afterInit at h
    split at h <;> simp only [reduceCtorEq, Next.goOn.injEq] at h
    subst h; rfl

theorem move_op {font : List GlyphRow} {e e' : Engine} {x : Option Txn} (h : e.move font = (x, .goOn e')) :
    e'.op = e.op := by
  have hnx : (e.move font).2 = .goOn e' := by rw [h]
  unfold Engine.move at hnx
  split at hnx
  · simp at hnx
  · exact check_op hnx
  · exact expand_op hnx
  all_goals
    split at hnx
    · exact afterOk_op hnx
    · simp at hnx

theorem goes_op {font : List GlyphRow} {n : Nat} {e e' : Engine} {ts : List Txn}
    (h : e.goes font n = (ts, .goOn e')) : e'.op = e.op := by
  induction n generalizing e ts with
  | zero => obtain ⟨-, h2⟩ := Prod.mk.inj h; simp only [Next.goOn.injEq] at h2; rw [h2]
  | succ n ih =>
    rcases hm : e.move font with ⟨x, nx⟩
    cases nx with
    | goOn e1 =>
      rw [goes_step _ n hm] at h
      rw [ih (e := e1) (ts := (e1.goes font n).1) (Prod.ext rfl (Prod.mk.inj h).2), move_op hm]
    | complete | fault | noRow =>
      simp only [Engine.goes, hm] at h
      exact absurd (Prod.mk.inj h).2 (by simp)

/-- The sequencer reaches its `k`-th transaction when the ones before it are answered ok. -/
theorem run_reaches {n : Nat} {s : State} {ts : List Txn} {nx : Next} {k : Nat}
    (hb : n ≤ 2 ^ runDepth) (h : s.eng.goes s.font n = (ts, nx)) (hk : k < ts.length)
    (hok : allOk k s.answers) :
    ∃ m e, m < n ∧ s.eng.goes s.font m = (ts.take k, .goOn e) ∧ (e.move s.font).1 = some ts[k] ∧
      ∃ j, j ≤ m ∧ rowN j s = .go (s.played (ts.take k) e) ∧
      ∀ s', (s.played (ts.take k) e).transact ts[k] = .stop s' → s.run = .next s' := by
  obtain ⟨m, e1, hm, hg, hx⟩ := goes_prefix s.font n h hk
  have hlen : (ts.take k).length = k := by rw [List.length_take]; omega
  refine ⟨m, e1, hm, hg, hx, ?_⟩
  have ht : row (s.played (ts.take k) e1) = (s.played (ts.take k) e1).transact ts[k] :=
    row_transact (by exact hx)
  rcases Nat.eq_zero_or_pos m with rfl | hpos
  · obtain ⟨h1, h2⟩ := Prod.mk.inj hg
    have he : s.eng = e1 := by simpa using h2
    have hs : s.played (ts.take k) e1 = s := by rw [← h1, ← he, played_nil]
    rw [hs] at ht ⊢
    exact ⟨0, le_rfl, rfl, fun s' hs' => run_stop (n := 1) (by rw [rowN_one, ht, hs']) (by omega)⟩
  · obtain ⟨e, j, hj, hrun⟩ := rowN_ok m hpos hg (by simp) (by rw [hlen]; exact hok)
    have hrun' : rowN j s = .go (s.played (ts.take k) e1) := hrun
    refine ⟨j, hj, hrun', fun s' hs' => run_stop (n := j + 1) ?_ (by omega)⟩
    rw [rowN_add, hrun']
    exact (rowN_one _).trans (by rw [ht, hs'])

theorem allOk_replicate {k : Nat} {as rest : List Answer} (hans : as = List.replicate k .ok ++ rest) :
    allOk k as := by
  intro a ha
  rw [hans, List.take_left' (by simp)] at ha
  exact List.eq_of_mem_replicate ha

theorem played_answers {s : State} {ts : List Txn} {k : Nat} {rest : List Answer} (e : Engine)
    (hk : k < ts.length) (hans : s.answers = List.replicate k .ok ++ rest) :
    (s.played (ts.take k) e).answers = rest := by
  simp only [State.played, List.length_take, Nat.min_eq_left (le_of_lt hk), hans]
  exact List.drop_left' (by simp)

/-- A failed transaction ends the operation (R84, R86). -/
theorem run_fail {n : Nat} {s : State} {ts : List Txn} {nx : Next} {k : Nat} {rest : List Answer}
    (hb : n ≤ 2 ^ runDepth) (h : s.eng.goes s.font n = (ts, nx)) (hk : k < ts.length)
    (hans : s.answers = List.replicate k .ok ++ .fail :: rest) :
    ∃ e, e.op = s.eng.op ∧ s.run = .next
      ((({ s.played (ts.take k) e with answers := rest }.answer ts[k] false).deliverFailed ts[k]).raise
        .transportFailure) := by
  obtain ⟨m, e, -, hg, -, j, -, -, he⟩ := run_reaches hb h hk (allOk_replicate hans)
  exact ⟨e, goes_op hg, he _ (by simp only [State.transact, State.await, State.issue, State.answer,
    played_answers e hk hans, nextAnswer])⟩

/-- An unanswered transaction is held on the port, and the engine waits (R102, R104). -/
theorem run_wait {n : Nat} {s : State} {ts : List Txn} {nx : Next} {k : Nat} {rest : List Answer}
    (hb : n ≤ 2 ^ runDepth) (h : s.eng.goes s.font n = (ts, nx)) (hk : k < ts.length)
    (hans : s.answers = List.replicate k .ok ++ .wait :: rest) :
    ∃ m e, m < n ∧ s.eng.goes s.font m = (ts.take k, .goOn e) ∧ (e.move s.font).1 = some ts[k] ∧
      s.run = .next { s.played (ts.take k) e with answers := rest, tx := some ts[k] } := by
  obtain ⟨m, e, hm, hg, hx, j, -, -, he⟩ := run_reaches hb h hk (allOk_replicate hans)
  exact ⟨m, e, hm, hg, hx, he _ (by simp only [State.transact, State.await, State.issue,
    played_answers e hk hans, nextAnswer])⟩

/-! ## Everything a row can do -/

/-- The outcome leaves a state with property `P`, or no state. -/
def Tick.Holds (P : State → Prop) : Tick → Prop
  | .go s => P s
  | .stop s => P s
  | .stuck => True

/-- Everything the end of a move can do: new registers, or the end of the operation. -/
theorem goto_holds {P : State → Prop} {s : State} {nx : Next} (hgo : ∀ e, nx = .goOn e → P { s with eng := e })
    (hend : ∀ err, P (s.finish err)) : (s.goto nx).Holds P := by
  cases nx with
  | goOn e => exact hgo e rfl
  | complete => exact hend _
  | fault err => exact hend _
  | noRow => trivial

/-- Everything a row can do, by what the sequencer's position issues: a row of an idle sequencer changes
nothing; an internal one only moves; a bus one is its transaction. -/
theorem row_cases (s : State) :
    (s.eng.phase = .idle ∧ row s = .stop s) ∨
    (s.eng.txn = none ∧ ∃ nx, s.eng.move s.font = (none, nx) ∧ row s = s.goto nx) ∨
    (∃ x, s.eng.txn = some x ∧ s.eng.move s.font = (some x, s.eng.afterOk) ∧ row s = s.transact x) := by
  unfold row Engine.move
  cases hp : s.eng.phase <;> simp only
  · exact .inl (by simp)
  case check | expand => exact .inr (.inl ⟨by simp only [Engine.txn, hp], _, rfl, rfl⟩)
  all_goals
    cases hx : s.eng.txn with
    | none => exact .inr (.inl ⟨rfl, .noRow, rfl, rfl⟩)
    | some x => exact .inr (.inr ⟨x, rfl, rfl, rfl⟩)

/-- Everything a transaction can do: the state after the next answer, with the transaction applied, failed, or
held. -/
theorem transact_holds {P : State → Prop} {s : State} (x : Txn)
    (hok : ∀ as e, P { ({ s with answers := as }.answer x true).deliver x with eng := e })
    (hend : ∀ as err, P ((({ s with answers := as }.answer x true).deliver x).finish err))
    (hfail : ∀ as, P ((({ s with answers := as }.answer x false).deliverFailed x).raise .transportFailure))
    (hwait : ∀ as, P { s.issue x with answers := as }) : (s.transact x).Holds P := by
  unfold State.transact State.await
  split
  · exact goto_holds (fun e _ => hok _ e) (hend _)
  · exact hfail _
  · exact hwait _

/-- What holds after one outcome, and is kept from there on, holds after both. -/
theorem andThen_holds {P : State → Prop} {t : Tick} {f : State → Tick} (ht : t.Holds P)
    (h : ∀ s, P s → (f s).Holds P) : (t.andThen f).Holds P := by
  cases t with
  | go s => exact h s ht
  | stop s => exact ht
  | stuck => trivial

/-- A property that every row keeps is kept by any number of rows. -/
theorem rowN_holds {P : State → Prop} (h : ∀ s, P s → (row s).Holds P) (n : Nat) {s : State} (hs : P s) :
    (rowN n s).Holds P := by
  induction n generalizing s with
  | zero => exact hs
  | succ n ih => exact andThen_holds (h s hs) (fun u hu => ih hu)

/-- A property that every row keeps is kept by any number of ticks. -/
theorem ticks_holds {P : State → Prop} (h : ∀ s, P s → (row s).Holds P) (k : Nat) {s : State} (hs : P s) :
    (ticks k s).Holds P := by
  induction k generalizing s with
  | zero =>
    obtain ⟨j, -, hj⟩ := tick_eq s
    show (tick s).Holds P
    exact hj ▸ rowN_holds h j hs
  | succ k ih => exact andThen_holds (ih hs) (fun u hu => ih hu)

/-- A property that every row keeps is kept by a run. -/
theorem run_holds {P : State → Prop} (h : ∀ s, P s → (row s).Holds P) {s t : State} (hs : P s)
    (hr : s.run = .next t) : P t := by
  obtain ⟨j, hj⟩ := settle_eq s
  have hk : (s.settle.andThen (ticks runDepth)).Holds P :=
    andThen_holds (hj ▸ rowN_holds h j hs) (fun u hu => ticks_holds h runDepth hu)
  unfold State.run at hr
  generalize s.settle.andThen (ticks runDepth) = o at hr hk
  cases o <;> cases hr <;> exact hk

/-- A run changes nothing of the font table and the host port. -/
theorem run_frame {s t : State} (hr : s.run = .next t) :
    t.font = s.font ∧ t.inputs = s.inputs ∧ t.payloadPort = s.payloadPort := by
  refine run_holds (P := fun u => u.font = s.font ∧ u.inputs = s.inputs ∧ u.payloadPort = s.payloadPort)
    (fun u hu => ?_) ⟨rfl, rfl, rfl⟩ hr
  rcases row_cases u with ⟨-, h⟩ | ⟨-, nx, -, h⟩ | ⟨x, -, -, h⟩ <;> rw [h]
  · exact hu
  · exact goto_holds (fun _ _ => hu) (fun _ => hu)
  · exact transact_holds x (fun _ _ => hu) (fun _ _ => hu) (fun _ => hu) (fun _ => hu)

/-- What is on the transport port is replaced by a bus row, whatever it was. -/
theorem row_tx {s : State} {x : Txn} (a b : Option Txn) (h : (s.eng.move s.font).1 = some x) :
    row { s with tx := a } = row { s with tx := b } := by
  rw [row_transact (s := { s with tx := a }) h, row_transact (s := { s with tx := b }) h]
  rfl

/-- The engine's position at a transaction is the only one with the same transactions before it. -/
theorem goes_unique {font : List GlyphRow} {e e1 e2 : Engine} {m m2 : Nat} {ts : List Txn} {x y : Txn}
    (h1 : e.goes font m = (ts, .goOn e1)) (h2 : e.goes font m2 = (ts, .goOn e2))
    (hx : (e1.move font).1 = some x) (hy : (e2.move font).1 = some y) : e1 = e2 := by
  have key : ∀ {e1 e2 : Engine} {m m2 : Nat} {x : Txn}, e.goes font m = (ts, .goOn e1) →
      e.goes font m2 = (ts, .goOn e2) → (e1.move font).1 = some x → m ≤ m2 → e1 = e2 := by
    intro e1 e2 m m2 x h1 h2 hx hle
    obtain ⟨d, rfl⟩ := Nat.le.dest hle
    rw [goes_add font m d e e1 ts h1] at h2
    obtain ⟨h3, h4⟩ := Prod.mk.inj h2
    cases d with
    | zero => simpa [Engine.goes] using h4
    | succ d =>
      exfalso
      have hnil : (e1.goes font (d + 1)).1 = [] := by simpa using h3
      rcases hm : e1.move font with ⟨y, nx⟩
      rw [hm] at hx
      simp only at hx
      subst hx
      cases nx <;> simp [Engine.goes, hm] at hnil
  rcases Nat.le_total m m2 with h | h
  · exact key h1 h2 hx h
  · exact (key h2 h1 hy h).symm

/-! ## Every run stops -/

/-- Whatever the transport answers, the sequencer stops no later than with every transaction answered ok. -/
theorem rowN_stops (n : Nat) {s : State} {ts : List Txn} {nx : Next} (h : s.eng.goes s.font n = (ts, nx))
    (hend : nx = .complete ∨ ∃ err, nx = .fault err) : ∃ m s', m ≤ n ∧ rowN m s = .stop s' := by
  induction n generalizing s ts with
  | zero =>
    obtain ⟨-, rfl⟩ := Prod.mk.inj h
    simp at hend
  | succ n ih =>
    rcases hm : s.eng.move s.font with ⟨x, nx1⟩
    have hone : ∀ s', row s = .stop s' → ∃ m s', m ≤ n + 1 ∧ rowN m s = .stop s' :=
      fun s' hs' => ⟨1, s', by omega, by rw [rowN_one, hs']⟩
    have hnx1 : nx1 ≠ .noRow := by
      rintro rfl
      simp only [Engine.goes, hm] at h
      obtain ⟨-, rfl⟩ := Prod.mk.inj h
      simp at hend
    by_cases hok : allOk x.toList.length s.answers
    · have ht := row_ok hm hnx1 hok
      cases nx1 with
      | noRow => exact absurd rfl hnx1
      | complete => exact hone _ ht
      | fault err => exact hone _ ht
      | goOn e =>
        rw [goes_step _ n hm] at h
        obtain ⟨m, s', hle, hs'⟩ := ih (s := { s.played x.toList s.eng with eng := e })
          (ts := (e.goes s.font n).1) (Prod.ext rfl (Prod.mk.inj h).2)
        refine ⟨m + 1, s', by omega, ?_⟩
        rw [Nat.add_comm, rowN_add]
        exact (congrArg (fun o => o.andThen (rowN m)) ((rowN_one s).trans ht)).trans hs'
    · cases x with
      | none => exact absurd (by simp [allOk]) hok
      | some x =>
        have ht : row s = s.transact x := row_transact (by rw [hm])
        rcases has : s.answers with _ | ⟨a, as⟩
        · exact absurd (by simp [allOk, has]) hok
        · cases a with
          | ok => exact absurd (by simp [allOk, has]) hok
          | fail => exact hone _ (by rw [ht, State.transact, State.await, State.issue, has]; rfl)
          | wait => exact hone _ (by rw [ht, State.transact, State.await, State.issue, has]; rfl)

end Sys2Proof.Machine
end

