-- ==== Sys2Proof/Laws/Operations.lean ====
section
/-!
SUPPORT. The engine's moves of each operation, every transaction ok: they are the transactions the spec writes
down (`requestTxns`), and the operation ends with the code it gives.
-/

namespace Sys2Proof.Machine

theorem goes_one (font : List GlyphRow) {e : Engine} {x : Option Txn} {nx : Next}
    (h : e.move font = (x, nx)) : e.goes font 1 = (x.toList, nx) := by
  cases nx <;> simp [Engine.goes, h]

/-! ## One FrameBufferWriter call -/

theorem chunkBytes_eq {e : Engine} {data : List Byte} (hd : e.callData = data) (hl : e.wLen = data.length) :
    e.chunkBytes = chunkAt data e.wOff := by
  unfold Engine.chunkBytes chunkAt
  rw [hd]
  split
  · rfl
  · rename_i h
    simp only [chunkMax] at *
    rw [List.take_of_length_le (by simp [hl]), List.take_of_length_le (by simp; omega)]

theorem chunkAt_ne_nil {data : List Byte} {off : Nat} (h : off < data.length) : chunkAt data off ≠ [] := by
  intro h0
  have := congrArg List.length h0
  simp [chunkAt, chunkMax] at this
  omega

/-- The chunks from number `i` on, and the return of the call. -/
theorem chunks_goes (font : List GlyphRow) (data : List Byte) (n : Nat) :
    ∀ (i : Nat) (e : Engine), e.phase = .chunk → e.callData = data → e.wLen = data.length →
      e.wOff = chunkMax * i → chunkMax * i < data.length → chunkCount data.length = i + n →
      e.goes font n =
        ((List.range' i n).map (fun j => Txn.data (chunkAt data (chunkMax * j))),
          Engine.writeReturn { e with wOff := data.length }) := by
  induction n with
  | zero =>
    intro i e hp hd hl ho hi hk
    simp only [chunkCount, chunkMax] at *
    omega
  | succ n ih =>
    intro i e hp hd hl ho hi hk
    have hb : e.chunkBytes = chunkAt data (chunkMax * i) := by rw [chunkBytes_eq hd hl, ho]
    have hm : e.move font = (some (.data (chunkAt data (chunkMax * i))), e.afterChunk) := by
      simp only [Engine.move, hp, Engine.txn, hb, if_neg (chunkAt_ne_nil hi), Engine.afterOk]
    by_cases hlast : e.wLen - e.wOff > chunkMax
    · have ha : e.afterChunk = .goOn { e with wOff := e.wOff + chunkMax } := by
        simp only [Engine.afterChunk, if_pos hlast]
      rw [ha] at hm
      rw [goes_step font n hm,
        ih (i + 1) { e with wOff := e.wOff + chunkMax } hp hd hl
          (by simp only [ho, chunkMax]; omega)
          (by rw [hl, ho] at hlast; simp only [chunkMax] at *; omega)
          (by omega)]
      simp [List.range'_succ]
    · have ha : e.afterChunk = Engine.writeReturn { e with wOff := data.length } := by
        rw [Engine.afterChunk, if_neg hlast, hl]
      rw [ha] at hm
      have hn : n = 0 := by
        rw [hl, ho] at hlast
        simp only [chunkCount, chunkMax] at *
        omega
      subst hn
      rw [goes_one font hm]
      simp

/-- The ticks of one call: `CHECK`, three commands, and the chunks. -/
def callTicks (n : Nat) : Nat := 4 + chunkCount n

/-- One FrameBufferWriter call issues `WriteTxns` of its registers and returns (R66, R69). -/
theorem call_goes (font : List GlyphRow) {e : Engine} {data : List Byte} (hp : e.phase = .check)
    (hi : e.op ≠ .init) (hs : e.op ≠ .setpos) (hd : e.callData = data) (hl : e.wLen = data.length)
    (hne : data ≠ []) :
    e.goes font (callTicks data.length) =
      (writeTxns e.wPage e.wCol data,
        Engine.writeReturn { e with phase := .chunk, wOff := data.length }) := by
  have hpos : 0 < data.length := List.length_pos_of_ne_nil hne
  have hw : e.wLen ≠ 0 := by omega
  have h1 : e.move font = (none, .goOn { e with wOff := 0, phase := .cmdPage }) := by
    simp only [Engine.move, hp, Engine.check]
    cases ho : e.op <;> simp_all
  have h2 : Engine.move font { e with wOff := 0, phase := .cmdPage } =
      (some (.cmd (pageByte e.wPage)), .goOn { e with wOff := 0, phase := .cmdCollo }) := rfl
  have h3 : Engine.move font { e with wOff := 0, phase := .cmdCollo } =
      (some (.cmd (colLoByte e.wCol)), .goOn { e with wOff := 0, phase := .cmdColhi }) := rfl
  have h4 : Engine.move font { e with wOff := 0, phase := .cmdColhi } =
      (some (.cmd (colHiByte e.wCol)), .goOn { e with wOff := 0, phase := .chunk }) := by
    simp only [Engine.move, Engine.txn, Engine.afterOk, Engine.afterColhi]
    cases ho : e.op <;> simp_all
  have h5 := chunks_goes font data (chunkCount data.length) 0 { e with wOff := 0, phase := .chunk } rfl
    (by rw [← hd]; rfl) hl (by simp) (by omega) (by simp)
  have hc : callTicks data.length = chunkCount data.length + 1 + 1 + 1 + 1 := by simp [callTicks]; omega
  rw [hc, goes_step font _ h1, goes_step font _ h2, goes_step font _ h3, goes_step font _ h4, h5]
  simp [writeTxns, setPosTxns, chunks, List.range_eq_range', List.map_map, Function.comp_def]

/-! ## Whole operations -/

theorem goes_more (font : List GlyphRow) {a : Nat} {e : Engine} {ts : List Txn} {nx : Next}
    (h : e.goes font a = (ts, nx)) (hnx : ∀ e', nx ≠ .goOn e') (b : Nat) :
    e.goes font (a + b) = (ts, nx) := by
  induction a generalizing e ts with
  | zero => exact absurd (Prod.mk.inj h).2.symm (hnx e)
  | succ a ih =>
    rw [Nat.succ_add]
    rcases hm : e.move font with ⟨x, nx1⟩
    cases nx1 <;> simp only [Engine.goes, hm] at h ⊢ <;> try exact h
    case goOn e1 =>
      obtain ⟨h1, h2⟩ := Prod.mk.inj h
      have := ih (e := e1) (ts := (e1.goes font a).1) (Prod.ext rfl h2)
      rw [this, h1]

theorem write_goes (font : List GlyphRow) (e : Engine) (p c : Byte) (data : List Byte) (hne : data ≠ []) :
    (e.startWrite p c data).goes font (callTicks data.length) =
      (writeTxns p.toNat c.toNat data, .complete) :=
  call_goes font rfl (by simp [Engine.startWrite, Engine.callWrite, Engine.load])
    (by simp [Engine.startWrite, Engine.callWrite, Engine.load]) rfl rfl hne

theorem writeEmpty_goes (font : List GlyphRow) (e : Engine) (p c : Byte) :
    (e.startWrite p c []).goes font 1 = ([], .fault .emptyPayload) := rfl

theorem setpos_goes (font : List GlyphRow) (e : Engine) (p c : Byte) :
    (e.startSetpos p c).goes font 4 = (setPosTxns p.toNat c.toNat, .complete) := rfl

theorem init_goes (font : List GlyphRow) (e : Engine) :
    e.startInit.goes font 26 = (initTxns, .complete) := rfl

/-- Where an operation ends: `done(OK)`, or the fault of its code. -/
def endOf : Err → Next
  | .none => .complete
  | .invalidGlyphInput => .fault .invalidGlyphInput
  | .emptyPayload => .fault .emptyPayload
  | .transportFailure => .fault .transportFailure
  | .illegalRequest => .fault .illegalRequest

theorem endOf_not_goOn (err : Err) (e : Engine) : endOf err ≠ .goOn e := by cases err <;> simp [endOf]

theorem toList_ne_nil (v : Vector Byte 10) : v.toList ≠ [] := by
  intro h
  have := congrArg List.length h
  simp at this

theorem callTicks_ten : callTicks 10 = 5 := rfl

/-- A FrameBufferWriter call of one half of a glyph. -/
theorem half_goes (font : List GlyphRow) {e : Engine} {v : Vector Byte 10} (hp : e.phase = .check)
    (hi : e.op ≠ .init) (hs : e.op ≠ .setpos) (hd : e.callData = v.toList) (hl : e.wLen = 10) :
    e.goes font 5 =
      (writeTxns e.wPage e.wCol v.toList, Engine.writeReturn { e with phase := .chunk, wOff := 10 }) := by
  have := call_goes font hp hi hs hd (by simp [hl]) (toList_ne_nil v)
  simpa [callTicks_ten] using this

theorem drawglyphBad_goes (font : List GlyphRow) (e : Engine) (p c : Byte) (tag : BitVec 12) (v : Byte)
    (h : glyphRow font (glyphSource tag.toNat v) = none) :
    (e.startDrawglyph p c tag v).goes font 1 = ([], .fault .invalidGlyphInput) := by
  apply goes_one (x := none)
  simp only [Engine.move, Engine.startDrawglyph, Engine.load, Engine.expand, Engine.expandGlyph, h]

theorem drawglyph_goes (font : List GlyphRow) (e : Engine) (p c : Byte) (tag : BitVec 12) (v : Byte)
    {row : GlyphRow} (h : glyphRow font (glyphSource tag.toNat v) = some row) :
    (e.startDrawglyph p c tag v).goes font 11 = (glyphTxns row p.toNat c.toNat, .complete) := by
  let e1 : Engine := Engine.callWrite p.toNat c.toNat cellW
    { e.startDrawglyph p c tag v with gUpper := upperBytes row, gLower := lowerBytes row }
  let e2 : Engine := Engine.callWrite (p.toNat + 1) c.toNat cellW { e1 with phase := .chunk, wOff := 10, idx := 1 }
  have h0 : (e.startDrawglyph p c tag v).move font = (none, .goOn e1) := by
    simp only [Engine.move, Engine.startDrawglyph, Engine.load, Engine.expand, Engine.expandGlyph, h]
    rfl
  have h1 : e1.goes font 5 = (writeTxns p.toNat c.toNat (upperBytes row).toList, .goOn e2) :=
    half_goes font (e := e1) (v := upperBytes row) rfl
      (by simp [e1, Engine.callWrite, Engine.startDrawglyph, Engine.load])
      (by simp [e1, Engine.callWrite, Engine.startDrawglyph, Engine.load]) rfl rfl
  have h2 : e2.goes font 5 = (writeTxns (p.toNat + 1) c.toNat (lowerBytes row).toList, .complete) :=
    half_goes font (e := e2) (v := lowerBytes row) rfl
      (by simp [e2, e1, Engine.callWrite, Engine.startDrawglyph, Engine.load])
      (by simp [e2, e1, Engine.callWrite, Engine.startDrawglyph, Engine.load]) rfl rfl
  have := goes_trans font h1 h2
  rw [show 11 = 5 + 5 + 1 from rfl, goes_step font _ h0, this]
  rfl

/-- The text of `DRAWSTR` from its character `idx` on. -/
theorem text_goes (font : List GlyphRow) (text : List Byte) :
    ∀ e : Engine, e.op = .drawstr → e.phase = .expand → e.payload.drop e.idx = text →
      e.goes font (11 * text.length + 1) =
        ((textTxns font e.aPage.toNat e.aCol.toNat { page := e.trPage, col := e.trCol } text).1,
          endOf (textTxns font e.aPage.toNat e.aCol.toNat { page := e.trPage, col := e.trCol } text).2) := by
  induction text with
  | nil =>
    intro e ho hp hd
    have hnone : e.payload[e.idx]? = none := by
      rw [List.getElem?_eq_none_iff]; exact List.drop_eq_nil_iff.mp hd
    apply goes_one (x := none)
    simp only [Engine.move, hp, Engine.expand, ho, hnone, textTxns, endOf]
  | cons ch rest ih =>
    intro e ho hp hd
    have hch : e.payload[e.idx]? = some ch := by
      have := congrArg List.head? hd
      simpa [List.head?_drop] using this
    have hrest : e.payload.drop (e.idx + 1) = rest := by
      have := congrArg List.tail hd
      simpa using this
    have hexp : e.move font = (none, e.expandGlyph font (some (.char ch)) e.trPage e.trCol) := by
      simp only [Engine.move, hp, Engine.expand, ho, hch]
    cases hrow : glyphRow font (some (.char ch)) with
    | none =>
      have : e.goes font 1 = ([], .fault .invalidGlyphInput) := by
        apply goes_one (x := none)
        rw [hexp]; simp only [Engine.expandGlyph, hrow]
      have := goes_more font this (by simp) (11 * (rest.length + 1))
      simp only [textTxns, hrow, endOf, List.length_cons]
      rw [Nat.add_comm] at this
      exact this
    | some row =>
      let e1 : Engine := Engine.callWrite e.trPage e.trCol cellW
        { e with gUpper := upperBytes row, gLower := lowerBytes row }
      let e2 : Engine := Engine.callWrite (e.trPage + 1) e.trCol cellW { e1 with phase := .chunk, wOff := 10 }
      let t := TextCursor.advance e.aPage.toNat e.aCol.toNat { page := e.trPage, col := e.trCol }
      let e3 : Engine :=
        { e2 with wOff := 10, trPage := t.page, trCol := t.col, idx := e.idx + 1, phase := .expand }
      have h0 : e.move font = (none, .goOn e1) := by
        rw [hexp]; simp only [Engine.expandGlyph, hrow]; rfl
      have h1 : e1.goes font 5 = (writeTxns e.trPage e.trCol (upperBytes row).toList, .goOn e2) := by
        rw [half_goes font (e := e1) (v := upperBytes row) rfl (by simp [e1, Engine.callWrite, ho])
          (by simp [e1, Engine.callWrite, ho]) (by simp [e1, Engine.callWrite, Engine.callData, ho]) rfl]
        simp [e1, e2, Engine.callWrite, Engine.writeReturn, Engine.textReturn, ho]
      have h2 : e2.goes font 5 = (writeTxns (e.trPage + 1) e.trCol (lowerBytes row).toList, .goOn e3) := by
        rw [half_goes font (e := e2) (v := lowerBytes row) rfl (by simp [e2, e1, Engine.callWrite, ho])
          (by simp [e2, e1, Engine.callWrite, ho]) (by simp [e2, e1, Engine.callWrite, Engine.callData, ho]) rfl]
        simp [e1, e2, e3, t, Engine.callWrite, Engine.writeReturn, Engine.textReturn, ho]
      have h3 := ih e3 (by simp [e3, e2, e1, Engine.callWrite, ho]) rfl hrest
      have := goes_trans font (goes_trans font h1 h2) h3
      rw [show 11 * (ch :: rest).length + 1 = 5 + 5 + (11 * rest.length + 1) + 1 by simp; omega,
        goes_step font _ h0, this]
      simp only [textTxns, hrow, Option.toList_none, List.nil_append]
      rfl

theorem drawstr_goes (font : List GlyphRow) (e : Engine) (p c : Byte) (text : List Byte) :
    (e.startDrawstr p c text).goes font (11 * text.length + 1) =
      ((textTxns font p.toNat c.toNat { page := p.toNat, col := c.toNat } text).1,
        endOf (textTxns font p.toNat c.toNat { page := p.toNat, col := c.toNat } text).2) :=
  text_goes font text _ rfl rfl rfl

/-- A counted loop of calls: call `k` issues `W k` in `t` ticks and is followed by call `k + 1`, the last by
`done(OK)`. `P k` is what holds where call `k` starts. -/
theorem loop_goes (font : List GlyphRow) (t m : Nat) (W : Nat → List Txn) (P : Nat → Engine → Prop)
    (hcall : ∀ k e, k < m → P k e →
      (∃ e', e.goes font t = (W k, .goOn e') ∧ k + 1 < m ∧ P (k + 1) e') ∨
      (k + 1 = m ∧ e.goes font t = (W k, .complete))) :
    ∀ n k e, k + (n + 1) = m → P k e →
      e.goes font (t * (n + 1)) = ((List.range' k (n + 1)).flatMap W, .complete) := by
  intro n
  induction n with
  | zero =>
    intro k e hk hP
    rcases hcall k e (by omega) hP with ⟨e', -, h, -⟩ | ⟨-, h⟩
    · omega
    · simpa using h
  | succ n ih =>
    intro k e hk hP
    rcases hcall k e (by omega) hP with ⟨e', h, -, hP'⟩ | ⟨h, -⟩
    · have := goes_trans font h (ih (k + 1) e' (by omega) hP')
      rw [show t * (n + 1 + 1) = t + t * (n + 1) by ring, this]
      simp [List.range'_succ]
    · omega

theorem icon_goes (font : List GlyphRow) (e : Engine) (p c : Byte) (icon : List Byte) (hlen : icon.length = 32) :
    (e.startDrawicon p c icon).goes font 20 = (iconTxns p.toNat c.toNat icon, .complete) := by
  let W : Nat → List Txn := fun k => writeTxns (tilePage p.toNat k) (tileCol c.toNat k) (iconTile icon k)
  let P : Nat → Engine → Prop := fun k e =>
    e.op = .drawicon ∧ e.phase = .check ∧ e.payload = icon ∧ e.idx = k ∧ e.aPage = p ∧ e.aCol = c ∧
      e.wPage = tilePage p.toNat k ∧ e.wCol = tileCol c.toNat k ∧ e.wLen = 8
  have hcall : ∀ k e, k < 4 → P k e →
      (∃ e', e.goes font 5 = (W k, .goOn e') ∧ k + 1 < 4 ∧ P (k + 1) e') ∨
      (k + 1 = 4 ∧ e.goes font 5 = (W k, .complete)) := by
    rintro k e hk ⟨ho, hp, hpl, hi, hap, hac, hwp, hwc, hwl⟩
    have hl : (iconTile icon k).length = 8 := by simp [iconTile, tileLen]; omega
    have := call_goes font (e := e) (data := iconTile icon k) hp (by simp [ho]) (by simp [ho])
      (by simp [Engine.callData, ho, hpl, hi]) (by rw [hwl, hl]) (by intro h; simp [h] at hl)
    rw [hl] at this
    simp only [Engine.writeReturn, ho, Engine.iconReturn, hi, iconTiles] at this
    by_cases hlast : k + 1 < 4
    · rw [if_pos hlast] at this
      rw [hwp, hwc] at this
      exact .inl ⟨_, this, hlast, rfl, rfl, hpl, rfl, hap, hac, by simp [Engine.callTile, Engine.callWrite, hap],
          by simp [Engine.callTile, Engine.callWrite, hac], rfl⟩
    · rw [if_neg hlast] at this
      rw [hwp, hwc] at this
      exact .inr ⟨by omega, this⟩
  have := loop_goes font 5 4 W P hcall 3 0 (e.startDrawicon p c icon) rfl
    ⟨rfl, rfl, rfl, rfl, rfl, rfl, rfl, rfl, rfl⟩
  rw [this]
  simp [W, iconTxns, List.range', tilePage, tileCol, tileLen]

theorem image_goes (font : List GlyphRow) (e : Engine) (p c : Byte) (image : List Byte)
    (hlen : image.length = 384) :
    (e.startDrawimg p c image).goes font 1920 = (imageTxns p.toNat c.toNat image, .complete) := by
  let W : Nat → List Txn := fun k => writeTxns (imagePage p.toNat k) (imageCol c.toNat k) (imageByte image k)
  let P : Nat → Engine → Prop := fun k e =>
    e.op = .drawimg ∧ e.phase = .check ∧ e.payload = image ∧ e.idx = k ∧ e.aPage = p ∧ e.aCol = c ∧
      e.wPage = imagePage p.toNat k ∧ e.wCol = imageCol c.toNat k ∧ e.wLen = 1
  have hcall : ∀ k e, k < 384 → P k e →
      (∃ e', e.goes font 5 = (W k, .goOn e') ∧ k + 1 < 384 ∧ P (k + 1) e') ∨
      (k + 1 = 384 ∧ e.goes font 5 = (W k, .complete)) := by
    rintro k e hk ⟨ho, hp, hpl, hi, hap, hac, hwp, hwc, hwl⟩
    have hl : (imageByte image k).length = 1 := by simp [imageByte]; omega
    have := call_goes font (e := e) (data := imageByte image k) hp (by simp [ho]) (by simp [ho])
      (by simp [Engine.callData, ho, hpl, hi]) (by rw [hwl, hl]) (by intro h; simp [h] at hl)
    rw [hl] at this
    simp only [Engine.writeReturn, ho, Engine.imageReturn, hi, imgPages, imgCols, Nat.reduceMul] at this
    by_cases hlast : k + 1 < 384
    · rw [if_pos hlast] at this
      rw [hwp, hwc] at this
      exact .inl ⟨_, this, hlast, rfl, rfl, hpl, rfl, hap, hac, by simp [Engine.callImageByte, Engine.callWrite, hap],
          by simp [Engine.callImageByte, Engine.callWrite, hac], rfl⟩
    · rw [if_neg hlast] at this
      rw [hwp, hwc] at this
      exact .inr ⟨by omega, this⟩
  have := loop_goes font 5 384 W P hcall 383 0 (e.startDrawimg p c image) rfl
    ⟨rfl, rfl, rfl, rfl, rfl, rfl, rfl, rfl, rfl⟩
  rw [show 1920 = 5 * (383 + 1) from rfl, this]
  congr 1
  have hr : List.range' 0 (383 + 1) = (List.range 6).flatMap (fun p => (List.range 64).map (fun c => p * 64 + c)) := by
    decide +kernel
  rw [hr, List.flatMap_assoc]
  simp only [imageTxns, List.flatMap_map, W]
  refine List.flatMap_congr fun q hq => List.flatMap_congr fun k hk => ?_
  have hk' : k < 64 := List.mem_range.mp hk
  simp only [imagePage, imageCol, imgCols, show (q * 64 + k) / 64 = q by omega,
    show (q * 64 + k) % 64 = k by omega]

theorem clear_goes (font : List GlyphRow) (e : Engine) :
    e.startClear.goes font 64 = (clearTxns, .complete) := by
  let W : Nat → List Txn := fun k => writeTxns k 0 clearBytes
  let P : Nat → Engine → Prop := fun k e =>
    e.op = .clear ∧ e.phase = .check ∧ e.idx = k ∧ e.wPage = k ∧ e.wCol = 0 ∧ e.wLen = 128
  have hcall : ∀ k e, k < 8 → P k e →
      (∃ e', e.goes font 8 = (W k, .goOn e') ∧ k + 1 < 8 ∧ P (k + 1) e') ∨
      (k + 1 = 8 ∧ e.goes font 8 = (W k, .complete)) := by
    rintro k e hk ⟨ho, hp, hi, hwp, hwc, hwl⟩
    have hl : clearBytes.length = 128 := by simp [clearBytes, clearLen]
    have := call_goes font (e := e) (data := clearBytes) hp (by simp [ho]) (by simp [ho])
      (by simp [Engine.callData, ho]) (by rw [hwl, hl]) (by intro h; simp [h] at hl)
    rw [hl] at this
    simp only [Engine.writeReturn, ho, Engine.clearReturn, hi, nPages] at this
    by_cases hlast : k + 1 < 8
    · rw [if_pos hlast] at this
      rw [hwp, hwc] at this
      exact .inl ⟨_, this, hlast, rfl, rfl, rfl, rfl, rfl, rfl⟩
    · rw [if_neg hlast] at this
      rw [hwp, hwc] at this
      exact .inr ⟨by omega, this⟩
  have := loop_goes font 8 8 W P hcall 7 0 e.startClear rfl ⟨rfl, rfl, rfl, rfl, rfl, rfl⟩
  rw [show 64 = 8 * (7 + 1) from rfl, this]
  rfl

/-! ## Every request at once -/

/-- The engine registers a request is accepted with; a target command is none. -/
def startOf : Instr → Engine → Engine
  | .init, e => e.startInit
  | .setpos p c, e => e.startSetpos p c
  | .write p c data, e => e.startWrite p c data
  | .drawglyph p c tag v, e => e.startDrawglyph p c tag v
  | .drawstr p c text, e => e.startDrawstr p c text
  | .drawicon p c icon, e => e.startDrawicon p c icon
  | .drawimg p c image, e => e.startDrawimg p c image
  | .clear, e => e.startClear
  | .setpage _, e | .setcollo _, e | .setcolhi _, e => e
  | .initAE, e | .init40, e | .initA1, e | .initC8, e | .initA4, e | .initA6, e | .initAF, e => e
  | .initD5 _, e | .initA8 _, e | .initD3 _, e | .init8D _, e | .init20 _, e => e
  | .initDA _, e | .init81 _, e | .initD9 _, e | .initDB _, e => e

/-- A request is its acceptance and a run of the sequencer. -/
theorem exec_request {i : Instr} {op : Op} (h : opOf i = some op) (s : State) :
    exec i s = s.request (startOf i s.eng) ∧ (startOf i s.eng).op = op ∧ (startOf i s.eng).phase ≠ .idle := by
  cases i <;> simp only [opOf, Option.some.injEq, reduceCtorEq] at h <;> subst h <;>
    exact ⟨rfl, rfl, by simp [startOf, Engine.startInit, Engine.startSetpos, Engine.startWrite,
      Engine.startDrawglyph, Engine.startDrawstr, Engine.startDrawicon, Engine.startDrawimg, Engine.startClear,
      Engine.callTile, Engine.callImageByte, Engine.callClearPage, Engine.callWrite]⟩

/-- A request of an idle engine is a run from its acceptance (R14). -/
theorem exec_idle {i : Instr} {op : Op} (h : opOf i = some op) {s : State} (hi : s.Idle) :
    exec i s = (s.accept (startOf i s.eng)).run := by
  rw [(exec_request h s).1, State.request, if_neg (by rw [hi]; decide)]

theorem chunkCount_le {n : Nat} (h : n ≤ 4095) : chunkCount n ≤ 128 := by
  simp only [chunkCount, chunkMax]
  omega

/-- The engine's moves of a request are the transactions the spec writes down for it (R11, R32). -/
theorem request_goes (font : List GlyphRow) {i : Instr} {op : Op} (h : opOf i = some op)
    (hwf : i.wellFormed = true) (e : Engine) :
    ∃ n, 0 < n ∧ n < 2 ^ runDepth ∧
      (startOf i e).goes font n = ((requestTxns font i).1, endOf (requestTxns font i).2) := by
  rw [two_pow_runDepth]
  cases i with
  | init => exact ⟨26, by omega, by omega, init_goes font e⟩
  | setpos p c => exact ⟨4, by omega, by omega, setpos_goes font e p c⟩
  | write p c data =>
    have hl : data.length ≤ 4095 := by simpa [Instr.wellFormed] using hwf
    by_cases hd : data = []
    · subst hd
      exact ⟨1, by omega, by omega, writeEmpty_goes font e p c⟩
    · refine ⟨callTicks data.length, by simp [callTicks], ?_, ?_⟩
      · have := chunkCount_le hl
        simp only [callTicks]
        omega
      · simpa [requestTxns, hd, endOf, startOf] using write_goes font e p c data hd
  | drawglyph p c tag v =>
    refine ⟨11, by omega, by omega, ?_⟩
    cases hr : glyphRow font (glyphSource tag.toNat v) with
    | none =>
      have := goes_more font (drawglyphBad_goes font e p c tag v hr) (by simp) 10
      simpa [requestTxns, hr, endOf, startOf] using this
    | some row => simpa [requestTxns, hr, endOf, startOf] using drawglyph_goes font e p c tag v hr
  | drawstr p c text =>
    have hl : text.length ≤ 4095 := by simpa [Instr.wellFormed] using hwf
    exact ⟨11 * text.length + 1, by omega, by omega, drawstr_goes font e p c text⟩
  | drawicon p c icon =>
    exact ⟨20, by omega, by omega, icon_goes font e p c icon (by simpa [Instr.wellFormed] using hwf)⟩
  | drawimg p c image =>
    exact ⟨1920, by omega, by omega, image_goes font e p c image (by simpa [Instr.wellFormed] using hwf)⟩
  | clear => exact ⟨64, by omega, by omega, clear_goes font e⟩
  | setpage | setcollo | setcolhi => simp [opOf] at h
  | initAE | init40 | initA1 | initC8 | initA4 | initA6 | initAF => simp [opOf] at h
  | initD5 | initA8 | initD3 | init8D | init20 | initDA | init81 | initD9 | initDB => simp [opOf] at h

end Sys2Proof.Machine
end

