-- ==== Sys2Proof/Laws/PerInstr.lean ====
section
/-!
SUPPORT. Per instruction: the word its encoding begins with lies in its own row of spec/opcode_table.json, whose
mask and match are the spec's (30_encoding.md R40, R41, R43).
-/

namespace Sys2Proof.Laws.Encoding

/-- The first word of the encoding of `i`, under the mask of the table's row for `i`, is that row's match. -/
def Statement (i : Instr) : Prop :=
  i.wellFormed = true → (encode i).head &&& i.row.mask = i.row.pattern

theorem head_row {h mask pattern : Header} (hb : h &&& mask = pattern) :
    h.toNat &&& mask.toNat = pattern.toNat := by
  rw [← BitVec.toNat_and, hb]

theorem init : Statement (.init) := by
  exact fun _ => rfl

theorem setpos (page column : Byte) : Statement (.setpos page column) := by
  exact fun _ => head_row (and_lenMask _ _ _ _)

theorem write (page column : Byte) (data : List Byte) : Statement (.write page column data) := by
  exact fun _ => head_row (and_opcMask _ _ _ _)

theorem drawglyph (page column : Byte) (tag : BitVec 12) (v : Byte) : Statement (.drawglyph page column tag v) := by
  exact fun _ => head_row (and_opcMask _ _ _ _)

theorem drawstr (page column : Byte) (text : List Byte) : Statement (.drawstr page column text) := by
  exact fun _ => head_row (and_opcMask _ _ _ _)

theorem drawicon (page column : Byte) (icon : List Byte) : Statement (.drawicon page column icon) := by
  exact fun _ => head_row (and_lenMask _ _ _ _)

theorem drawimg (page column : Byte) (image : List Byte) : Statement (.drawimg page column image) := by
  exact fun _ => head_row (and_lenMask _ _ _ _)

theorem clear : Statement (.clear) := by
  exact fun _ => rfl

theorem setpage (p : BitVec 3) : Statement (.setpage p) := by
  intro _; revert p; decide

theorem setcollo (l : BitVec 4) : Statement (.setcollo l) := by
  intro _; revert l; decide

theorem setcolhi (h : BitVec 4) : Statement (.setcolhi h) := by
  intro _; revert h; decide

theorem initAE : Statement (.initAE) := by
  exact fun _ => rfl

theorem initD5 (arg : Byte) : Statement (.initD5 arg) := by
  intro _
  show 0xD5 &&& 0xFF = 0xD5
  rfl

theorem initA8 (arg : Byte) : Statement (.initA8 arg) := by
  intro _
  show 0xA8 &&& 0xFF = 0xA8
  rfl

theorem initD3 (arg : Byte) : Statement (.initD3 arg) := by
  intro _
  show 0xD3 &&& 0xFF = 0xD3
  rfl

theorem init40 : Statement (.init40) := by
  exact fun _ => rfl

theorem init8D (arg : Byte) : Statement (.init8D arg) := by
  intro _
  show 0x8D &&& 0xFF = 0x8D
  rfl

theorem init20 (arg : Byte) : Statement (.init20 arg) := by
  intro _
  show 0x20 &&& 0xFF = 0x20
  rfl

theorem initA1 : Statement (.initA1) := by
  exact fun _ => rfl

theorem initC8 : Statement (.initC8) := by
  exact fun _ => rfl

theorem initDA (arg : Byte) : Statement (.initDA arg) := by
  intro _
  show 0xDA &&& 0xFF = 0xDA
  rfl

theorem init81 (arg : Byte) : Statement (.init81 arg) := by
  intro _
  show 0x81 &&& 0xFF = 0x81
  rfl

theorem initD9 (arg : Byte) : Statement (.initD9 arg) := by
  intro _
  show 0xD9 &&& 0xFF = 0xD9
  rfl

theorem initDB (arg : Byte) : Statement (.initDB arg) := by
  intro _
  show 0xDB &&& 0xFF = 0xDB
  rfl

theorem initA4 : Statement (.initA4) := by
  exact fun _ => rfl

theorem initA6 : Statement (.initA6) := by
  exact fun _ => rfl

theorem initAF : Statement (.initAF) := by
  exact fun _ => rfl

end Sys2Proof.Laws.Encoding
end

