-- ==== Sys2Proof/Laws/Sound.lean ====
section
/-!
SUPPORT. Everything a transaction can leave in the target keeps the target's state sound: the GDDRAM's canonical
form, and an awaited argument only of a command that takes one (10_state.md R17, R18).
-/

namespace Sys2Proof.Machine

theorem argCommandAt_mem : ∀ k, argCommandAt k ∈ argCommands := by decide

theorem dataByte_sound {d : Byte} {t t' : Target} (h : t.dataByte d = some t') (hs : t.Sound) : t'.Sound := by
  unfold Target.dataByte at h
  split at h <;> cases h
  have : (t.store d).Sound := ⟨write_wf d hs.1 (cellAddr_lt _ _), hs.2⟩
  unfold Target.bump
  split <;> exact this

theorem dataBytes_sound {bs : List Byte} {t t' : Target} (h : Target.dataBytes bs t = some t') (hs : t.Sound) :
    t'.Sound := by
  induction bs generalizing t with
  | nil => cases h; exact hs
  | cons d ds ih =>
    simp only [Target.dataBytes, Option.bind_eq_some_iff] at h
    obtain ⟨u, hu, h⟩ := h
    exact ih h (dataByte_sound hu hs)

theorem argument_sound (c v : Byte) {t : Target} (hs : t.Sound) : (t.argument c v).Sound :=
  ⟨hs.1, by simp [Target.argument]⟩

theorem await_sound {c : Byte} {t : Target} (hc : c ∈ argCommands) (hs : t.Sound) : (t.await c).Sound :=
  ⟨hs.1, by simpa [Target.await] using hc⟩

theorem cmd_sound {v : Byte} {t t' : Target} (h : t.cmd v = some t') (hs : t.Sound) : t'.Sound := by
  unfold Target.cmd at h
  split at h
  · cases h; exact argument_sound _ _ hs
  · unfold Target.decoded at h
    split_ifs at h with _ _ _ hc <;> cases h
    · exact hs
    · exact hs
    · exact hs
    · exact await_sound hc hs
    · exact hs

/-- An applied transaction keeps the target sound (R52 to R55, R80). -/
theorem apply_sound {x : Txn} {t t' : Target} (h : t.apply x = some t') (hs : t.Sound) : t'.Sound := by
  cases x with
  | cmd v => exact cmd_sound h hs
  | data bs => exact dataBytes_sound h hs

/-- A failed transaction keeps the target sound (R84). -/
theorem fail_sound (n : Nat) (op : Op) (x : Txn) {t : Target} (hs : t.Sound) : (t.fail n op x).Sound := by
  unfold Target.fail
  split
  · exact ⟨scramble_wf _ _ _ hs.1, hs.2⟩
  · split
    · refine ⟨hs.1, fun c hc => ?_⟩
      simp only [Target.failInit, Option.map_eq_some_iff] at hc
      obtain ⟨k, -, rfl⟩ := hc
      exact argCommandAt_mem k
    · exact hs

end Sys2Proof.Machine
end

