-- ==== Sys2Proof/Laws/State.lean ====
section
/-!
SUPPORT. What each named update leaves in each field, so that no proof unfolds a record update.
-/

namespace Sys2Proof.Machine

/-! ## Updates of the machine -/


@[simp] theorem State.issue_eng (x : Txn) (s : State) : (s.issue x).eng = s.eng := rfl
@[simp] theorem State.issue_status (x : Txn) (s : State) : (s.issue x).status = s.status := rfl
@[simp] theorem State.issue_tx (x : Txn) (s : State) : (s.issue x).tx = some x := rfl
@[simp] theorem State.issue_answered (x : Txn) (s : State) : (s.issue x).answered = s.answered := rfl
@[simp] theorem State.issue_codes (x : Txn) (s : State) : (s.issue x).codes = s.codes := rfl
@[simp] theorem State.issue_target (x : Txn) (s : State) : (s.issue x).target = s.target := rfl
@[simp] theorem State.issue_font (x : Txn) (s : State) : (s.issue x).font = s.font := rfl
@[simp] theorem State.issue_inputs (x : Txn) (s : State) : (s.issue x).inputs = s.inputs := rfl
@[simp] theorem State.issue_payloadPort (x : Txn) (s : State) : (s.issue x).payloadPort = s.payloadPort := rfl
@[simp] theorem State.issue_answers (x : Txn) (s : State) : (s.issue x).answers = s.answers := rfl
@[simp] theorem State.issue_draws (x : Txn) (s : State) : (s.issue x).draws = s.draws := rfl

@[simp] theorem State.answer_eng (x : Txn) (ok : Bool) (s : State) : (s.answer x ok).eng = s.eng := rfl
@[simp] theorem State.answer_status (x : Txn) (ok : Bool) (s : State) : (s.answer x ok).status = s.status := rfl
@[simp] theorem State.answer_tx (x : Txn) (ok : Bool) (s : State) : (s.answer x ok).tx = none := rfl
@[simp] theorem State.answer_answered (x : Txn) (ok : Bool) (s : State) :
    (s.answer x ok).answered = s.answered ++ [{ txn := x, ok := ok }] := rfl
@[simp] theorem State.answer_codes (x : Txn) (ok : Bool) (s : State) : (s.answer x ok).codes = s.codes := rfl
@[simp] theorem State.answer_target (x : Txn) (ok : Bool) (s : State) : (s.answer x ok).target = s.target := rfl
@[simp] theorem State.answer_font (x : Txn) (ok : Bool) (s : State) : (s.answer x ok).font = s.font := rfl
@[simp] theorem State.answer_inputs (x : Txn) (ok : Bool) (s : State) : (s.answer x ok).inputs = s.inputs := rfl
@[simp] theorem State.answer_payloadPort (x : Txn) (ok : Bool) (s : State) :
    (s.answer x ok).payloadPort = s.payloadPort := rfl
@[simp] theorem State.answer_answers (x : Txn) (ok : Bool) (s : State) : (s.answer x ok).answers = s.answers := rfl
@[simp] theorem State.answer_draws (x : Txn) (ok : Bool) (s : State) : (s.answer x ok).draws = s.draws := rfl

@[simp] theorem State.deliver_eng (x : Txn) (s : State) : (s.deliver x).eng = s.eng := rfl
@[simp] theorem State.deliver_status (x : Txn) (s : State) : (s.deliver x).status = s.status := rfl
@[simp] theorem State.deliver_tx (x : Txn) (s : State) : (s.deliver x).tx = s.tx := rfl
@[simp] theorem State.deliver_answered (x : Txn) (s : State) : (s.deliver x).answered = s.answered := rfl
@[simp] theorem State.deliver_codes (x : Txn) (s : State) : (s.deliver x).codes = s.codes := rfl
@[simp] theorem State.deliver_target (x : Txn) (s : State) :
    (s.deliver x).target = s.target.bind (Target.apply x) := rfl
@[simp] theorem State.deliver_font (x : Txn) (s : State) : (s.deliver x).font = s.font := rfl
@[simp] theorem State.deliver_inputs (x : Txn) (s : State) : (s.deliver x).inputs = s.inputs := rfl
@[simp] theorem State.deliver_payloadPort (x : Txn) (s : State) : (s.deliver x).payloadPort = s.payloadPort := rfl
@[simp] theorem State.deliver_answers (x : Txn) (s : State) : (s.deliver x).answers = s.answers := rfl
@[simp] theorem State.deliver_draws (x : Txn) (s : State) : (s.deliver x).draws = s.draws := rfl

@[simp] theorem State.deliverFailed_eng (x : Txn) (s : State) : (s.deliverFailed x).eng = s.eng := rfl
@[simp] theorem State.deliverFailed_status (x : Txn) (s : State) : (s.deliverFailed x).status = s.status := rfl
@[simp] theorem State.deliverFailed_tx (x : Txn) (s : State) : (s.deliverFailed x).tx = s.tx := rfl
@[simp] theorem State.deliverFailed_answered (x : Txn) (s : State) :
    (s.deliverFailed x).answered = s.answered := rfl
@[simp] theorem State.deliverFailed_codes (x : Txn) (s : State) : (s.deliverFailed x).codes = s.codes := rfl
@[simp] theorem State.deliverFailed_target (x : Txn) (s : State) :
    (s.deliverFailed x).target = s.target.map (Target.fail s.draws s.eng.op x) := rfl
@[simp] theorem State.deliverFailed_font (x : Txn) (s : State) : (s.deliverFailed x).font = s.font := rfl
@[simp] theorem State.deliverFailed_inputs (x : Txn) (s : State) : (s.deliverFailed x).inputs = s.inputs := rfl
@[simp] theorem State.deliverFailed_payloadPort (x : Txn) (s : State) :
    (s.deliverFailed x).payloadPort = s.payloadPort := rfl
@[simp] theorem State.deliverFailed_answers (x : Txn) (s : State) : (s.deliverFailed x).answers = s.answers := rfl
@[simp] theorem State.deliverFailed_draws (x : Txn) (s : State) : (s.deliverFailed x).draws = s.draws + 1 := rfl

@[simp] theorem State.receive_eng (v : Byte) (s : State) : (s.receive v).eng = s.eng := rfl
@[simp] theorem State.receive_status (v : Byte) (s : State) : (s.receive v).status = s.status := rfl
@[simp] theorem State.receive_tx (v : Byte) (s : State) : (s.receive v).tx = s.tx := rfl
@[simp] theorem State.receive_answered (v : Byte) (s : State) : (s.receive v).answered = s.answered := rfl
@[simp] theorem State.receive_codes (v : Byte) (s : State) : (s.receive v).codes = s.codes := rfl
@[simp] theorem State.receive_target (v : Byte) (s : State) :
    (s.receive v).target = s.target.bind (Target.cmd v) := rfl
@[simp] theorem State.receive_font (v : Byte) (s : State) : (s.receive v).font = s.font := rfl
@[simp] theorem State.receive_inputs (v : Byte) (s : State) : (s.receive v).inputs = s.inputs := rfl
@[simp] theorem State.receive_payloadPort (v : Byte) (s : State) : (s.receive v).payloadPort = s.payloadPort := rfl
@[simp] theorem State.receive_answers (v : Byte) (s : State) : (s.receive v).answers = s.answers := rfl
@[simp] theorem State.receive_draws (v : Byte) (s : State) : (s.receive v).draws = s.draws := rfl

@[simp] theorem State.accept_eng (e : Engine) (s : State) : (s.accept e).eng = e := rfl
@[simp] theorem State.accept_status (e : Engine) (s : State) : (s.accept e).status = Status.accepted := rfl
@[simp] theorem State.accept_tx (e : Engine) (s : State) : (s.accept e).tx = s.tx := rfl
@[simp] theorem State.accept_answered (e : Engine) (s : State) : (s.accept e).answered = s.answered := rfl
@[simp] theorem State.accept_codes (e : Engine) (s : State) : (s.accept e).codes = s.codes := rfl
@[simp] theorem State.accept_target (e : Engine) (s : State) : (s.accept e).target = s.target := rfl
@[simp] theorem State.accept_font (e : Engine) (s : State) : (s.accept e).font = s.font := rfl
@[simp] theorem State.accept_inputs (e : Engine) (s : State) : (s.accept e).inputs = s.inputs := rfl
@[simp] theorem State.accept_payloadPort (e : Engine) (s : State) : (s.accept e).payloadPort = s.payloadPort := rfl
@[simp] theorem State.accept_answers (e : Engine) (s : State) : (s.accept e).answers = s.answers := rfl
@[simp] theorem State.accept_draws (e : Engine) (s : State) : (s.accept e).draws = s.draws := rfl

@[simp] theorem State.finish_eng (err : Err) (s : State) :
    (s.finish err).eng = { s.eng with phase := .idle, payload := [] } := rfl
@[simp] theorem State.finish_status (err : Err) (s : State) : (s.finish err).status = Status.ended err := rfl
@[simp] theorem State.finish_tx (err : Err) (s : State) : (s.finish err).tx = none := rfl
@[simp] theorem State.finish_answered (err : Err) (s : State) : (s.finish err).answered = s.answered := rfl
@[simp] theorem State.finish_codes (err : Err) (s : State) : (s.finish err).codes = s.codes ++ [err] := rfl
@[simp] theorem State.finish_target (err : Err) (s : State) : (s.finish err).target = s.target := rfl
@[simp] theorem State.finish_font (err : Err) (s : State) : (s.finish err).font = s.font := rfl
@[simp] theorem State.finish_inputs (err : Err) (s : State) : (s.finish err).inputs = s.inputs := rfl
@[simp] theorem State.finish_payloadPort (err : Err) (s : State) : (s.finish err).payloadPort = s.payloadPort := rfl
@[simp] theorem State.finish_answers (err : Err) (s : State) : (s.finish err).answers = s.answers := rfl
@[simp] theorem State.finish_draws (err : Err) (s : State) : (s.finish err).draws = s.draws := rfl

@[simp] theorem State.command_eng (v : Byte) (eff : Target → Target) (s : State) :
    (s.command v eff).eng = s.eng := rfl
@[simp] theorem State.command_status (v : Byte) (eff : Target → Target) (s : State) :
    (s.command v eff).status = s.status := rfl
@[simp] theorem State.command_tx (v : Byte) (eff : Target → Target) (s : State) : (s.command v eff).tx = s.tx := rfl
@[simp] theorem State.command_answered (v : Byte) (eff : Target → Target) (s : State) :
    (s.command v eff).answered = s.answered := rfl
@[simp] theorem State.command_codes (v : Byte) (eff : Target → Target) (s : State) :
    (s.command v eff).codes = s.codes := rfl
@[simp] theorem State.command_font (v : Byte) (eff : Target → Target) (s : State) :
    (s.command v eff).font = s.font := rfl
@[simp] theorem State.command_inputs (v : Byte) (eff : Target → Target) (s : State) :
    (s.command v eff).inputs = s.inputs := rfl
@[simp] theorem State.command_payloadPort (v : Byte) (eff : Target → Target) (s : State) :
    (s.command v eff).payloadPort = s.payloadPort := rfl
@[simp] theorem State.command_answers (v : Byte) (eff : Target → Target) (s : State) :
    (s.command v eff).answers = s.answers := rfl
@[simp] theorem State.command_draws (v : Byte) (eff : Target → Target) (s : State) :
    (s.command v eff).draws = s.draws := rfl

@[simp] theorem State.command2_eng (c arg : Byte) (s : State) : (s.command2 c arg).eng = s.eng := rfl
@[simp] theorem State.command2_status (c arg : Byte) (s : State) : (s.command2 c arg).status = s.status := rfl
@[simp] theorem State.command2_tx (c arg : Byte) (s : State) : (s.command2 c arg).tx = s.tx := rfl
@[simp] theorem State.command2_answered (c arg : Byte) (s : State) : (s.command2 c arg).answered = s.answered := rfl
@[simp] theorem State.command2_codes (c arg : Byte) (s : State) : (s.command2 c arg).codes = s.codes := rfl
@[simp] theorem State.command2_font (c arg : Byte) (s : State) : (s.command2 c arg).font = s.font := rfl
@[simp] theorem State.command2_inputs (c arg : Byte) (s : State) : (s.command2 c arg).inputs = s.inputs := rfl
@[simp] theorem State.command2_payloadPort (c arg : Byte) (s : State) :
    (s.command2 c arg).payloadPort = s.payloadPort := rfl
@[simp] theorem State.command2_answers (c arg : Byte) (s : State) : (s.command2 c arg).answers = s.answers := rfl
@[simp] theorem State.command2_draws (c arg : Byte) (s : State) : (s.command2 c arg).draws = s.draws := rfl

@[simp] theorem State.illegalRequest_eng (s : State) :
    (s.illegalRequest).eng = { s.eng with phase := .idle, payload := [] } := rfl
@[simp] theorem State.illegalRequest_status (s : State) :
    (s.illegalRequest).status = Status.ended .illegalRequest := rfl
@[simp] theorem State.illegalRequest_tx (s : State) : (s.illegalRequest).tx = none := rfl
@[simp] theorem State.illegalRequest_answered (s : State) : (s.illegalRequest).answered = s.answered := rfl
@[simp] theorem State.illegalRequest_codes (s : State) :
    (s.illegalRequest).codes = s.codes ++ [.illegalRequest] := rfl
@[simp] theorem State.illegalRequest_target (s : State) : (s.illegalRequest).target = s.target := rfl
@[simp] theorem State.illegalRequest_font (s : State) : (s.illegalRequest).font = s.font := rfl
@[simp] theorem State.illegalRequest_inputs (s : State) : (s.illegalRequest).inputs = s.inputs := rfl
@[simp] theorem State.illegalRequest_payloadPort (s : State) : (s.illegalRequest).payloadPort = s.payloadPort := rfl
@[simp] theorem State.illegalRequest_answers (s : State) : (s.illegalRequest).answers = s.answers := rfl
@[simp] theorem State.illegalRequest_draws (s : State) : (s.illegalRequest).draws = s.draws := rfl

@[simp] theorem State.targetPowerOn_eng (s : State) : (s.targetPowerOn).eng = s.eng := rfl
@[simp] theorem State.targetPowerOn_status (s : State) : (s.targetPowerOn).status = s.status := rfl
@[simp] theorem State.targetPowerOn_tx (s : State) : (s.targetPowerOn).tx = s.tx := rfl
@[simp] theorem State.targetPowerOn_answered (s : State) : (s.targetPowerOn).answered = s.answered := rfl
@[simp] theorem State.targetPowerOn_codes (s : State) : (s.targetPowerOn).codes = s.codes := rfl
@[simp] theorem State.targetPowerOn_font (s : State) : (s.targetPowerOn).font = s.font := rfl
@[simp] theorem State.targetPowerOn_inputs (s : State) : (s.targetPowerOn).inputs = s.inputs := rfl
@[simp] theorem State.targetPowerOn_payloadPort (s : State) : (s.targetPowerOn).payloadPort = s.payloadPort := rfl
@[simp] theorem State.targetPowerOn_answers (s : State) : (s.targetPowerOn).answers = s.answers := rfl
@[simp] theorem State.targetPowerOn_draws (s : State) : (s.targetPowerOn).draws = s.draws + 1 := rfl

@[simp] theorem State.engineReset_eng (s : State) : (s.engineReset).eng = Engine.reset := rfl
@[simp] theorem State.engineReset_status (s : State) :
    (s.engineReset).status = { busy := false, err := .none } := rfl
@[simp] theorem State.engineReset_tx (s : State) : (s.engineReset).tx = none := rfl
@[simp] theorem State.engineReset_answered (s : State) : (s.engineReset).answered = [] := rfl
@[simp] theorem State.engineReset_codes (s : State) : (s.engineReset).codes = [] := rfl

/-- A reset's effect on a transaction in flight reaches the target and the counter of free values only. -/
theorem State.settleInFlight_frame (s : State) :
    s.settleInFlight = { s with target := s.settleInFlight.target, draws := s.settleInFlight.draws } := by
  unfold State.settleInFlight
  split
  · rfl
  · split <;> rfl

@[simp] theorem State.engineReset_font (s : State) : s.engineReset.font = s.font := by
  simp only [State.engineReset]; rw [State.settleInFlight_frame]
@[simp] theorem State.engineReset_inputs (s : State) : s.engineReset.inputs = s.inputs := by
  simp only [State.engineReset]; rw [State.settleInFlight_frame]
@[simp] theorem State.engineReset_payloadPort (s : State) : s.engineReset.payloadPort = s.payloadPort := by
  simp only [State.engineReset]; rw [State.settleInFlight_frame]
@[simp] theorem State.engineReset_answers (s : State) : s.engineReset.answers = s.answers := by
  simp only [State.engineReset]; rw [State.settleInFlight_frame]

/-- Issuing appends the transaction to the trace, with no answer yet (R9, R21). -/
theorem State.trace_issue {s : State} (h : s.tx = none) (x : Txn) : (s.issue x).trace = s.trace ++ [(x, none)] := by
  simp [State.trace, State.issue, h]

/-- The answer goes to the entry of the transaction issued (R21). -/
theorem State.trace_answer (x : Txn) (ok : Bool) (s : State) :
    (s.answer x ok).trace = s.answered.map (fun en => (en.txn, some en.ok)) ++ [(x, some ok)] := by
  simp [State.trace, State.answer]

@[simp] theorem State.complete_eq (s : State) : s.complete = s.finish .none := rfl
@[simp] theorem State.raise_eq (err : Err) (s : State) : s.raise err = s.finish err := rfl

/-- Bytes put back change the inputs only. -/
theorem State.putBack_frame (more : List Byte) (s : State) :
    s.putBack more = { s with inputs := if more = [] then s.inputs else .command more :: s.inputs } := by
  cases more <;> rfl

@[simp] theorem State.putBack_eng (more : List Byte) (s : State) : (s.putBack more).eng = s.eng := by
  cases more <;> rfl
@[simp] theorem State.putBack_status (more : List Byte) (s : State) : (s.putBack more).status = s.status := by
  cases more <;> rfl
@[simp] theorem State.putBack_tx (more : List Byte) (s : State) : (s.putBack more).tx = s.tx := by
  cases more <;> rfl
@[simp] theorem State.putBack_answered (more : List Byte) (s : State) : (s.putBack more).answered = s.answered := by
  cases more <;> rfl
@[simp] theorem State.putBack_codes (more : List Byte) (s : State) : (s.putBack more).codes = s.codes := by
  cases more <;> rfl
@[simp] theorem State.putBack_target (more : List Byte) (s : State) : (s.putBack more).target = s.target := by
  cases more <;> rfl
@[simp] theorem State.putBack_font (more : List Byte) (s : State) : (s.putBack more).font = s.font := by
  cases more <;> rfl
@[simp] theorem State.putBack_payloadPort (more : List Byte) (s : State) : (s.putBack more).payloadPort = s.payloadPort := by
  cases more <;> rfl
@[simp] theorem State.putBack_answers (more : List Byte) (s : State) : (s.putBack more).answers = s.answers := by
  cases more <;> rfl
@[simp] theorem State.putBack_draws (more : List Byte) (s : State) : (s.putBack more).draws = s.draws := by
  cases more <;> rfl

/-! ## Updates of the target -/


@[simp] theorem Target.setPage_page (p : BitVec 3) (t : Target) : (t.setPage p).page = p := rfl
@[simp] theorem Target.setPage_col (p : BitVec 3) (t : Target) : (t.setPage p).col = t.col := rfl
@[simp] theorem Target.setPage_mode (p : BitVec 3) (t : Target) : (t.setPage p).mode = t.mode := rfl
@[simp] theorem Target.setPage_pend (p : BitVec 3) (t : Target) : (t.setPage p).pend = t.pend := rfl
@[simp] theorem Target.setPage_power (p : BitVec 3) (t : Target) : (t.setPage p).power = t.power := rfl
@[simp] theorem Target.setPage_g (p : BitVec 3) (t : Target) : (t.setPage p).g = t.g := rfl

@[simp] theorem Target.setColLo_page (l : BitVec 4) (t : Target) : (t.setColLo l).page = t.page := rfl
@[simp] theorem Target.setColLo_col (l : BitVec 4) (t : Target) :
    (t.setColLo l).col = t.col.extractLsb' 4 3 ++ l := rfl
@[simp] theorem Target.setColLo_mode (l : BitVec 4) (t : Target) : (t.setColLo l).mode = t.mode := rfl
@[simp] theorem Target.setColLo_pend (l : BitVec 4) (t : Target) : (t.setColLo l).pend = t.pend := rfl
@[simp] theorem Target.setColLo_power (l : BitVec 4) (t : Target) : (t.setColLo l).power = t.power := rfl
@[simp] theorem Target.setColLo_g (l : BitVec 4) (t : Target) : (t.setColLo l).g = t.g := rfl

@[simp] theorem Target.setColHi_page (h : BitVec 4) (t : Target) : (t.setColHi h).page = t.page := rfl
@[simp] theorem Target.setColHi_col (h : BitVec 4) (t : Target) :
    (t.setColHi h).col = h.extractLsb' 0 3 ++ t.col.extractLsb' 0 4 := rfl
@[simp] theorem Target.setColHi_mode (h : BitVec 4) (t : Target) : (t.setColHi h).mode = t.mode := rfl
@[simp] theorem Target.setColHi_pend (h : BitVec 4) (t : Target) : (t.setColHi h).pend = t.pend := rfl
@[simp] theorem Target.setColHi_power (h : BitVec 4) (t : Target) : (t.setColHi h).power = t.power := rfl
@[simp] theorem Target.setColHi_g (h : BitVec 4) (t : Target) : (t.setColHi h).g = t.g := rfl

@[simp] theorem Target.await_page (c : Byte) (t : Target) : (t.await c).page = t.page := rfl
@[simp] theorem Target.await_col (c : Byte) (t : Target) : (t.await c).col = t.col := rfl
@[simp] theorem Target.await_mode (c : Byte) (t : Target) : (t.await c).mode = t.mode := rfl
@[simp] theorem Target.await_pend (c : Byte) (t : Target) : (t.await c).pend = some c := rfl
@[simp] theorem Target.await_power (c : Byte) (t : Target) : (t.await c).power = t.power := rfl
@[simp] theorem Target.await_g (c : Byte) (t : Target) : (t.await c).g = t.g := rfl

@[simp] theorem Target.argument_page (c v : Byte) (t : Target) : (t.argument c v).page = t.page := rfl
@[simp] theorem Target.argument_col (c v : Byte) (t : Target) : (t.argument c v).col = t.col := rfl
@[simp] theorem Target.argument_pend (c v : Byte) (t : Target) : (t.argument c v).pend = none := rfl
@[simp] theorem Target.argument_power (c v : Byte) (t : Target) : (t.argument c v).power = t.power := rfl
@[simp] theorem Target.argument_g (c v : Byte) (t : Target) : (t.argument c v).g = t.g := rfl
@[simp] theorem Target.argument_mode (c v : Byte) (t : Target) :
    (t.argument c v).mode = if c = 0x20#8 then (if v = 0x00#8 then .horiz else .other) else t.mode := rfl

@[simp] theorem Target.store_page (d : Byte) (t : Target) : (t.store d).page = t.page := rfl
@[simp] theorem Target.store_col (d : Byte) (t : Target) : (t.store d).col = t.col := rfl
@[simp] theorem Target.store_mode (d : Byte) (t : Target) : (t.store d).mode = t.mode := rfl
@[simp] theorem Target.store_pend (d : Byte) (t : Target) : (t.store d).pend = t.pend := rfl
@[simp] theorem Target.store_power (d : Byte) (t : Target) : (t.store d).power = t.power := rfl
@[simp] theorem Target.store_g (d : Byte) (t : Target) :
    (t.store d).g = Memory.write t.g (cellAddr t.page t.col) d := rfl

@[simp] theorem Target.loseCursor_page (n : Nat) (t : Target) : (t.loseCursor n).page = Config.freePage n := rfl
@[simp] theorem Target.loseCursor_col (n : Nat) (t : Target) : (t.loseCursor n).col = Config.freeCol n := rfl
@[simp] theorem Target.loseCursor_mode (n : Nat) (t : Target) : (t.loseCursor n).mode = t.mode := rfl
@[simp] theorem Target.loseCursor_pend (n : Nat) (t : Target) : (t.loseCursor n).pend = t.pend := rfl
@[simp] theorem Target.loseCursor_power (n : Nat) (t : Target) : (t.loseCursor n).power = t.power := rfl
@[simp] theorem Target.loseCursor_g (n : Nat) (t : Target) : (t.loseCursor n).g = t.g := rfl

@[simp] theorem Target.failInit_page (n : Nat) (t : Target) : (t.failInit n).page = Config.freePage n := rfl
@[simp] theorem Target.failInit_col (n : Nat) (t : Target) : (t.failInit n).col = Config.freeCol n := rfl
@[simp] theorem Target.failInit_mode (n : Nat) (t : Target) : (t.failInit n).mode = .uninit := rfl
@[simp] theorem Target.failInit_pend (n : Nat) (t : Target) :
    (t.failInit n).pend = (Config.freePend n).map argCommandAt := rfl
@[simp] theorem Target.failInit_power (n : Nat) (t : Target) : (t.failInit n).power = t.power := rfl
@[simp] theorem Target.failInit_g (n : Nat) (t : Target) : (t.failInit n).g = t.g := rfl

@[simp] theorem Target.bump_mode (t : Target) : t.bump.mode = t.mode := by
  unfold Target.bump; split <;> rfl
@[simp] theorem Target.bump_pend (t : Target) : t.bump.pend = t.pend := by
  unfold Target.bump; split <;> rfl
@[simp] theorem Target.bump_power (t : Target) : t.bump.power = t.power := by
  unfold Target.bump; split <;> rfl
@[simp] theorem Target.bump_g (t : Target) : t.bump.g = t.g := by
  unfold Target.bump; split <;> rfl

end Sys2Proof.Machine
end

