-- ==== Sys2Proof/Laws/Target.lean ====
section
/-!
SUPPORT. The target's step function, one lemma per operation: the three addressing bytes set the cursor
(41_addressing_engine.md R56), and a block write in horizontal mode stores its bytes at successive cells and
leaves the cursor behind the last (R55).
-/

namespace Sys2Proof.Machine

theorem applyAll_append (xs ys : List Txn) (t : Target) :
    Target.applyAll (xs ++ ys) t = (Target.applyAll xs t).bind (Target.applyAll ys) := by
  induction xs generalizing t with
  | nil => rfl
  | cons x xs ih =>
    simp only [Target.applyAll, List.cons_append]
    cases t.apply x with
    | none => rfl
    | some t' => simpa using ih t'

/-! ## Addressing bytes -/

theorem pageByte_eq (page : Nat) : pageByte page = setPageByte (BitVec.ofNat 3 page) := by
  have h : ∀ k : Fin 8, 0xB0#8 ||| BitVec.ofNat 8 k.val = setPageByte (BitVec.ofNat 3 k.val) := by decide
  have h1 : page &&& 0x07 = page % 8 := Nat.and_two_pow_sub_one_eq_mod page 3
  have h2 : BitVec.ofNat 3 page = BitVec.ofNat 3 (page % 8) := by
    apply BitVec.eq_of_toNat_eq; simp
  rw [pageByte, h1, h2]
  exact h ⟨page % 8, Nat.mod_lt _ (by decide)⟩

theorem colLoByte_eq (column : Nat) : colLoByte column = setColLoByte (BitVec.ofNat 4 column) := by
  have h : ∀ k : Fin 16, 0x00#8 ||| BitVec.ofNat 8 k.val = setColLoByte (BitVec.ofNat 4 k.val) := by decide
  have h1 : column &&& 0x0F = column % 16 := Nat.and_two_pow_sub_one_eq_mod column 4
  have h2 : BitVec.ofNat 4 column = BitVec.ofNat 4 (column % 16) := by
    apply BitVec.eq_of_toNat_eq; simp
  rw [colLoByte, h1, h2]
  exact h ⟨column % 16, Nat.mod_lt _ (by decide)⟩

theorem colHiByte_eq (column : Nat) : colHiByte column = setColHiByte (BitVec.ofNat 4 (column / 16)) := by
  have h : ∀ k : Fin 16, 0x10#8 ||| BitVec.ofNat 8 k.val = setColHiByte (BitVec.ofNat 4 k.val) := by decide
  have h1 : (column >>> 4) &&& 0x0F = column / 16 % 16 := by
    rw [Nat.shiftRight_eq_div_pow]; exact Nat.and_two_pow_sub_one_eq_mod (column / 16) 4
  have h2 : BitVec.ofNat 4 (column / 16) = BitVec.ofNat 4 (column / 16 % 16) := by
    apply BitVec.eq_of_toNat_eq; simp
  rw [colHiByte, h1, h2]
  exact h ⟨column / 16 % 16, Nat.mod_lt _ (by decide)⟩

theorem decoded_setPageByte (p : BitVec 3) (t : Target) : t.decoded (setPageByte p) = some (t.setPage p) := by
  have h : ∀ p : BitVec 3, setPageByte p &&& 0xF8#8 = 0xB0#8 ∧ (setPageByte p).extractLsb' 0 3 = p := by decide
  simp [Target.decoded, h p]

theorem decoded_setColLoByte (l : BitVec 4) (t : Target) :
    t.decoded (setColLoByte l) = some (t.setColLo l) := by
  have h : ∀ l : BitVec 4, ¬ setColLoByte l &&& 0xF8#8 = 0xB0#8 ∧ setColLoByte l &&& 0xF0#8 = 0x00#8 ∧
      (setColLoByte l).extractLsb' 0 4 = l := by decide
  simp [Target.decoded, h l]

theorem decoded_setColHiByte (l : BitVec 4) (t : Target) :
    t.decoded (setColHiByte l) = some (t.setColHi l) := by
  have h : ∀ l : BitVec 4, ¬ setColHiByte l &&& 0xF8#8 = 0xB0#8 ∧ ¬ setColHiByte l &&& 0xF0#8 = 0x00#8 ∧
      setColHiByte l &&& 0xF0#8 = 0x10#8 ∧ (setColHiByte l).extractLsb' 0 4 = l := by decide
  simp [Target.decoded, h l]

/-- The column that the two column commands leave: the operand, in 7 bits. -/
theorem column_joined (column : Nat) (c : BitVec 7) :
    ((BitVec.ofNat 4 (column / 16)).extractLsb' 0 3 ++
      (c.extractLsb' 4 3 ++ BitVec.ofNat 4 column : BitVec 7).extractLsb' 0 4 : BitVec 7) =
      BitVec.ofNat 7 column := by
  have h1 : (c.extractLsb' 4 3 ++ BitVec.ofNat 4 column : BitVec 7).extractLsb' 0 4 = BitVec.ofNat 4 column :=
    BitVec.extractLsb'_append_eq_right
  rw [h1]
  apply BitVec.eq_of_toNat_eq
  rw [BitVec.toNat_append, BitVec.extractLsb'_toNat, BitVec.toNat_ofNat, BitVec.toNat_ofNat, BitVec.toNat_ofNat,
    ← Nat.shiftLeft_add_eq_or_of_lt (Nat.mod_lt _ (by decide)), Nat.shiftLeft_eq, Nat.shiftRight_zero]
  omega

/-- The three addressing bytes set the cursor to the masked operands and nothing else. -/
theorem applyAll_setPos (page column : Nat) {t : Target} (h : t.pend = none) (xs : List Txn) :
    Target.applyAll (.cmd (pageByte page) :: .cmd (colLoByte column) :: .cmd (colHiByte column) :: xs) t =
      Target.applyAll xs { t with page := BitVec.ofNat 3 page, col := BitVec.ofNat 7 column } := by
  simp only [Target.applyAll, Target.apply, Target.cmd, h, pageByte_eq, colLoByte_eq, colHiByte_eq,
    decoded_setPageByte, decoded_setColLoByte, decoded_setColHiByte, Target.setPage, Target.setColLo,
    Target.setColHi, Option.bind_some, column_joined]

/-! ## Streams -/

/-- A cursor by its cell's address. -/
def Target.at (a : Nat) (t : Target) : Target :=
  { t with page := BitVec.ofNat 3 (a / 128), col := BitVec.ofNat 7 a }

/-- Bytes stored at successive cells, from address `a` on, page 0 after page 7. -/
def Memory.writeFrom : Memory → Nat → List Byte → Memory
  | m, _, [] => m
  | m, a, b :: bs => Memory.writeFrom (m.write (a % 1024) b) (a + 1) bs

theorem at_cellAddr (t : Target) : t.at (cellAddr t.page t.col) = t := by
  have h1 : BitVec.ofNat 3 (cellAddr t.page t.col / 128) = t.page := by
    apply BitVec.eq_of_toNat_eq
    have := t.page.isLt
    have := t.col.isLt
    simp only [BitVec.toNat_ofNat, cellAddr, nCols]
    omega
  have h2 : BitVec.ofNat 7 (cellAddr t.page t.col) = t.col := by
    apply BitVec.eq_of_toNat_eq
    have := t.page.isLt
    have := t.col.isLt
    simp only [BitVec.toNat_ofNat, cellAddr, nCols]
    omega
  simp only [Target.at, h1, h2]

theorem at_posAddr (t : Target) (page column : Nat) :
    t.at (posAddr page column) = { t with page := BitVec.ofNat 3 page, col := BitVec.ofNat 7 column } := by
  have h1 : BitVec.ofNat 3 (posAddr page column / 128) = BitVec.ofNat 3 page := by
    apply BitVec.eq_of_toNat_eq
    simp only [BitVec.toNat_ofNat, posAddr, nCols]
    omega
  have h2 : BitVec.ofNat 7 (posAddr page column) = BitVec.ofNat 7 column := by
    apply BitVec.eq_of_toNat_eq
    simp only [BitVec.toNat_ofNat, posAddr, nCols]
    omega
  simp only [Target.at, h1, h2]

theorem cellAddr_at (t : Target) (a : Nat) : cellAddr (t.at a).page (t.at a).col = a % 1024 := by
  simp only [Target.at, cellAddr, nCols, BitVec.toNat_ofNat]
  omega

theorem bump_at (t : Target) (a : Nat) : (t.at a).bump = t.at (a + 1) := by
  have hc : (BitVec.ofNat 7 a = 127#7) ↔ a % 128 = 127 := by
    rw [← BitVec.toNat_inj]; simp
  simp only [Target.bump, Target.at, hc]
  split
  · rename_i h
    have h1 : BitVec.ofNat 3 (a / 128) + 1#3 = BitVec.ofNat 3 ((a + 1) / 128) := by
      apply BitVec.eq_of_toNat_eq
      simp only [BitVec.toNat_add, BitVec.toNat_ofNat]
      omega
    have h2 : 0#7 = BitVec.ofNat 7 (a + 1) := by
      apply BitVec.eq_of_toNat_eq
      simp only [BitVec.toNat_ofNat]
      omega
    rw [h1, h2]
  · rename_i h
    have h1 : BitVec.ofNat 3 (a / 128) = BitVec.ofNat 3 ((a + 1) / 128) := by
      apply BitVec.eq_of_toNat_eq
      simp only [BitVec.toNat_ofNat]
      omega
    have h2 : BitVec.ofNat 7 a + 1#7 = BitVec.ofNat 7 (a + 1) := by
      apply BitVec.eq_of_toNat_eq
      simp only [BitVec.toNat_add, BitVec.toNat_ofNat]
      omega
    rw [h1, h2]

/-- A block write in horizontal mode, from the cell of address `a`. -/
theorem dataBytes_at (bs : List Byte) (a : Nat) {t : Target} (h : t.mode = .horiz) :
    Target.dataBytes bs (t.at a) = some { t.at (a + bs.length) with g := t.g.writeFrom a bs } := by
  induction bs generalizing a t with
  | nil => rfl
  | cons b bs ih =>
    have hm : (t.at a).mode = .horiz := h
    have hs : ((t.at a).store b).bump = Target.at (a + 1) { t with g := t.g.write (a % 1024) b } := by
      have : (t.at a).store b = Target.at a { t with g := t.g.write (a % 1024) b } := by
        simp only [Target.store, cellAddr_at]; rfl
      rw [this, bump_at]
    simp only [Target.dataBytes, Target.dataByte, hm, if_true, Option.bind_some, hs]
    have := ih (a + 1) (t := { t with g := t.g.write (a % 1024) b }) h
    rw [this]
    simp [Memory.writeFrom, Target.at, Nat.add_assoc, Nat.add_comm 1]

/-- A cell that no byte of the run reaches keeps its value. -/
theorem writeFrom_other (bs : List Byte) (a : Nat) (m : Memory) {j : Nat}
    (h : ∀ k < bs.length, (a + k) % 1024 ≠ j) : (m.writeFrom a bs).read j = m.read j := by
  induction bs generalizing a m with
  | nil => rfl
  | cons b bs ih =>
    simp only [Memory.writeFrom]
    rw [ih (a + 1) _ (fun k hk => by have := h (k + 1) (by simpa using hk); rwa [Nat.add_assoc, Nat.add_comm 1]),
      read_write_other _ _ (by simpa using (h 0 (by simp)).symm)]

/-- A cell holds the last byte of the run that reaches it. -/
theorem writeFrom_last (bs : List Byte) (a : Nat) (m : Memory) {j k : Nat} (hk : k < bs.length)
    (hj : (a + k) % 1024 = j) (hlast : ∀ i, k < i → i < bs.length → (a + i) % 1024 ≠ j) :
    (m.writeFrom a bs).read j = some bs[k] := by
  induction bs generalizing a m k with
  | nil => simp at hk
  | cons b bs ih =>
    simp only [Memory.writeFrom]
    cases k with
    | zero =>
      rw [writeFrom_other bs (a + 1) _ (fun i hi => by
        have := hlast (i + 1) (by omega) (by simpa using hi)
        rwa [Nat.add_assoc, Nat.add_comm 1])]
      simp only [Nat.add_zero] at hj
      simp [← hj]
    | succ k =>
      simp only [List.length_cons, Nat.add_lt_add_iff_right] at hk
      rw [ih (a + 1) _ hk (by rw [← hj]; congr 1; omega) (fun i hi hl => by
        have := hlast (i + 1) (by omega) (by simpa using hl)
        rwa [Nat.add_assoc, Nat.add_comm 1])]
      simp

/-- Cutting a run anywhere gives the same memory (R70: the chunking is invisible). -/
theorem writeFrom_append (bs cs : List Byte) (a : Nat) (m : Memory) :
    m.writeFrom a (bs ++ cs) = (m.writeFrom a bs).writeFrom (a + bs.length) cs := by
  induction bs generalizing a m with
  | nil => rfl
  | cons b bs ih => simp [Memory.writeFrom, ih, Nat.add_assoc, Nat.add_comm 1]

end Sys2Proof.Machine
end

