-- ==== Sys2Proof/Tests/Slice0.lean ====
section
/-!
SUPPORT. The model's own tests. Expected results are those of 95_test_vectors.md, or worked out by hand from
the encoding tables of 30_encoding.md; each test names its source. At the end, for every statement with
hypotheses, a concrete state and operands that meet them.
-/

open Sys2Proof Sys2Proof.Machine

namespace Slice0

/-! ## Small states -/

/-- 95_test_vectors.md: a font of 0x22 entries whose only lit one is `'A'`. -/
def fontA : List GlyphRow :=
  List.replicate 0x21 #v[0#8, 0#8, 0#8, 0#8, 0#8] ++ [#v[0x7E#8, 0x11#8, 0x11#8, 0x11#8, 0x7E#8]]

/-- The upper half of the expanded `'A'` (95_test_vectors.md S3). -/
def u : List Byte := [0xFC#8, 0xFC#8, 0x03#8, 0x03#8, 0x03#8, 0x03#8, 0x03#8, 0x03#8, 0xFC#8, 0xFC#8]

/-- The lower half of the expanded `'A'` (S3). -/
def l : List Byte := [0x3F#8, 0x3F#8, 0x03#8, 0x03#8, 0x03#8, 0x03#8, 0x03#8, 0x03#8, 0x3F#8, 0x3F#8]

/-- A target in horizontal mode with the cursor at `(p, c)`. -/
def targetAt (p : BitVec 3) (c : BitVec 7) : Target :=
  { page := p, col := c, mode := .horiz, pend := none, power := 0, g := [] }

/-- An idle engine beside such a target. -/
def readyAt (p : BitVec 3) (c : BitVec 7) : State :=
  { State.reset with target := some (targetAt p c), font := fontA }

/-- The ready target of 95_test_vectors.md, but for its GDDRAM, which nothing has written. -/
def ready : State := readyAt 0#3 0#7

/-- The transactions issued from a state whose trace is empty, the unanswered one among them (R21). -/
def txns : Outcome → List Txn
  | .next s => s.trace.map Prod.fst
  | _ => []

/-- The status word and the target's cursor at the end. -/
def endOf : Outcome → Option (BitVec 4 × Option (BitVec 3 × BitVec 7))
  | .next s => some (s.status.word, s.target.map (fun t => (t.page, t.col)))
  | _ => none

/-- `n` cells of page `p` from column `c` on. -/
def cells (p : BitVec 3) (c n : Nat) : Outcome → List (Option Byte)
  | .next s => (List.range n).map (fun k => s.target.map (fun t => t.cell p (BitVec.ofNat 7 (c + k))))
  | _ => []

/-- What has been stored in the target's GDDRAM since power-on. -/
def stored : Outcome → Option Memory
  | .next s => s.target.map Target.g
  | _ => none

/-- The target's mode and awaited argument at the end. -/
def modeOf : Outcome → Option (Mode × Option Byte)
  | .next s => s.target.map (fun t => (t.mode, t.pend))
  | _ => none

/-- `[1, 2, ..., n]`. -/
def upTo (n : Nat) : List Byte := (List.range n).map (fun k => BitVec.ofNat 8 (k + 1))

/-! ## WellFormed refuses what no header can carry (30_encoding.md R42, R43) -/

theorem test_wf_write_too_long : (Instr.write 0#8 0#8 (List.replicate 4096 0#8)).wellFormed = false := by
  simp only [Instr.wellFormed, List.length_replicate]; decide

theorem test_wf_drawstr_too_long : (Instr.drawstr 0#8 0#8 (List.replicate 4096 0x41#8)).wellFormed = false := by
  simp only [Instr.wellFormed, List.length_replicate]; decide

theorem test_wf_icon_length :
    (Instr.drawicon 0#8 0#8 (List.replicate 31 0#8)).wellFormed = false ∧
    (Instr.drawicon 0#8 0#8 (List.replicate 33 0#8)).wellFormed = false := by decide

theorem test_wf_image_length :
    (Instr.drawimg 0#8 0#8 (List.replicate 383 0#8)).wellFormed = false ∧
    (Instr.drawimg 0#8 0#8 (List.replicate 385 0#8)).wellFormed = false := by
  simp only [Instr.wellFormed, List.length_replicate]; decide

theorem test_wf_largest : (Instr.write 255#8 255#8 (List.replicate 4095 0#8)).wellFormed = true ∧
    (Instr.drawstr 0#8 0#8 (List.replicate 4095 0x41#8)).wellFormed = true := by
  simp only [Instr.wellFormed, List.length_replicate]; decide

/-! ## Words written out from the encoding tables (R40, R41, R43; V1, V32) -/

theorem test_dec_init : decode (.request 0x00000000#32 []) = .ok (.init, []) := by decide
/-- V32: `SETPOS 9, 72`. -/
theorem test_dec_setpos : decode (.request 0x10000948#32 []) = .ok (.setpos 9#8 72#8, []) := by decide
/-- V7: `WRITE 1, 120` with 12 bytes, and a byte that is not taken. -/
theorem test_dec_write : decode (.request 0x200C0178#32 (upTo 12 ++ [0xEE#8])) =
    .ok (.write 1#8 120#8 (upTo 12), [0xEE#8]) := by decide
/-- V13: integer source. -/
theorem test_dec_drawglyph :
    decode (.request 0x30010205#32 [0x11#8, 0x22#8]) = .ok (.drawglyph 2#8 5#8 1#12 0x11#8, [0x22#8]) := by decide
/-- V32: the largest tag still decodes. -/
theorem test_dec_drawglyph_tag :
    decode (.request 0x3FFF0000#32 [0#8]) = .ok (.drawglyph 0#8 0#8 4095#12 0#8, []) := by decide
/-- P2: `DRAWSTR 0, 99, "AAA"`. -/
theorem test_dec_drawstr : decode (.request 0x40030063#32 [0x41#8, 0x41#8, 0x41#8]) =
    .ok (.drawstr 0#8 99#8 [0x41#8, 0x41#8, 0x41#8], []) := by decide
/-- V19: `DRAWICON 2, 116`. -/
theorem test_dec_drawicon : decode (.request 0x50200274#32 (upTo 32)) = .ok (.drawicon 2#8 116#8 (upTo 32), []) := by
  decide
/-- V20: `DRAWIMG 5, 100`. -/
theorem test_dec_drawimg : decode (.request 0x61800564#32 (upTo 384)) = .ok (.drawimg 5#8 100#8 (upTo 384), []) := by
  decide +kernel
theorem test_dec_clear : decode (.request 0x70000000#32 []) = .ok (.clear, []) := by decide
/-- R40: `10110ppp`. -/
theorem test_dec_setpage : decode (.command [0b10110101#8]) = .ok (.setpage 5#3, []) := by decide
/-- R40: `0000llll`. -/
theorem test_dec_setcollo : decode (.command [0b00001010#8, 0x11#8]) = .ok (.setcollo 10#4, [0x11#8]) := by decide
/-- R40: `0001hhhh`. -/
theorem test_dec_setcolhi : decode (.command [0b00011100#8]) = .ok (.setcolhi 12#4, []) := by decide
theorem test_dec_initAE : decode (.command [0xAE#8]) = .ok (.initAE, []) := by decide
theorem test_dec_initD5 : decode (.command [0xD5#8, 0x80#8]) = .ok (.initD5 0x80#8, []) := by decide
theorem test_dec_initA8 : decode (.command [0xA8#8, 0x3F#8]) = .ok (.initA8 0x3F#8, []) := by decide
theorem test_dec_initD3 : decode (.command [0xD3#8, 0x00#8]) = .ok (.initD3 0x00#8, []) := by decide
theorem test_dec_init40 : decode (.command [0x40#8]) = .ok (.init40, []) := by decide
theorem test_dec_init8D : decode (.command [0x8D#8, 0x14#8]) = .ok (.init8D 0x14#8, []) := by decide
theorem test_dec_init20 : decode (.command [0x20#8, 0x00#8]) = .ok (.init20 0x00#8, []) := by decide
theorem test_dec_initA1 : decode (.command [0xA1#8]) = .ok (.initA1, []) := by decide
theorem test_dec_initC8 : decode (.command [0xC8#8]) = .ok (.initC8, []) := by decide
theorem test_dec_initDA : decode (.command [0xDA#8, 0x12#8]) = .ok (.initDA 0x12#8, []) := by decide
theorem test_dec_init81 : decode (.command [0x81#8, 0xCF#8]) = .ok (.init81 0xCF#8, []) := by decide
theorem test_dec_initD9 : decode (.command [0xD9#8, 0xF1#8]) = .ok (.initD9 0xF1#8, []) := by decide
theorem test_dec_initDB : decode (.command [0xDB#8, 0x40#8]) = .ok (.initDB 0x40#8, []) := by decide
theorem test_dec_initA4 : decode (.command [0xA4#8]) = .ok (.initA4, []) := by decide
theorem test_dec_initA6 : decode (.command [0xA6#8]) = .ok (.initA6, []) := by decide
theorem test_dec_initAF : decode (.command [0xAF#8]) = .ok (.initAF, []) := by decide

/-- V32: every header the table calls illegal. -/
theorem test_dec_illegal :
    [0x00000001#32, 0x10010000#32, 0x000109C8#32, 0x50000000#32, 0x501F0000#32, 0x50210000#32, 0x60000000#32,
      0x61810000#32, 0x70000100#32, 0x80000000#32, 0xFFFFFFFF#32].map (fun h => decode (.request h [])) =
      List.replicate 11 (.error .illegalRequest) := by decide

/-- R41, R48: a byte of no row, an argument that is missing, a payload that is short. -/
theorem test_dec_rejects :
    decode (.command [0xFF#8]) = .error .refusedByte ∧ decode (.command [0x81#8]) = .error .argumentMissing ∧
    decode (.command []) = .error .noByte ∧ decode (.request 0x20010000#32 []) = .error .payloadShort := by decide

/-- No two rows of the opcode table share a word. -/
theorem test_rows_disjoint :
    requestRows.Pairwise (fun a b => a.disjoint b = true) ∧ commandRows.Pairwise (fun a b => a.disjoint b = true) := by
  decide

/-- R50. -/
theorem test_text : (Instr.setpos 9#8 200#8).text = some "SETPOS 9, 200" := by decide

/-! ## One operation each (95_test_vectors.md) -/

/-- S2: `SETPOS 9, 200`. -/
theorem test_setpos : txns (exec (.setpos 9#8 200#8) ready) = [.cmd 0xB1#8, .cmd 0x08#8, .cmd 0x1C#8] ∧
    endOf (exec (.setpos 9#8 200#8) ready) = some (0#4, some (1#3, 72#7)) := by decide

/-- V2: the three commands, one after the other, from `(5, 0x35)`. -/
theorem test_setpage : endOf (exec (.setpage 1#3) (readyAt 5#3 0x35#7)) = some (0#4, some (1#3, 0x35#7)) := by decide
theorem test_setcollo : endOf (exec (.setcollo 8#4) (readyAt 1#3 0x35#7)) = some (0#4, some (1#3, 0x38#7)) := by
  decide
theorem test_setcolhi : endOf (exec (.setcolhi 0xC#4) (readyAt 1#3 0x38#7)) = some (0#4, some (1#3, 0x48#7)) := by
  decide

/-- V3: the post-increment at the end of a page and of the GDDRAM. -/
theorem test_data_page_end :
    ((targetAt 2#3 127#7).apply (.data [0xAA#8])).map (fun t => (t.page, t.col, t.cell 2#3 127#7)) =
    some (3#3, 0#7, 0xAA#8) := by decide
theorem test_data_last_cell :
    ((targetAt 7#3 127#7).apply (.data [0x55#8])).map (fun t => (t.page, t.col, t.cell 7#3 127#7)) =
    some (0#3, 0#7, 0x55#8) := by decide

/-- V8: a stream over the end of page 7. -/
theorem test_write_wraps : cells 7#3 120 8 (exec (.write 7#8 120#8 (upTo 16)) ready) = (upTo 8).map some ∧
    cells 0#3 0 8 (exec (.write 7#8 120#8 (upTo 16)) ready) = ((upTo 16).drop 8).map some ∧
    endOf (exec (.write 7#8 120#8 (upTo 16)) ready) = some (0#4, some (0#3, 8#7)) := by decide +kernel

/-- V9: an empty `WRITE`. -/
theorem test_write_empty : txns (exec (.write 0#8 0#8 []) ready) = [] ∧
    endOf (exec (.write 0#8 0#8 []) ready) = some (0b0010#4, some (0#3, 0#7)) := by decide

/-- V4, S3: bit doubling and the expansion of `'A'`. -/
theorem test_expand : dbl4 0xA#4 = 0xCC#8 ∧
    (glyphRow fontA (some (.char 0x41#8))).map (fun r => ((upperBytes r).toList, (lowerBytes r).toList)) =
      some (u, l) := by decide

/-- V14: a glyph over column 127. -/
theorem test_drawglyph : txns (exec (.drawglyph 0#8 120#8 0#12 0x41#8) ready) =
      [.cmd 0xB0#8, .cmd 0x08#8, .cmd 0x17#8, .data u, .cmd 0xB1#8, .cmd 0x08#8, .cmd 0x17#8, .data l] ∧
    cells 1#3 0 2 (exec (.drawglyph 0#8 120#8 0#12 0x41#8) ready) = [some 0xFC#8, some 0xFC#8] ∧
    endOf (exec (.drawglyph 0#8 120#8 0#12 0x41#8) ready) = some (0#4, some (2#3, 2#7)) := by decide +kernel

/-- V21 (a), (b): a tag of neither source, a code below the table. -/
theorem test_drawglyph_faults :
    endOf (exec (.drawglyph 0#8 0#8 2#12 0x41#8) ready) = some (0b0001#4, some (0#3, 0#7)) ∧
    endOf (exec (.drawglyph 0#8 0#8 0#12 0x1F#8) ready) = some (0b0001#4, some (0#3, 0#7)) := by decide

/-- V16: two characters per line. -/
theorem test_drawstr_wraps : txns (exec (.drawstr 1#8 99#8 (List.replicate 3 0x41#8)) ready) =
    [.cmd 0xB1#8, .cmd 0x03#8, .cmd 0x16#8, .data u, .cmd 0xB2#8, .cmd 0x03#8, .cmd 0x16#8, .data l,
     .cmd 0xB1#8, .cmd 0x0E#8, .cmd 0x16#8, .data u, .cmd 0xB2#8, .cmd 0x0E#8, .cmd 0x16#8, .data l,
     .cmd 0xB3#8, .cmd 0x03#8, .cmd 0x16#8, .data u, .cmd 0xB4#8, .cmd 0x03#8, .cmd 0x16#8, .data l] := by
  decide +kernel

/-- V27: a fault in the middle of a string. -/
theorem test_drawstr_fault : (txns (exec (.drawstr 0#8 0#8 [0x41#8, 0x01#8, 0x41#8]) ready)).length = 8 ∧
    endOf (exec (.drawstr 0#8 0#8 [0x41#8, 0x01#8, 0x41#8]) ready) = some (0b0001#4, some (1#3, 10#7)) := by
  decide +kernel

/-- The icon of V19. -/
def icon : List Byte :=
  List.replicate 8 0x11#8 ++ List.replicate 8 0x22#8 ++ List.replicate 8 0x33#8 ++ List.replicate 8 0x44#8

/-- V19, start column 124: tails of tiles beside the tiles to their right. -/
theorem test_drawicon : cells 3#3 0 12 (exec (.drawicon 2#8 124#8 icon) ready) =
      List.replicate 4 (some 0x11#8) ++ List.replicate 8 (some 0x44#8) ∧
    endOf (exec (.drawicon 2#8 124#8 icon) ready) = some (0#4, some (3#3, 12#7)) := by decide +kernel

/-- The image of V20. -/
def image : List Byte := (List.range 384).map (BitVec.ofNat 8)

/-- V20, quadruples 27 and 28: the column wraps within its page. The next transaction is left unanswered. -/
theorem test_drawimg_columns :
    let o := exec (.drawimg 5#8 100#8 image) { ready with answers := List.replicate 116 .ok ++ [.wait] }
    (txns o).drop 108 = [.cmd 0xB5#8, .cmd 0x0F#8, .cmd 0x17#8, .data [0x1B#8],
      .cmd 0xB5#8, .cmd 0x00#8, .cmd 0x18#8, .data [0x1C#8],
      .cmd 0xB5#8] ∧
    cells 5#3 0 1 o = [some 0x1C#8] := by decide +kernel

/-- V20, the last quadruple: the image taken up at its last byte. -/
theorem test_drawimg_last :
    let e := Engine.callImageByte { (Engine.reset.startDrawimg 5#8 100#8 image) with idx := 383 }
    let o := step { ready with eng := e, status := Status.accepted }
    txns o = [.cmd 0xB2#8, .cmd 0x03#8, .cmd 0x1A#8, .data [0x7F#8]] ∧ endOf o = some (0#4, some (2#3, 36#7)) := by
  decide +kernel

/-- S1: `INIT` from power-on. -/
theorem test_init : (txns (exec .init State.reset)).length = 25 ∧
    modeOf (exec .init State.reset) = some (.horiz, none) := by decide +kernel

/-- V28: the first byte of `INIT` taken as an argument of command `0x20`. -/
theorem test_init_awaited :
    modeOf (exec .init { ready with target := some { targetAt 0#3 0#7 with mode := .uninit, pend := some 0x20#8 } }) =
      some (.horiz, none) := by decide +kernel

/-- V30: `CLEAR` from the cursor `(3, 77)`, up to the first command of page 1, which is left unanswered. -/
theorem test_clear :
    let o := exec .clear { readyAt 3#3 77#7 with answers := List.replicate 7 .ok ++ [.wait] }
    cells 0#3 0 4 o = List.replicate 4 (some 0#8) ∧ cells 0#3 124 4 o = List.replicate 4 (some 0#8) ∧
      endOf o = some (0b1000#4, some (1#3, 0#7)) := by decide +kernel

/-- S4: the transactions of `CLEAR` (no target behind the transport). -/
theorem test_clear_trace :
    let o := exec .clear { ready with target := none }
    (txns o).length = 56 ∧ (txns o).take 4 = [.cmd 0xB0#8, .cmd 0x00#8, .cmd 0x10#8, .data (List.replicate 32 0#8)] ∧
      (txns o)[49]? = some (.cmd 0xB7#8) := by decide +kernel

/-- R80: command `0x20`; its argument decides the mode. -/
theorem test_init20 : modeOf (exec (.init20 0x00#8) State.reset) = some (.horiz, none) ∧
    modeOf (exec (.init20 0x02#8) ready) = some (.other, none) := by decide

/-- R80: `SETPAGE` at a target that awaits the argument of `0x81` moves no cursor. -/
theorem test_setpage_as_argument :
    let o := exec (.setpage 5#3) { ready with target := some { targetAt 1#3 2#7 with pend := some 0x81#8 } }
    endOf o = some (0#4, some (1#3, 2#7)) ∧ modeOf o = some (.horiz, none) := by decide

/-! ## Faults of the transport, waiting, resets -/

/-- V24: the fifth transaction fails; the first chunk is written. -/
theorem test_fail_chunk :
    let o := exec (.write 0#8 0#8 (upTo 40)) { ready with answers := [.ok, .ok, .ok, .ok, .fail] }
    (txns o).length = 5 ∧ cells 0#3 0 32 o = (upTo 32).map some ∧ (endOf o).map Prod.fst = some 0b0011#4 ∧
      modeOf o = some (.horiz, none) := by decide +kernel

/-- V25: the second transaction fails; the data is never issued. -/
theorem test_fail_command :
    let o := exec (.write 2#8 0#8 [0xFF#8]) { ready with answers := [.ok, .fail] }
    txns o = [.cmd 0xB2#8, .cmd 0x00#8] ∧ stored o = some [] ∧ (endOf o).map Prod.fst = some 0b0011#4 := by
  decide +kernel

/-- A request left waiting on its third transaction. -/
def waiting : State :=
  match exec (.setpos 1#8 72#8) { ready with answers := [.ok, .ok, .wait] } with
  | .next s => s
  | _ => ready

/-- R102: it is busy with the transaction on the port; the next step ends it. -/
theorem test_wait : waiting.status.busy = true ∧ waiting.tx = some (.cmd 0x14#8) ∧
    endOf (step waiting) = some (0#4, some (1#3, 72#7)) := by decide +kernel

/-- R9, R21: the transaction is in the trace before its answer. -/
theorem test_wait_trace : waiting.trace =
    [(.cmd 0xB1#8, some true), (.cmd 0x08#8, some true), (.cmd 0x14#8, none)] := by decide +kernel

/-- The sequencer's phase after rows. -/
def phaseOf : Tick → Option Phase
  | .go s => some s.eng.phase
  | .stop s => some s.eng.phase
  | .stuck => none

/-- R9: `CHECK` takes no step, the first transaction takes one, and the last one's step is the end. -/
theorem test_tick :
    let s := ready.accept (Engine.reset.startSetpos 1#8 72#8)
    phaseOf s.settle = some .cmdPage ∧ phaseOf (s.settle.andThen tick) = some .cmdCollo ∧
      phaseOf (tick waiting) = some .idle := by decide +kernel

/-- R93: engine reset in the middle of it. -/
theorem test_rst :
    let o := step { waiting with inputs := [.rst] }
    (endOf o).map Prod.fst = some 0#4 ∧ txns o = [] := by decide +kernel

/-- P4, request 4, through the step: an illegal header takes no payload byte. -/
theorem test_step_illegal :
    let o := step { ready with inputs := [.request 0x80000000#32], payloadPort := [1#8] }
    endOf o = some (0b0100#4, some (0#3, 0#7)) ∧ txns o = [] := by decide

/-- P3, request 4, through the step. -/
theorem test_step_write :
    let o := step { ready with inputs := [.request 0x20100778#32], payloadPort := upTo 16 }
    cells 0#3 0 8 o = ((upTo 16).drop 8).map some ∧ endOf o = some (0#4, some (0#3, 8#7)) := by decide +kernel

/-- A header row of the table, run as the first instruction after reset. -/
theorem test_fetch_word : decodeTableWord 32 0x10000948 = some (.setpos 9#8 72#8) ∧
    endOf (step (State.reset.withFetchWord 32 0x10000948)) = some (0#4, some (1#3, 72#7)) := by decide

/-- A command row with its argument. -/
theorem test_fetch_byte : decodeTableWord 8 0x20 = some (.init20 0x00#8) ∧
    modeOf (step (State.reset.withFetchWord 8 0x20)) = some (.horiz, none) := by decide

/-! ## Witnesses: what meets the hypotheses of each statement -/

/-- The outcome is a next state. -/
def isNext : Outcome → Bool
  | .next _ => true
  | _ => false

theorem next_of_isNext {o : Outcome} (h : isNext o = true) : ∃ s, o = .next s := by
  cases o with
  | next s => exact ⟨s, rfl⟩
  | fault f => cases h
  | refused r => cases h

theorem witness_EncodeThenDecode :
    (Instr.write 0#8 0#8 (List.replicate 4095 0#8)).wellFormed = true ∧ (Instr.write 0#8 0#8 []).wellFormed = true ∧
    (Instr.drawicon 0#8 0#8 icon).wellFormed = true ∧ (Instr.drawimg 0#8 0#8 (List.replicate 384 0#8)).wellFormed = true := by
  simp only [Instr.wellFormed, List.length_replicate]; decide

theorem witness_DecodeThenEncode :
    decode (.request 0x20010000#32 [7#8, 8#8]) = .ok (.write 0#8 0#8 [7#8], [8#8]) ∧
    decode (.command [0x1F#8]) = .ok (.setcolhi 15#4, []) := by decide

/-- The least illegal opcode and the largest legal one; `len` 31 and 32 of an icon. -/
theorem witness_IllegalHeaders :
    decodeRequest (requestHeader 8#4 0#12 0#8 0#8) [] = .error .illegalRequest ∧
    decodeRequest (requestHeader 7#4 0#12 0#8 0#8) [] = .ok (.clear, []) ∧
    decodeRequest (requestHeader 7#4 0#12 0#8 1#8) [] = .error .illegalRequest ∧
    decodeRequest (requestHeader 5#4 31#12 0#8 0#8) [] = .error .illegalRequest ∧
    decodeRequest (requestHeader 5#4 32#12 0#8 0#8) [] = .error .payloadShort := by decide

/-- Exactly enough bytes, and one too few. -/
theorem witness_PayloadLength :
    impliedPayload 0x20020000#32 = 2 ∧
    decodeRequest 0x20020000#32 [1#8, 2#8] = .ok (.write 0#8 0#8 [1#8, 2#8], []) ∧
    decodeRequest 0x20020000#32 [1#8] ≠ .error .illegalRequest ∧ [1#8].length < impliedPayload 0x20020000#32 := by
  decide

theorem witness_StepRunsRequest : ready.Idle ∧
    ({ ready with inputs := [.request 0x20010000#32], payloadPort := [7#8, 8#8] } : State).inputs =
      .request 0x20010000#32 :: [] ∧
    decode (.request 0x20010000#32 [7#8, 8#8]) = .ok (.write 0#8 0#8 [7#8], [8#8]) := by decide

/-- No byte left over, and one. -/
theorem witness_StepRunsCommand : ready.Idle ∧ ready.awaiting = false ∧
    decode (.command [0xB7#8]) = .ok (.setpage 7#3, []) ∧
    decode (.command [0x20#8, 0x00#8, 0xB7#8]) = .ok (.init20 0#8, [0xB7#8]) := by decide

theorem witness_IllegalRequestAborts : ready.Idle ∧
    (∀ r ∈ requestRows, (0x80000000#32).toNat &&& r.mask ≠ r.pattern) ∧
    (∀ r ∈ requestRows, (0x501F0000#32).toNat &&& r.mask ≠ r.pattern) := by decide

theorem witness_BusyAcceptsNothing : opOf .clear = some .clear ∧ waiting.status.busy = true ∧
    ∃ t, step { waiting with inputs := [.request 0x70000000#32] } = .next t :=
  ⟨by decide, by decide +kernel, next_of_isNext (by decide +kernel)⟩

/-- With nothing in flight, and with a transaction in flight. -/
theorem witness_EngineReset :
    ({ ready with inputs := [.rst] } : State).inputs = .rst :: [] ∧ ready.tx = none ∧
    ({ waiting with inputs := [.rst] } : State).tx = some (.cmd 0x14#8) := by decide +kernel

theorem witness_TargetPowerOn : ({ ready with inputs := [.powerOn] } : State).inputs = .powerOn :: [] := by decide

theorem witness_SetposEnds :
    ready.Idle ∧ ready.target = some (targetAt 0#3 0#7) ∧ (targetAt 0#3 0#7).pend = none ∧ allOk 3 ready.answers ∧
    allOk 3 [.ok, .ok, .ok, .fail] := by decide

theorem witness_SetposEquivalence : (targetAt 7#3 127#7).pend = none := by decide

/-- The first and the last byte of each command, and the byte behind it. -/
theorem witness_PageAndLowColumn : (targetAt 7#3 127#7).pend = none ∧
    0xB0#8 &&& 0xF8#8 = 0xB0#8 ∧ 0xB7#8 &&& 0xF8#8 = 0xB0#8 ∧ ¬ 0xB8#8 &&& 0xF8#8 = 0xB0#8 ∧
    0x00#8 &&& 0xF0#8 = 0x00#8 ∧ 0x0F#8 &&& 0xF0#8 = 0x00#8 ∧ ¬ 0x10#8 &&& 0xF0#8 = 0x00#8 := by decide

theorem witness_HighColumn : (targetAt 7#3 127#7).pend = none ∧
    0x10#8 &&& 0xF0#8 = 0x10#8 ∧ 0x1F#8 &&& 0xF0#8 = 0x10#8 ∧ ¬ 0x20#8 &&& 0xF0#8 = 0x10#8 := by decide

theorem witness_AddressingCommandsEnd : ready.target = some (targetAt 0#3 0#7) ∧ (targetAt 0#3 0#7).pend = none := by
  decide

/-- The last column, the one before it, and a target that refuses data. -/
theorem witness_DataByte : (targetAt 7#3 127#7).mode = .horiz ∧ (targetAt 7#3 127#7).col = 127#7 ∧
    (targetAt 7#3 126#7).col ≠ 127#7 ∧ Target.reset.mode ≠ .horiz := by decide

/-- The largest integer source whose character code is a byte. -/
theorem witness_GlyphCodes : (0xCF#8).toNat + 0x30 < 256 ∧ ¬ (0xD0#8).toNat + 0x30 < 256 := by decide

/-- The last entry, the code behind it, and the code below the first. -/
theorem witness_FontLookup : 0x21 < fontA.length ∧ glyphRow fontA (some (.char 0x41#8)) ≠ none ∧
    glyphRow fontA (some (.char 0x42#8)) = none ∧ glyphRow fontA (some (.char 0x1F#8)) = none ∧
    glyphRow fontA (some (.char 0x20#8)) ≠ none := by decide

theorem witness_DrawglyphEnds : ready.Idle ∧ ready.target = some (targetAt 0#3 0#7) ∧ (targetAt 0#3 0#7).Ready ∧
    allOk 8 ready.answers ∧
    glyphRow ready.font (glyphSource (0#12).toNat 0x41#8) = some #v[0x7E#8, 0x11#8, 0x11#8, 0x11#8, 0x7E#8] := by decide

/-- The least bad tag; the codes on both sides of the table for a character; the code behind it for an integer. -/
theorem witness_DrawglyphFaults : ready.Idle ∧ 2 ≤ (2#12).toNat ∧ ((0x1F#8).toNat : Int) - 0x20 < 0 ∧
    (ready.font.length : Int) ≤ ((0x42#8).toNat : Int) - 0x20 ∧ ready.font.length ≤ (0x12#8).toNat + 0x10 := by decide

/-- One byte, a full chunk, one byte more. -/
theorem witness_ChunkRule : [1#8] ≠ [] ∧ (chunks [1#8]).length = 1 ∧ (chunks (upTo 32)).length = 1 ∧
    (chunks (upTo 33)).map List.length = [32, 1] := by decide

theorem witness_WriteNetEffect : ready.Idle ∧ ready.target = some (targetAt 0#3 0#7) ∧ (targetAt 0#3 0#7).Ready ∧
    upTo 33 ≠ [] ∧ (upTo 33).length ≤ 4095 ∧ allOk (3 + ((upTo 33).length + 31) / 32) ready.answers := by decide

theorem witness_EmptyPayload : opOf (.write 0#8 0#8 []) = some .write ∧ (Instr.write 0#8 0#8 []).wellFormed = true ∧
    ready.Idle ∧ ∃ t, exec (.write 0#8 0#8 []) ready = .next t ∧ t.status.err = .emptyPayload :=
  ⟨by decide, by decide, by decide, _, rfl, rfl⟩

/-- `startColumn` and `startPage` on both sides of their bounds. -/
theorem witness_DrawstrEnds : ready.Idle ∧ ([0x41#8] : List Byte).length ≤ 4095 ∧ allOk 8 ready.answers ∧
    [0x41#8].map (fun ch => glyphRow ready.font (some (.char ch))) =
      [#v[0x7E#8, 0x11#8, 0x11#8, 0x11#8, 0x7E#8]].map some ∧
    (if (118#8).toNat ≤ 118 then (118 - (118#8).toNat) / 11 + 1 else 1) = 1 ∧
    (if (119#8).toNat ≤ 118 then (118 - (119#8).toNat) / 11 + 1 else 1) = 1 ∧
    (if (6#8).toNat < 7 then (7 - (6#8).toNat + 1) / 2 else 1) = 1 ∧
    (if (7#8).toNat < 7 then (7 - (7#8).toNat + 1) / 2 else 1) = 1 := by decide

theorem witness_DrawstrFrame : ready.Idle ∧ ready.target = some (targetAt 0#3 0#7) ∧ (targetAt 0#3 0#7).Ready ∧
    allOk (8 * [0x41#8].length) ready.answers ∧ (∀ ch ∈ [0x41#8], glyphRow ready.font (some (.char ch)) ≠ none) ∧
    ∃ t, exec (.drawstr 0#8 0#8 [0x41#8]) ready = .next t :=
  ⟨by decide, by decide, by decide, by decide, by simp [ready, readyAt, fontA, glyphRow, fontRow, glyphCode, charBias],
   next_of_isNext (by decide +kernel)⟩

theorem witness_DrawstrFaults : ready.Idle ∧ ([0x41#8] ++ 0x01#8 :: [0x41#8]).length ≤ 4095 ∧
    allOk (8 * [0x41#8].length) ready.answers ∧ glyphRow ready.font (some (.char 0x41#8)) ≠ none ∧
    glyphRow ready.font (some (.char 0x01#8)) = none := by decide

theorem witness_DrawiconEnds : ready.Idle ∧ ready.target = some (targetAt 0#3 0#7) ∧ (targetAt 0#3 0#7).Ready ∧
    allOk 16 ready.answers := by decide

theorem witness_DrawimgNetEffect : (List.replicate 384 0xFF#8).length = 384 ∧ ready.Idle ∧
    ready.target = some (targetAt 0#3 0#7) ∧ (targetAt 0#3 0#7).Ready ∧ allOk 1536 ready.answers :=
  ⟨List.length_replicate, by decide, by decide, by decide, by simp [allOk, ready, readyAt, State.reset]⟩

theorem witness_InitEnds : State.reset.Idle ∧ State.reset.target = some Target.reset ∧ allOk 25 State.reset.answers := by
  decide

theorem witness_ClearNetEffect : ready.Idle ∧ ready.target = some (targetAt 0#3 0#7) ∧ (targetAt 0#3 0#7).Ready ∧
    allOk 56 ready.answers := by decide

theorem witness_OneByteCommandsEnd : State.reset.target = some Target.reset ∧ Target.reset.pend = none := by decide

theorem witness_TwoByteCommandsEnd : State.reset.target = some Target.reset ∧ Target.reset.pend = none := by decide

/-- A target that awaits the argument of `0x20`, and one that awaits another. -/
theorem witness_ArgumentIsNotDecoded :
    ({ targetAt 0#3 0#7 with pend := some 0x20#8 } : Target).pend = some 0x20#8 ∧
    ({ targetAt 0#3 0#7 with pend := some 0x81#8 } : Target).pend = some 0x81#8 ∧ 0x81#8 ≠ 0x20#8 := by decide

theorem witness_CommandIsItsBytes : encode (.setpage 5#3) = .command [0xB5#8] ∧ encode .initAF = .command [0xAF#8] ∧
    encode (.init20 0#8) = .command [0x20#8, 0x00#8] := by decide

/-- The first transaction, and the last. -/
theorem witness_TransportFailureAborts : opOf (.setpos 1#8 72#8) = some .setpos ∧
    (Instr.setpos 1#8 72#8).wellFormed = true ∧ ready.Idle ∧
    0 < (requestTxns ready.font (.setpos 1#8 72#8)).1.length ∧ 2 < (requestTxns ready.font (.setpos 1#8 72#8)).1.length ∧
    ({ ready with answers := [.fail] } : State).answers = List.replicate 0 .ok ++ .fail :: [] ∧
    ({ ready with answers := [.ok, .ok, .fail, .ok] } : State).answers = List.replicate 2 .ok ++ .fail :: [.ok] := by
  decide

/-- A footprint over the last cell, a cell in it and one outside. -/
theorem witness_FailedTransaction : Op.setpos ≠ .init ∧ (cellAddr 7#3 127#7 + 1) % 1024 = 0 ∧
    (∀ k < 2, (cellAddr 7#3 127#7 + k) % 1024 ≠ 1) := by decide

theorem witness_UnansweredIsHeld : opOf (.setpos 1#8 72#8) = some .setpos ∧
    (Instr.setpos 1#8 72#8).wellFormed = true ∧ ready.Idle ∧ 2 < (requestTxns ready.font (.setpos 1#8 72#8)).1.length ∧
    ({ ready with answers := [.ok, .ok, .wait] } : State).answers = List.replicate 2 .ok ++ .wait :: [] ∧ ready.tx = none := by
  decide

theorem witness_WaitingIsInvisible : opOf (.setpos 1#8 72#8) = some .setpos ∧
    (Instr.setpos 1#8 72#8).wellFormed = true ∧ ready.Idle ∧ 2 < (requestTxns ready.font (.setpos 1#8 72#8)).1.length ∧
    (∀ r, ready.inputs ≠ .rst :: r) ∧ (∀ r, ready.inputs ≠ .powerOn :: r) ∧
    ({ ready with answers := [.ok, .ok, .wait] } : State).answers = List.replicate 2 .ok ++ .wait :: [] ∧
    ∃ t, exec (.setpos 1#8 72#8) { ready with answers := [.ok, .ok, .wait] } = .next t :=
  ⟨by decide, by decide, by decide, by decide, by simp [ready, readyAt, State.reset],
   by simp [ready, readyAt, State.reset], by decide,
   next_of_isNext (by decide +kernel)⟩

theorem witness_DataOutsideHorizontalMode : State.reset.Idle ∧ State.reset.target = some Target.reset ∧
    Target.reset.mode ≠ .horiz ∧ Target.reset.pend = none ∧ [0xFF#8] ≠ [] ∧
    allOk (3 + ([0xFF#8].length + 31) / 32) State.reset.answers := by decide

theorem witness_LostTargetStaysLost : ({ ready with target := none } : State).target = none ∧
    (∀ r, ready.inputs ≠ .powerOn :: r) ∧ ∃ t, step { ready with target := none, inputs := [.rst] } = .next t :=
  ⟨rfl, by simp [ready, readyAt, State.reset], _, rfl⟩

theorem witness_RequestsEnd : opOf .init = some .init ∧ Instr.init.wellFormed = true ∧ ready.Idle ∧
    allOk (requestTxns ready.font .init).1.length ready.answers ∧
    opOf (.write 0#8 0#8 []) = some .write ∧ allOk (requestTxns ready.font (.write 0#8 0#8 [])).1.length [.fail] := by
  decide

theorem witness_TransactionCounts : [1#8] ≠ [] ∧ (requestTxns fontA (.drawglyph 0#8 0#8 0#12 0x41#8)).2 = .none ∧
    (requestTxns fontA (.drawstr 0#8 0#8 [0x41#8])).2 = .none ∧ icon.length = 32 ∧ image.length = 384 := by
  decide +kernel

/-- The same request, with other targets and other traces. -/
theorem witness_OnlyOperandsMatter : opOf (.setpos 1#8 72#8) = some .setpos ∧ ready.Idle ∧ (readyAt 3#3 9#7).Idle ∧
    ready.font = (readyAt 3#3 9#7).font ∧ ready.answers = (readyAt 3#3 9#7).answers ∧
    (∃ t, exec (.setpos 1#8 72#8) ready = .next t) ∧ (∃ t, exec (.setpos 1#8 72#8) (readyAt 3#3 9#7) = .next t) :=
  ⟨by decide, by decide, by decide, by decide, by decide, next_of_isNext (by decide +kernel),
   next_of_isNext (by decide +kernel)⟩

/-- A request at the port of an idle engine. -/
def requesting : State := { ready with inputs := [.request 0x20010000#32], payloadPort := [7#8] }

theorem witness_TargetFollowsTrace : (∀ r, requesting.inputs ≠ .rst :: r) ∧ (∀ r, requesting.inputs ≠ .powerOn :: r) ∧
    (∀ bs r, requesting.inputs ≠ .command bs :: r) ∧ ∃ t, step requesting = .next t :=
  ⟨by simp [requesting], by simp [requesting], by simp [requesting], next_of_isNext (by decide +kernel)⟩

theorem witness_FontIsReadOnly : ∃ t, step requesting = .next t := next_of_isNext (by decide +kernel)

/-- The shortest block and the longest. -/
theorem witness_TransactionRecords : 1 ≤ [0xFF#8].length ∧ [0xFF#8].length ≤ 32 ∧
    1 ≤ (upTo 32).length ∧ (upTo 32).length ≤ 32 ∧ (upTo 32).length ≠ 31 := by decide

/-- `SETPOS` accepted, nothing issued yet. -/
def accepted : State := ready.accept (Engine.reset.startSetpos 1#8 72#8)

theorem ready_inv (ins : List Input) (pl : List Byte) : ({ ready with inputs := ins, payloadPort := pl } : State).Inv where
  busy_iff := by simp [ready, readyAt, State.reset, Engine.reset]
  fits := by
    show Engine.reset.Fits
    unfold Engine.Fits
    decide
  sound := fun h => absurd rfl h
  port := by intro x hx; cases hx
  target := by intro t ht; cases ht; exact ⟨reset_wf, by decide⟩
  legal := by intro en hen; cases hen

/-- An idle engine with a request at its port, and an engine in the middle of an operation. -/
theorem witness_InvariantKept : requesting.Inv ∧ accepted.Inv ∧ (∃ t, step requesting = .next t) ∧
    ∃ t, step accepted = .next t :=
  ⟨ready_inv _ _,
   { busy_iff := by decide
     fits := by unfold Engine.Fits; decide
     sound := fun _ => .inl rfl
     port := by intro x hx; cases hx
     target := (ready_inv [] []).target
     legal := by intro en hen; cases hen },
   next_of_isNext (by decide +kernel), next_of_isNext (by decide +kernel)⟩

/-- One payload byte too few. -/
theorem witness_OnlyShortPayloadStops :
    ({ ready with inputs := [.request 0x20020000#32], payloadPort := [7#8] } : State).Inv ∧
    step { ready with inputs := [.request 0x20020000#32], payloadPort := [7#8] } = .fault .payloadShort :=
  ⟨ready_inv _ _, rfl⟩

end Slice0
end

section
/-!
PROOF. What an operation of an idle engine leaves, for every sequence of answers (10_state.md R11): the answers to
its transactions are all ok, or fail first at one of them, or leave one unanswered; in each case the entries
appended, the status, the port and the answers left over are written down from `requestTxns` and the answers alone.
-/

namespace Sys2Proof.Machine

/-- The first `n` answers are ok, or one of them is the first that is not. -/
theorem allOk_or_first_not_ok (n : Nat) (as : List Answer) :
    allOk n as ∨ ∃ k < n, ∃ rest,
      as = List.replicate k .ok ++ .fail :: rest ∨ as = List.replicate k .ok ++ .wait :: rest := by
  induction n generalizing as with
  | zero => exact .inl (by simp [allOk])
  | succ n ih =>
    match as with
    | [] => exact .inl (by simp [allOk])
    | .fail :: rest => exact .inr ⟨0, n.succ_pos, rest, .inl rfl⟩
    | .wait :: rest => exact .inr ⟨0, n.succ_pos, rest, .inr rfl⟩
    | .ok :: as =>
      rcases ih as with hok | ⟨k, hk, rest, has⟩
      · exact .inl (by simpa [allOk] using hok)
      · exact .inr ⟨k + 1, Nat.succ_lt_succ hk, rest, by simpa [List.replicate_succ] using has⟩

/-- From `s` to `t` the answered part of the trace grew by `new`, and `t` has this status, port and answers. -/
def Leaves (new : List Entry) (status : Status) (port : Option Txn) (answers : List Answer) (s t : State) : Prop :=
  t.answered = s.answered ++ new ∧ t.status = status ∧ t.tx = port ∧ t.answers = answers

section
variable {i : Instr} {op : Op} (hop : opOf i = some op) (hwf : i.wellFormed = true) {s t : State} (hidle : s.Idle)
  {ts : List Txn} {err : Err} (hreq : requestTxns s.font i = (ts, err)) (hexec : exec i s = .next t)
include hop hwf hidle hreq hexec

/-- Every transaction answered ok: all of them are in the trace, and the operation ends with its own code. -/
theorem exec_leaves_of_allOk (hok : allOk ts.length s.answers) :
    Leaves (okEntries ts) (.ended err) none (s.answers.drop ts.length) s t := by
  obtain ⟨n, hn, hb, hgoes⟩ := request_goes s.font hop hwf s.eng
  rw [hreq] at hgoes
  obtain ⟨hdone, hfault⟩ := run_ok (s := s.accept (startOf i s.eng)) hn hb.le hgoes hok
  have hend : ∃ e, (s.accept (startOf i s.eng)).run =
      .next (((s.accept (startOf i s.eng)).played ts e).finish err) := by
    cases err with
    | none => exact hdone rfl
    | invalidGlyphInput | emptyPayload | transportFailure | illegalRequest => exact hfault _ rfl
  obtain ⟨e, hrun⟩ := hend
  rw [exec_idle hop hidle, hrun] at hexec
  cases hexec
  exact ⟨rfl, rfl, rfl, rfl⟩

/-- The transaction `k` is the first not answered ok, and fails: it is the last in the trace (R84, R86). -/
theorem exec_leaves_of_fail {k : Nat} {rest : List Answer} (hk : k < ts.length)
    (hans : s.answers = List.replicate k .ok ++ .fail :: rest) :
    Leaves (okEntries (ts.take k) ++ [{ txn := ts[k], ok := false }]) (.ended .transportFailure) none rest s t := by
  obtain ⟨n, -, hb, hgoes⟩ := request_goes s.font hop hwf s.eng
  rw [hreq] at hgoes
  obtain ⟨e, -, hrun⟩ := run_fail (s := s.accept (startOf i s.eng)) hb.le hgoes hk hans
  rw [exec_idle hop hidle, hrun] at hexec
  cases hexec
  exact ⟨List.append_assoc .., rfl, rfl, rfl⟩

/-- The transaction `k` is the first not answered ok, and has no answer: the engine is busy, with it on the port
(R102). -/
theorem exec_leaves_of_wait {k : Nat} {rest : List Answer} (hk : k < ts.length)
    (hans : s.answers = List.replicate k .ok ++ .wait :: rest) :
    Leaves (okEntries (ts.take k)) .accepted (some ts[k]) rest s t := by
  obtain ⟨n, -, hb, hgoes⟩ := request_goes s.font hop hwf s.eng
  rw [hreq] at hgoes
  obtain ⟨-, e, -, -, -, hrun⟩ := run_wait (s := s.accept (startOf i s.eng)) hb.le hgoes hk hans
  rw [exec_idle hop hidle, hrun] at hexec
  cases hexec
  exact ⟨rfl, rfl, rfl, rfl⟩

end

/-- What a request leaves is the same from every idle state with the same font and answers (R11). -/
theorem exec_leaves_same {i : Instr} {op : Op} (hop : opOf i = some op) (hwf : i.wellFormed = true)
    (font : List GlyphRow) (as : List Answer) :
    ∃ new status port rest, ∀ s t : State, s.Idle → s.font = font → s.answers = as → exec i s = .next t →
      Leaves new status port rest s t := by
  rcases hreq : requestTxns font i with ⟨ts, err⟩
  rcases allOk_or_first_not_ok ts.length as with hok | ⟨k, hk, rest, has | has⟩
  · refine ⟨okEntries ts, .ended err, none, as.drop ts.length, fun s t hidle hfont hans hexec => ?_⟩
    subst hfont hans
    exact exec_leaves_of_allOk hop hwf hidle hreq hexec hok
  · refine ⟨okEntries (ts.take k) ++ [{ txn := ts[k], ok := false }], .ended .transportFailure, none, rest,
      fun s t hidle hfont hans hexec => ?_⟩
    subst hfont
    exact exec_leaves_of_fail hop hwf hidle hreq hexec hk (hans.trans has)
  · refine ⟨okEntries (ts.take k), .accepted, some ts[k], rest, fun s t hidle hfont hans hexec => ?_⟩
    subst hfont
    exact exec_leaves_of_wait hop hwf hidle hreq hexec hk (hans.trans has)

/-- Settles O49: both runs leave what `exec_leaves_same` gives for their common font and answers. -/
theorem onlyOperandsMatter : Obligations.OnlyOperandsMatter := by
  intro i op s1 s2 t1 t2 hop hwf hidle1 hidle2 hfont hans hexec1 hexec2
  obtain ⟨new, status, port, rest, hleaves⟩ := exec_leaves_same hop hwf s2.font s2.answers
  obtain ⟨htrace1, hstatus1, hport1, hrest1⟩ := hleaves s1 t1 hidle1 hfont hans hexec1
  obtain ⟨htrace2, hstatus2, hport2, hrest2⟩ := hleaves s2 t2 hidle2 rfl rfl hexec2
  exact ⟨new, htrace1, htrace2, hstatus1.trans hstatus2.symm, hport1.trans hport2.symm, hrest1.trans hrest2.symm⟩

end Sys2Proof.Machine
end

section
/-!
PROOF. The addressing bytes of any page and column (30_encoding.md R44). As numbers: the operand is masked below 256
before it is joined to the fixed part, so the byte holds the whole of the `|||`. As fields: `pageByte_eq`,
`colLoByte_eq` and `colHiByte_eq` give the operand of the command, which is a field of the operand's low byte.
-/

namespace Sys2Proof.Machine

/-- The fixed part of a command byte joined to an operand masked below 256, as a number. -/
theorem toNat_or_ofNat_masked (fixed : Byte) (n : Nat) {mask : Nat} (hmask : mask < 256) :
    (fixed ||| BitVec.ofNat 8 (n &&& mask)).toNat = fixed.toNat ||| (n &&& mask) := by
  have hlt : n &&& mask < 2 ^ 8 := Nat.and_le_right.trans_lt hmask
  rw [BitVec.toNat_or, BitVec.toNat_ofNat, Nat.mod_eq_of_lt hlt]

/-- A field of the low byte of a number is the number shifted down to it: the bits above the byte play no part. -/
theorem extractLsb'_ofNat_byte (n : Nat) {start width : Nat} (hfit : start + width ≤ 8) :
    (BitVec.ofNat 8 n).extractLsb' start width = BitVec.ofNat width (n >>> start) := by
  apply BitVec.eq_of_getLsbD_eq
  intro i hi
  have hbyte : start + i < 8 := by omega
  simp only [BitVec.getLsbD_extractLsb', BitVec.getLsbD_ofNat, Nat.testBit_shiftRight, hi, hbyte,
    decide_true, Bool.true_and]

theorem pageByte_eq_fields (page : Nat) :
    pageByte page = 0b10110#5 ++ (BitVec.ofNat 8 page).extractLsb' 0 3 := by
  rw [pageByte_eq, setPageByte, extractLsb'_ofNat_byte page (by decide), Nat.shiftRight_zero]

theorem colLoByte_eq_fields (column : Nat) :
    colLoByte column = 0b0000#4 ++ (BitVec.ofNat 8 column).extractLsb' 0 4 := by
  rw [colLoByte_eq, setColLoByte, extractLsb'_ofNat_byte column (by decide), Nat.shiftRight_zero]

theorem colHiByte_eq_fields (column : Nat) :
    colHiByte column = 0b0001#4 ++ (BitVec.ofNat 8 column).extractLsb' 4 4 := by
  rw [colHiByte_eq, setColHiByte, extractLsb'_ofNat_byte column (by decide), Nat.shiftRight_eq_div_pow]

/-- Settles O5: the formulas because the operand is masked below 256, the fields by the byte of each command. -/
theorem addressingBytes : Obligations.AddressingBytes := fun page column =>
  ⟨toNat_or_ofNat_masked 0xB0#8 page (by decide),
    toNat_or_ofNat_masked 0x00#8 column (by decide),
    toNat_or_ofNat_masked 0x10#8 (column >>> 4) (by decide),
    pageByte_eq_fields page, colLoByte_eq_fields column, colHiByte_eq_fields column⟩

end Sys2Proof.Machine
end

section
/-!
PROOF. `SETPAGE` and `SETCOLLO` at the target by their masks (R52, R53): with no argument awaited the target decodes
the byte, and the masks of the two commands exclude each other, so each byte reaches its own line of R80.
-/

namespace Sys2Proof.Machine

/-- With no argument awaited a command byte is decoded (R80). -/
theorem cmd_of_pend_none (v : Byte) {t : Target} (hpend : t.pend = none) : t.cmd v = t.decoded v := by
  simp only [Target.cmd, hpend]

/-- The low three bits of a byte are a field of it, masked or not. -/
theorem extractLsb'_low_masked (v : Byte) : (v &&& 0x07#8).extractLsb' 0 3 = v.extractLsb' 0 3 := by
  have hones : (0x07#8).extractLsb' 0 3 = BitVec.allOnes 3 := by decide
  rw [BitVec.extractLsb'_and, hones, BitVec.and_allOnes]

/-- The high four bits of a `SETPAGE` byte are `1011`, so no other addressing command's mask takes it. -/
theorem highNibble_of_setpage {v : Byte} (hmask : v &&& 0xF8#8 = 0xB0#8) : v &&& 0xF0#8 = 0xB0#8 := by
  calc v &&& 0xF0#8 = v &&& 0xF8#8 &&& 0xF0#8 := (BitVec.and_assoc v 0xF8#8 0xF0#8).symm
    _ = 0xB0#8 &&& 0xF0#8 := by rw [hmask]
    _ = 0xB0#8 := by decide

theorem decoded_of_setpage {v : Byte} (t : Target) (hmask : v &&& 0xF8#8 = 0xB0#8) :
    t.decoded v = some (t.setPage (v.extractLsb' 0 3)) :=
  if_pos hmask

theorem decoded_of_setcollo {v : Byte} (t : Target) (hmask : v &&& 0xF0#8 = 0x00#8) :
    t.decoded v = some (t.setColLo (v.extractLsb' 0 4)) := by
  have hpage : ¬ v &&& 0xF8#8 = 0xB0#8 := fun hpage =>
    absurd (hmask.symm.trans (highNibble_of_setpage hpage)) (by decide)
  exact (if_neg hpage).trans (if_pos hmask)

/-- Settles O16: each byte is decoded, by the line of R80 that its mask selects. -/
theorem pageAndLowColumn : Obligations.PageAndLowColumn := by
  intro v t hpend
  rw [cmd_of_pend_none v hpend, extractLsb'_low_masked]
  exact ⟨decoded_of_setpage t, decoded_of_setcollo t⟩

end Sys2Proof.Machine
end

section
/-!
PROOF. Glyph codes (42_font_expander.md R58) and bit doubling (R61). The codes are the biased bytes as signed
integers, so their ranges are the range of a byte, shifted. The doubled byte is eight one-bit fields: bit `k` of it is
bit `k / 2` of the nibble.
-/

namespace Sys2Proof.Machine

/-- The code of a character (R58), with the value of `CHAR_BIAS`. -/
theorem glyphCode_char (c : Byte) : glyphCode (.char c) = (c.toNat : Int) - 0x20 := rfl

/-- The code of an integer (R58), with the value of `INDEX_BIAS`. -/
theorem glyphCode_index (n : Byte) : glyphCode (.index n) = (n.toNat : Int) + 0x10 := rfl

theorem glyphCode_char_range (c : Byte) : -32 ≤ glyphCode (.char c) ∧ glyphCode (.char c) ≤ 223 := by
  have hbyte : c.toNat < 256 := c.isLt
  rw [glyphCode_char]
  omega

theorem glyphCode_index_range (n : Byte) : 16 ≤ glyphCode (.index n) ∧ glyphCode (.index n) ≤ 271 := by
  have hbyte : n.toNat < 256 := n.isLt
  rw [glyphCode_index]
  omega

/-- The digit characters start `0x30` above the integers, which is the distance of the two biases. -/
theorem glyphCode_index_eq_char {n : Byte} (hfit : n.toNat + 0x30 < 256) :
    glyphCode (.index n) = glyphCode (.char (n + 0x30#8)) := by
  have hsum : (n + 0x30#8).toNat = n.toNat + 0x30 := BitVec.toNat_add_of_lt hfit
  rw [glyphCode_index, glyphCode_char, hsum]
  omega

/-- Settles O20: each clause is the lemma of its kind of source. -/
theorem glyphCodes : Obligations.GlyphCodes :=
  ⟨glyphCode_char, glyphCode_index, glyphCode_char_range, glyphCode_index_range, fun _ => glyphCode_index_eq_char⟩

/-- A one-bit field at the low end of a word: bit 0 is the field's, every other bit is one of the word above it. -/
theorem getLsbD_append_bit {w : Nat} (high : BitVec w) (n : BitVec 4) (i k : Nat) :
    (high ++ n.extractLsb' i 1).getLsbD k = if k = 0 then n.getLsbD i else high.getLsbD (k - 1) := by
  rw [BitVec.getLsbD_append, BitVec.getLsbD_extractLsb']
  cases k with
  | zero => rfl
  | succ k => simp

/-- Bit `k` of the doubled byte is the one bit of its field number `k`, counted from the low end (R61). -/
theorem getLsbD_dbl4 (n : BitVec 4) {k : Nat} (hk : k < 8) : (dbl4 n).getLsbD k = n.getLsbD (k / 2) := by
  simp only [dbl4, getLsbD_append_bit]
  interval_cases k <;> simp

/-- Settles O21: halving `2i` and `2i + 1` both give `i`. -/
theorem bitDoubling : Obligations.BitDoubling := by
  intro n i
  have heven : 2 * i.val / 2 = i.val := by omega
  have hodd : (2 * i.val + 1) / 2 = i.val := by omega
  rw [getLsbD_dbl4 n (by omega), getLsbD_dbl4 n (by omega), heven, hodd]
  exact ⟨rfl, rfl⟩

end Sys2Proof.Machine
end

section
/-!
PROOF. The chunks of a stream (43_framebuffer_writer.md R68): chunk `i` is the slice at `32 i`, so the first `k`
chunks are the first `32 k` bytes, and `ceil(N / 32)` chunks reach the end of the data.
-/

namespace Sys2Proof.Machine

@[simp] theorem length_chunks (data : List Byte) : (chunks data).length = chunkCount data.length := by
  simp [chunks]

@[simp] theorem getElem_chunks (data : List Byte) {i : Nat} (h : i < (chunks data).length) :
    (chunks data)[i] = chunkAt data (chunkMax * i) := by
  simp [chunks]

/-- The model's slice, which stops by itself at the end of the data, is R68's, which stops at the least of its ends. -/
theorem chunkAt_eq_slice (data : List Byte) (off : Nat) :
    chunkAt data off = (data.drop off).take (min (off + chunkMax) data.length - off) := by
  rw [chunkAt, List.take_eq_take_iff, List.length_drop]
  omega

/-- A slice whose 32 bytes all lie in the data is a full chunk. -/
theorem length_chunkAt_of_fits {data : List Byte} {off : Nat} (hfits : off + chunkMax ≤ data.length) :
    (chunkAt data off).length = chunkMax := by
  rw [chunkAt, List.length_take, List.length_drop]
  omega

/-- Every chunk begins inside the data. -/
theorem chunkMax_mul_lt_of_lt_chunkCount {i n : Nat} (h : i < chunkCount n) : chunkMax * i < n := by
  simp only [chunkCount, chunkMax] at *
  omega

/-- The chunks reach the end of the data. -/
theorem le_chunkMax_mul_chunkCount (n : Nat) : n ≤ chunkMax * chunkCount n := by
  simp only [chunkCount, chunkMax]
  omega

/-- The first `k` chunks put together are the first `32 k` bytes. -/
theorem flatten_chunkAt_range (data : List Byte) (k : Nat) :
    ((List.range k).map (fun i => chunkAt data (chunkMax * i))).flatten = data.take (chunkMax * k) := by
  induction k with
  | zero => simp
  | succ k ih =>
    rw [List.range_succ, List.map_append, List.flatten_append, ih, Nat.mul_succ, List.take_add]
    simp [chunkAt]

theorem flatten_chunks (data : List Byte) : (chunks data).flatten = data := by
  rw [chunks, flatten_chunkAt_range, List.take_of_length_le (le_chunkMax_mul_chunkCount data.length)]

/-- A chunk with another behind it is full, because the other one begins inside the data. -/
theorem length_chunkAt_of_not_last {data : List Byte} {i : Nat} (h : i + 1 < chunkCount data.length) :
    (chunkAt data (chunkMax * i)).length = chunkMax :=
  length_chunkAt_of_fits (chunkMax_mul_lt_of_lt_chunkCount h).le

/-- Settles O26: the count and the slices are the definition's, the rest `flatten_chunks` and
`length_chunkAt_of_not_last`. The empty stream, which R68 leaves out, has no chunks and is no exception. -/
theorem chunkRule : Obligations.ChunkRule := by
  intro data _
  refine ⟨length_chunks data, fun i h => ?slice, flatten_chunks data, fun i h hnext => ?full⟩
  case slice => exact (getElem_chunks data h).trans (chunkAt_eq_slice data (chunkMax * i))
  case full =>
    rw [length_chunks] at hnext
    rw [getElem_chunks data h]
    exact length_chunkAt_of_not_last hnext

end Sys2Proof.Machine
end

section
/-!
PROOF. Encode and decode (30_encoding.md sections 2 and 3). Request decode is a case split on the header's fields
(`decodeRequest_fields`), command decode one on the first byte; in each branch the fields fix the instruction, and
the instruction fixes the fields.
-/

namespace Sys2Proof

/-! ## Payloads of a given length -/

theorem withPayload_append {n : Nat} {bs : List Byte} (h : bs.length = n) (more : List Byte)
    (mk : List Byte → Instr) : withPayload n (bs ++ more) mk = .ok (mk bs, more) := by
  rw [withPayload, ← h, takeExact_append]

/-- A payload that is taken has the length asked for, and the rest follows it. -/
theorem withPayload_eq_ok {n : Nat} {pl more : List Byte} {mk : List Byte → Instr} {i : Instr}
    (h : withPayload n pl mk = .ok (i, more)) : ∃ bs, bs.length = n ∧ pl = bs ++ more ∧ i = mk bs := by
  unfold withPayload at h
  split at h <;> cases h
  next bs htake =>
    obtain ⟨hpl, hlen⟩ := takeExact_some htake
    exact ⟨bs, hlen, hpl, rfl⟩

/-! ## Decode of an encoding -/

theorem decodeCommand_setPageByte (p : BitVec 3) (more : List Byte) :
    decodeCommand (setPageByte p :: more) = .ok (.setpage p, more) := by
  have h : setPageByte p &&& 0xF8#8 = 0xB0#8 ∧ (setPageByte p).extractLsb' 0 3 = p := by revert p; decide
  simp only [decodeCommand, h, if_true]

theorem decodeCommand_setColLoByte (l : BitVec 4) (more : List Byte) :
    decodeCommand (setColLoByte l :: more) = .ok (.setcollo l, more) := by
  have h : ¬ setColLoByte l &&& 0xF8#8 = 0xB0#8 ∧ setColLoByte l &&& 0xF0#8 = 0x00#8 ∧
      (setColLoByte l).extractLsb' 0 4 = l := by revert l; decide
  simp only [decodeCommand, h, if_true, if_false]

theorem decodeCommand_setColHiByte (l : BitVec 4) (more : List Byte) :
    decodeCommand (setColHiByte l :: more) = .ok (.setcolhi l, more) := by
  have h : ¬ setColHiByte l &&& 0xF8#8 = 0xB0#8 ∧ ¬ setColHiByte l &&& 0xF0#8 = 0x00#8 ∧
      setColHiByte l &&& 0xF0#8 = 0x10#8 ∧ (setColHiByte l).extractLsb' 0 4 = l := by revert l; decide
  obtain ⟨hpage, hlo, hhi, hl⟩ := h
  simp only [decodeCommand, if_neg hpage, if_neg hlo, if_pos hhi, hl]

/-- Settles O1: a request by its header's fields and its payload's length, a command by its first byte. -/
theorem encodeThenDecode : Obligations.EncodeThenDecode := by
  intro i more hwf
  cases i <;> simp only [encode, Words.append, decode, List.cons_append, List.nil_append]
  case init | clear | setpos | drawglyph => exact decodeRequest_fields ..
  case write p c bs | drawstr p c bs =>
    have hlen : bs.length ≤ 4095 := of_decide_eq_true hwf
    have hfield : (BitVec.ofNat 12 bs.length).toNat = bs.length := Nat.mod_eq_of_lt (by omega)
    exact (decodeRequest_fields ..).trans (withPayload_append hfield.symm more _)
  case drawicon p c bs | drawimg p c bs =>
    exact (decodeRequest_fields ..).trans (withPayload_append (of_decide_eq_true hwf) more _)
  case setpage p => exact decodeCommand_setPageByte p more
  case setcollo l => exact decodeCommand_setColLoByte l more
  case setcolhi l => exact decodeCommand_setColHiByte l more
  case initAE | init40 | initA1 | initC8 | initA4 | initA6 | initAF => rfl
  case initD5 | initA8 | initD3 | init8D | init20 | initDA | init81 | initD9 | initDB => rfl

/-! ## Encoding of what was decoded -/

/-- A 12-bit field is that of the length it gives. -/
theorem ofNat_length_of_field {len : BitVec 12} {bs : List Byte} (h : bs.length = len.toNat) :
    BitVec.ofNat 12 bs.length = len := by
  rw [h, BitVec.ofNat_toNat, BitVec.setWidth_eq]

theorem request_eq_encode_append {h : Header} {pl more : List Byte} {i : Instr}
    (hd : decodeRequest h pl = .ok (i, more)) : Words.request h pl = (encode i).append more := by
  rw [← header_of_fields h] at hd ⊢
  rw [decodeRequest_fields] at hd
  generalize headerOpc h = o, headerLen h = l, headerPage h = p, headerColumn h = c at hd ⊢
  split at hd
  case isTrue hinit =>
    obtain ⟨rfl, rfl, rfl, rfl⟩ := hinit
    cases hd
    rfl
  split at hd
  case isTrue hsetpos =>
    obtain ⟨rfl, rfl⟩ := hsetpos
    cases hd
    rfl
  split at hd
  case isTrue hwrite =>
    subst hwrite
    obtain ⟨bs, hlen, rfl, rfl⟩ := withPayload_eq_ok hd
    simp only [encode, Words.append, ofNat_length_of_field hlen]
  split at hd
  case isTrue hglyph =>
    subst hglyph
    split at hd <;> cases hd
    rfl
  split at hd
  case isTrue hstr =>
    subst hstr
    obtain ⟨bs, hlen, rfl, rfl⟩ := withPayload_eq_ok hd
    simp only [encode, Words.append, ofNat_length_of_field hlen]
  split at hd
  case isTrue hicon =>
    obtain ⟨rfl, rfl⟩ := hicon
    obtain ⟨bs, -, rfl, rfl⟩ := withPayload_eq_ok hd
    rfl
  split at hd
  case isTrue himg =>
    obtain ⟨rfl, rfl⟩ := himg
    obtain ⟨bs, -, rfl, rfl⟩ := withPayload_eq_ok hd
    rfl
  split at hd <;> cases hd
  case isTrue.refl hclear =>
    obtain ⟨rfl, rfl, rfl, rfl⟩ := hclear
    rfl

theorem plainCommand_eq_some {v : Byte} {i : Instr} (h : plainCommand v = some i) : encode i = .command [v] := by
  simp only [plainCommand, ite_eq_iff, Option.some.injEq, reduceCtorEq, and_false, or_false] at h
  rcases h with ⟨rfl, rfl⟩ | ⟨-, ⟨rfl, rfl⟩ | ⟨-, ⟨rfl, rfl⟩ | ⟨-, ⟨rfl, rfl⟩ | ⟨-, ⟨rfl, rfl⟩ | ⟨-, ⟨rfl, rfl⟩ |
    ⟨-, rfl, rfl⟩⟩⟩⟩⟩⟩ <;> rfl

theorem argCommand_eq_some {v a : Byte} {i : Instr} (h : argCommand v a = some i) : encode i = .command [v, a] := by
  have hmem : v ∈ argCommands := by
    by_contra hv
    simp only [argCommands, List.mem_cons, not_or] at hv
    simp [argCommand, hv] at h
  simp only [argCommands, List.mem_cons, List.not_mem_nil, or_false] at hmem
  rcases hmem with rfl | rfl | rfl | rfl | rfl | rfl | rfl | rfl | rfl <;> cases h <;> rfl

theorem setPageByte_of_mask {v : Byte} (h : v &&& 0xF8#8 = 0xB0#8) : setPageByte (v.extractLsb' 0 3) = v := by
  revert v; decide

theorem setColLoByte_of_mask {v : Byte} (h : v &&& 0xF0#8 = 0x00#8) : setColLoByte (v.extractLsb' 0 4) = v := by
  revert v; decide

theorem setColHiByte_of_mask {v : Byte} (h : v &&& 0xF0#8 = 0x10#8) : setColHiByte (v.extractLsb' 0 4) = v := by
  revert v; decide

theorem command_eq_encode_append {bs more : List Byte} {i : Instr} (hd : decodeCommand bs = .ok (i, more)) :
    Words.command bs = (encode i).append more := by
  unfold decodeCommand at hd
  split at hd
  · cases hd
  next v rest =>
    split_ifs at hd with hpage hlo hhi
    · cases hd
      simp only [encode, setPageByte_of_mask hpage, Words.append, List.singleton_append]
    · cases hd
      simp only [encode, setColLoByte_of_mask hlo, Words.append, List.singleton_append]
    · cases hd
      simp only [encode, setColHiByte_of_mask hhi, Words.append, List.singleton_append]
    · split at hd
      next hplain =>
        cases hd
        rw [plainCommand_eq_some hplain]
        rfl
      next =>
        unfold decodeArg at hd
        split at hd
        · split at hd <;> cases hd
        · split at hd <;> cases hd
          next harg =>
            rw [argCommand_eq_some harg]
            rfl

/-- Settles O2: the fields, or the first byte, of the words are those of the instruction decoded. -/
theorem decodeThenEncode : Obligations.DecodeThenEncode := by
  intro w i more hd
  cases w with
  | request h pl => exact ⟨decodeRequest_wellFormed hd, request_eq_encode_append hd⟩
  | command bs => exact ⟨decodeCommand_wellFormed hd, command_eq_encode_append hd⟩

end Sys2Proof
end

section
/-!
PROOF. Which headers are illegal and how many payload bytes a header takes (30_encoding.md R47, R49). A legal header
is an instruction made of a fixed number of payload bytes (`decodeRequest_shape`); an illegal one lies in no row of
R43.
-/

namespace Sys2Proof

theorem withPayload_ne_illegal (n : Nat) (pl : List Byte) (mk : List Byte → Instr) :
    withPayload n pl mk ≠ .error .illegalRequest := by
  unfold withPayload
  split <;> simp

/-- That a header lies in a row, on the numbers of the opcode table and on words. -/
theorem toNat_and_eq_iff (h : Header) {mask pattern : Nat} (hm : mask < 2 ^ 32) (hp : pattern < 2 ^ 32) :
    h.toNat &&& mask = pattern ↔ h &&& BitVec.ofNat 32 mask = BitVec.ofNat 32 pattern := by
  rw [← BitVec.toNat_inj, BitVec.toNat_and, BitVec.toNat_ofNat, BitVec.toNat_ofNat, Nat.mod_eq_of_lt hm,
    Nat.mod_eq_of_lt hp]

/-- A header is illegal exactly when it lies in no row of the opcode map (R47). -/
theorem decodeRequest_illegal_iff (h : Header) (pl : List Byte) :
    decodeRequest h pl = .error .illegalRequest ↔ ∀ r ∈ requestRows, h.toNat &&& r.mask ≠ r.pattern := by
  have hfits : ∀ r ∈ requestRows, r.mask < 2 ^ 32 ∧ r.pattern < 2 ^ 32 := by decide
  have hwords : (∀ r ∈ requestRows, h.toNat &&& r.mask ≠ r.pattern) ↔
      ∀ r ∈ requestRows, h &&& BitVec.ofNat 32 r.mask ≠ BitVec.ofNat 32 r.pattern :=
    forall₂_congr fun r hr => not_congr (toNat_and_eq_iff h (hfits r hr).1 (hfits r hr).2)
  rw [hwords]
  simp only [requestRows, List.forall_mem_cons, List.not_mem_nil, false_imp_iff, implies_true, and_true, ne_eq]
  unfold decodeRequest
  split_ifs with hinit hsetpos hwrite hglyph hstr hicon himg hclear
  · simp [hinit]
  · simp [hsetpos]
  · simp [hwrite, withPayload_ne_illegal]
  · cases pl <;> simp [hglyph]
  · simp [hstr, withPayload_ne_illegal]
  · simp [hicon, withPayload_ne_illegal]
  · simp [himg, withPayload_ne_illegal]
  · simp [hclear]
  · simp [hinit, hsetpos, hwrite, hglyph, hstr, hicon, himg, hclear]

/-- The opcodes with a row of their own, and the ones with none. -/
theorem opcode_cases (o : BitVec 4) :
    o = 0#4 ∨ o = 1#4 ∨ o = 2#4 ∨ o = 3#4 ∨ o = 4#4 ∨ o = 5#4 ∨ o = 6#4 ∨ o = 7#4 ∨
      (8 ≤ o.toNat ∧ o ∉ [0#4, 1#4, 2#4, 3#4, 4#4, 5#4, 6#4, 7#4]) := by
  revert o; decide

theorem decodeRequest_illegal_iff_fields (o : BitVec 4) (l : BitVec 12) (p c : Byte) (pl : List Byte) :
    decodeRequest (requestHeader o l p c) pl = .error .illegalRequest ↔
      8 ≤ o.toNat ∨ ((o = 0#4 ∨ o = 7#4) ∧ ¬ (l = 0#12 ∧ p = 0#8 ∧ c = 0#8)) ∨ (o = 1#4 ∧ l ≠ 0#12) ∨
        (o = 5#4 ∧ l ≠ 32#12) ∨ (o = 6#4 ∧ l ≠ 384#12) := by
  rw [decodeRequest_fields]
  rcases opcode_cases o with rfl | rfl | rfl | rfl | rfl | rfl | rfl | rfl | ⟨hbig, hno⟩
  · simp
  · simp
  · simp [withPayload_ne_illegal]
  · cases pl <;> simp
  · simp [withPayload_ne_illegal]
  · simp [withPayload_ne_illegal]
  · simp [withPayload_ne_illegal]
  · simp
  · simp only [List.mem_cons, not_or] at hno
    simp [hbig, hno]

/-- Settles O3: the rows are the branches of decode, and so are the opcodes. -/
theorem illegalHeaders : Obligations.IllegalHeaders := fun o l p c pl =>
  ⟨decodeRequest_illegal_iff _ pl, decodeRequest_illegal_iff_fields o l p c pl⟩

/-! ## The payload a header takes -/

theorem withPayload_zero (pl : List Byte) (mk : List Byte → Instr) : withPayload 0 pl mk = .ok (mk [], pl) := rfl

theorem withPayload_of_le {n : Nat} {pl : List Byte} (h : n ≤ pl.length) (mk : List Byte → Instr) :
    withPayload n pl mk = .ok (mk (pl.take n), pl.drop n) := by
  have htake := takeExact_append (pl.take n) (pl.drop n)
  rw [List.length_take_of_le h, List.take_append_drop] at htake
  rw [withPayload, htake]

theorem withPayload_of_lt {n : Nat} {pl : List Byte} (h : pl.length < n) (mk : List Byte → Instr) :
    withPayload n pl mk = .error .payloadShort := by
  rw [withPayload, takeExact_none.mpr h]

theorem impliedPayload_fields (o : BitVec 4) (l : BitVec 12) (p c : Byte) :
    impliedPayload (requestHeader o l p c) =
      if o = 2#4 then l.toNat
      else if o = 3#4 then 1
      else if o = 4#4 then l.toNat
      else if o = 5#4 ∧ l = 32#12 then 32
      else if o = 6#4 ∧ l = 384#12 then 384
      else 0 := by
  unfold impliedPayload
  rw [and_lenMask, and_opcMask,
    show 0x20000000#32 = requestHeader 2#4 0#12 0#8 0#8 from rfl,
    show 0x30000000#32 = requestHeader 3#4 0#12 0#8 0#8 from rfl,
    show 0x40000000#32 = requestHeader 4#4 0#12 0#8 0#8 from rfl,
    show 0x50200000#32 = requestHeader 5#4 32#12 0#8 0#8 from rfl,
    show 0x61800000#32 = requestHeader 6#4 384#12 0#8 0#8 from rfl]
  simp only [requestHeader_inj, and_true, headerLen_requestHeader]

/-- A header is illegal whatever the payload, or it is its implied number of payload bytes, made into an
instruction (R47, R49). -/
theorem decodeRequest_shape (h : Header) :
    (∀ pl, decodeRequest h pl = .error .illegalRequest) ∨
      ∃ mk, ∀ pl, decodeRequest h pl = withPayload (impliedPayload h) pl mk := by
  rw [← header_of_fields h]
  generalize headerOpc h = o, headerLen h = l, headerPage h = p, headerColumn h = c
  simp only [decodeRequest_fields, impliedPayload_fields]
  rcases opcode_cases o with rfl | rfl | rfl | rfl | rfl | rfl | rfl | rfl | ⟨-, hno⟩
  · by_cases hz : l = 0#12 ∧ p = 0#8 ∧ c = 0#8
    · exact .inr ⟨fun _ => .init, fun pl => by simp [hz, withPayload_zero]⟩
    · exact .inl fun pl => by simp [hz]
  · by_cases hz : l = 0#12
    · exact .inr ⟨fun _ => .setpos p c, fun pl => by simp [hz, withPayload_zero]⟩
    · exact .inl fun pl => by simp [hz]
  · exact .inr ⟨.write p c, fun pl => by simp⟩
  · exact .inr ⟨fun bs => .drawglyph p c l (bs.headD 0), fun pl => by cases pl <;> simp [withPayload, takeExact]⟩
  · exact .inr ⟨.drawstr p c, fun pl => by simp⟩
  · by_cases hlen : l = 32#12
    · exact .inr ⟨.drawicon p c, fun pl => by simp [hlen]⟩
    · exact .inl fun pl => by simp [hlen]
  · by_cases hlen : l = 384#12
    · exact .inr ⟨.drawimg p c, fun pl => by simp [hlen]⟩
    · exact .inl fun pl => by simp [hlen]
  · by_cases hz : l = 0#12 ∧ p = 0#8 ∧ c = 0#8
    · exact .inr ⟨fun _ => .clear, fun pl => by simp [hz, withPayload_zero]⟩
    · exact .inl fun pl => by simp [hz]
  · simp only [List.mem_cons, not_or] at hno
    exact .inl fun pl => by simp [hno]

/-- Settles O4: a legal header takes its implied payload whole, from any port that has it. -/
theorem payloadLength : Obligations.PayloadLength := by
  intro h pl
  rcases decodeRequest_shape h with hill | ⟨mk, hmk⟩
  · simp [hill]
  · rw [hmk]
    rcases Nat.lt_or_ge pl.length (impliedPayload h) with hlt | hle
    · simp [withPayload_of_lt hlt, hlt]
    · simp [withPayload_of_le hle, hle]

/-- Settles O6: each word is decoded by running the decoder. -/
theorem sampleWords : Obligations.SampleWords := ⟨rfl, rfl, rfl, rfl, rfl, rfl, rfl⟩

end Sys2Proof
end

section
/-!
PROOF. The commands at the target (41_addressing_engine.md R52 to R57, 46_display_controller.md R80): what each
command byte does with no argument awaited, what the argument of a two-byte command does, and that executing a
command is giving the target its bytes.
-/

namespace Sys2Proof.Machine

/-! ## One byte -/

theorem cmd_of_pend_some (v : Byte) {c : Byte} {t : Target} (hpend : t.pend = some c) :
    t.cmd v = some (t.argument c v) := by
  simp only [Target.cmd, hpend]

theorem decoded_of_setcolhi {v : Byte} (t : Target) (hmask : v &&& 0xF0#8 = 0x10#8) :
    t.decoded v = some (t.setColHi (v.extractLsb' 0 4)) := by
  have hpage : ¬ v &&& 0xF8#8 = 0xB0#8 := fun hpage =>
    absurd (hmask.symm.trans (highNibble_of_setpage hpage)) (by decide)
  have hlo : ¬ v &&& 0xF0#8 = 0x00#8 := by rw [hmask]; decide
  exact (if_neg hpage).trans ((if_neg hlo).trans (if_pos hmask))

/-- The nine commands that take an argument wait for it (R80). -/
theorem decoded_of_mem_argCommands {v : Byte} (t : Target) (h : v ∈ argCommands) :
    t.decoded v = some (t.await v) := by
  have hmask : ∀ v ∈ argCommands, ¬ v &&& 0xF8#8 = 0xB0#8 ∧ ¬ v &&& 0xF0#8 = 0x00#8 ∧ ¬ v &&& 0xF0#8 = 0x10#8 := by
    decide
  obtain ⟨hpage, hlo, hhi⟩ := hmask v h
  simp only [Target.decoded, if_neg hpage, if_neg hlo, if_neg hhi, if_pos h]

/-- The seven one-byte initialization commands have no effect (R80). -/
theorem decoded_of_mem_plainCommands {v : Byte} (t : Target) (h : v ∈ plainCommands) : t.decoded v = some t := by
  have hmask : ∀ v ∈ plainCommands, ¬ v &&& 0xF8#8 = 0xB0#8 ∧ ¬ v &&& 0xF0#8 = 0x00#8 ∧ ¬ v &&& 0xF0#8 = 0x10#8 ∧
      v ∉ argCommands := by decide
  obtain ⟨hpage, hlo, hhi, harg⟩ := hmask v h
  simp only [Target.decoded, if_neg hpage, if_neg hlo, if_neg hhi, if_neg harg, if_pos h]

/-- Settles O17: the byte is decoded by its line of R80, which uses the low three bits of its operand. -/
theorem highColumn : Obligations.HighColumn := by
  intro v t hpend hmask
  have hfield : (v.extractLsb' 0 4).extractLsb' 0 3 = v.extractLsb' 0 3 := by revert v; decide
  rw [cmd_of_pend_none v hpend, decoded_of_setcolhi t hmask, Target.setColHi, hfield]

/-- Settles O38: the byte is the awaited argument. -/
theorem argumentIsNotDecoded : Obligations.ArgumentIsNotDecoded := by
  intro v cmd t hpend
  refine ⟨t.argument cmd v, cmd_of_pend_some v hpend, rfl, rfl, rfl, rfl, rfl, fun _ _ => rfl, ?other, ?mode⟩
  case other => exact fun hne => by rw [Target.argument_mode, if_neg hne]
  case mode => exact fun heq => by rw [Target.argument_mode, if_pos heq]

/-! ## A command as an instruction -/

/-- The state after the target has taken command bytes one after the other, with nothing else changed. -/
def State.takeBytes (bs : List Byte) (s : State) : State :=
  { s with target := s.target.bind (Target.applyAll (bs.map Txn.cmd)) }

theorem takeBytes_nil (s : State) : s.takeBytes [] = s := by
  have hbind : s.target.bind (Target.applyAll []) = s.target := by cases s.target <;> rfl
  rw [State.takeBytes, List.map_nil, hbind]

theorem takeBytes_cons (v : Byte) (bs : List Byte) (s : State) :
    s.takeBytes (v :: bs) = (s.receive v).takeBytes bs := by
  unfold State.takeBytes State.receive State.deliver
  cases s.target <;> rfl

/-- A command whose effect is what its byte is decoded to is that byte, awaited argument or not (R80). -/
theorem command_eq_takeBytes {v : Byte} {eff : Target → Target} (h : ∀ t, Target.decoded v t = some (eff t))
    (s : State) : s.command v eff = s.takeBytes [v] := by
  rw [takeBytes_cons, takeBytes_nil]
  unfold State.command State.receive State.deliver
  congr 1
  cases s.target with
  | none => rfl
  | some t =>
    cases hpend : t.pend with
    | none => simp only [Option.map_some, Option.bind_some, hpend, Target.apply, cmd_of_pend_none v hpend, h]
    | some c => simp only [Option.map_some, Option.bind_some, hpend, Target.apply, cmd_of_pend_some v hpend]

/-- A one-byte initialization command is its byte. -/
theorem plain_eq_takeBytes {v : Byte} (h : v ∈ plainCommands) (s : State) : s.command v id = s.takeBytes [v] :=
  command_eq_takeBytes (fun t => decoded_of_mem_plainCommands t h) s

/-- A two-byte command is its two bytes. -/
theorem command2_eq_takeBytes {c : Byte} (h : c ∈ argCommands) (arg : Byte) (s : State) :
    s.command2 c arg = s.takeBytes [c, arg] := by
  rw [State.command2, command_eq_takeBytes (fun t => decoded_of_mem_argCommands t h), takeBytes_cons c,
    takeBytes_cons c, takeBytes_cons arg, takeBytes_nil, takeBytes_nil]

/-- A target command is the bytes of its encoding (R80). -/
theorem exec_command {i : Instr} {bs : List Byte} (h : encode i = .command bs) (s : State) :
    exec i s = .next (s.takeBytes bs) := by
  cases i <;> simp only [encode, reduceCtorEq, Words.command.injEq] at h <;> subst h
  case setpage p => exact congrArg _ (command_eq_takeBytes (decoded_setPageByte p) s)
  case setcollo l => exact congrArg _ (command_eq_takeBytes (decoded_setColLoByte l) s)
  case setcolhi l => exact congrArg _ (command_eq_takeBytes (decoded_setColHiByte l) s)
  case initAE | init40 | initA1 | initC8 | initA4 | initA6 | initAF =>
    exact congrArg _ (plain_eq_takeBytes (by decide) s)
  case initD5 | initA8 | initD3 | init8D | init20 | initDA | init81 | initD9 | initDB =>
    exact congrArg _ (command2_eq_takeBytes (by decide) _ s)

/-- Settles O39: each command is its bytes (`exec_command`). -/
theorem commandIsItsBytes : Obligations.CommandIsItsBytes := fun _ _ s h => exec_command h s

/-! ## Commands that find no argument awaited -/

/-- A command at a target that awaits no argument has its effect. -/
theorem command_of_pend_none {s : State} {t : Target} (ht : s.target = some t) (hpend : t.pend = none) (v : Byte)
    (eff : Target → Target) : s.command v eff = { s with target := some (eff t) } := by
  simp only [State.command, ht, Option.map_some, hpend]

/-- A two-byte command at a target that awaits no argument ends with its argument taken. -/
theorem command2_of_pend_none {s : State} {t : Target} (ht : s.target = some t) (hpend : t.pend = none)
    (c arg : Byte) : s.command2 c arg = { s with target := some ((t.await c).argument c arg) } := by
  rw [State.command2, command_of_pend_none ht hpend]
  rfl

/-- Waiting for an argument and taking it changes the mode, if the command is `0x20`, and nothing else. -/
theorem await_argument {t : Target} (hpend : t.pend = none) (c arg : Byte) :
    (t.await c).argument c arg =
      { t with mode := if c = 0x20#8 then (if arg = 0x00#8 then .horiz else .other) else t.mode } := by
  simp only [Target.await, Target.argument, hpend]

/-- Settles O18: each command has its effect on the cursor. -/
theorem addressingCommandsEnd : Obligations.AddressingCommandsEnd := by
  intro s t ht hpend
  exact ⟨fun _ => congrArg _ (command_of_pend_none ht hpend _ _),
    fun _ => congrArg _ (command_of_pend_none ht hpend _ _),
    fun _ => congrArg _ (command_of_pend_none ht hpend _ _)⟩

/-- Settles O36: the effect of a one-byte initialization command is none. -/
theorem oneByteCommandsEnd : Obligations.OneByteCommandsEnd := by
  intro s t ht hpend
  have hsame (v : Byte) : s.command v id = s := by
    rw [command_of_pend_none ht hpend, id, ← ht]
  exact ⟨congrArg _ (hsame _), congrArg _ (hsame _), congrArg _ (hsame _), congrArg _ (hsame _),
    congrArg _ (hsame _), congrArg _ (hsame _), congrArg _ (hsame _)⟩

/-- Settles O37: the argument changes the mode if the command is `0x20`, and nothing otherwise. -/
theorem twoByteCommandsEnd : Obligations.TwoByteCommandsEnd := by
  intro s t a ht hpend
  have hsame (c : Byte) (hc : c ≠ 0x20#8) : s.command2 c a = s := by
    rw [command2_of_pend_none ht hpend, await_argument hpend, if_neg hc, ← ht]
  have hmode : s.command2 0x20#8 a =
      { s with target := some { t with mode := if a = 0x00#8 then .horiz else .other } } := by
    rw [command2_of_pend_none ht hpend, await_argument hpend, if_pos rfl]
  exact ⟨congrArg _ (hsame _ (by decide)), congrArg _ (hsame _ (by decide)), congrArg _ (hsame _ (by decide)),
    congrArg _ (hsame _ (by decide)), congrArg _ (hsame _ (by decide)), congrArg _ (hsame _ (by decide)),
    congrArg _ (hsame _ (by decide)), congrArg _ (hsame _ (by decide)), congrArg _ hmode⟩

end Sys2Proof.Machine
end

section
/-!
PROOF. The cursor and the data byte (41_addressing_engine.md R55 to R57): the three addressing bytes set the cursor to
the masked operands, and a data byte is stored at the cursor's cell, which moves on by one.
-/

namespace Sys2Proof.Machine

/-! ## Positions -/

/-- The three addressing bytes set the cursor to the masked operands (R56). -/
theorem applyAll_setPosTxns (page column : Nat) {t : Target} (hpend : t.pend = none) :
    Target.applyAll (setPosTxns page column) t =
      some { t with page := BitVec.ofNat 3 page, col := BitVec.ofNat 7 column } :=
  applyAll_setPos page column hpend []

theorem setPageByte_inj {p q : BitVec 3} : setPageByte p = setPageByte q ↔ p = q := by
  revert p q; decide

theorem setColLoByte_inj {l m : BitVec 4} : setColLoByte l = setColLoByte m ↔ l = m := by
  revert l m; decide

theorem setColHiByte_inj {h k : BitVec 4} : setColHiByte h = setColHiByte k ↔ h = k := by
  revert h k; decide

theorem ofNat_eq_ofNat_iff (w m n : Nat) : BitVec.ofNat w m = BitVec.ofNat w n ↔ m % 2 ^ w = n % 2 ^ w := by
  rw [← BitVec.toNat_inj, BitVec.toNat_ofNat, BitVec.toNat_ofNat]

/-- Two positions are the same three bytes exactly when the bits that reach the bus agree (R57). -/
theorem setPosTxns_eq_iff (p1 c1 p2 c2 : Nat) :
    setPosTxns p1 c1 = setPosTxns p2 c2 ↔ p1 % 8 = p2 % 8 ∧ c1 % 256 = c2 % 256 := by
  simp only [setPosTxns, List.cons.injEq, Txn.cmd.injEq, and_true, pageByte_eq, colLoByte_eq, colHiByte_eq,
    setPageByte_inj, setColLoByte_inj, setColHiByte_inj, ofNat_eq_ofNat_iff]
  omega

/-- Settles O15: the cursor holds three and seven bits of the operands, the bytes three and eight. -/
theorem setposEquivalence : Obligations.SetposEquivalence := by
  refine fun p1 c1 p2 c2 => ⟨fun t hpend => ?_, setPosTxns_eq_iff p1 c1 p2 c2⟩
  simp only [applyAll_setPosTxns _ _ hpend, Option.some.injEq, Target.mk.injEq, and_true, ofNat_eq_ofNat_iff]
  omega

/-! ## The data byte -/

theorem cellAddr_inj {p q : BitVec 3} {c d : BitVec 7} : cellAddr p c = cellAddr q d ↔ p = q ∧ c = d := by
  have := c.isLt
  have := d.isLt
  rw [← BitVec.toNat_inj, ← BitVec.toNat_inj]
  simp only [cellAddr, nCols]
  omega

/-- In horizontal mode a data byte is stored, and the cursor moves on (R55). -/
theorem apply_data_one {t : Target} (h : t.mode = .horiz) (d : Byte) : t.apply (.data [d]) = some (t.store d).bump := by
  simp only [Target.apply, Target.dataBytes, Target.dataByte, if_pos h, Option.bind_some]

theorem apply_data_one_refused {t : Target} (h : t.mode ≠ .horiz) (d : Byte) : t.apply (.data [d]) = none := by
  simp only [Target.apply, Target.dataBytes, Target.dataByte, if_neg h, Option.bind_none]

theorem apply_data_cons (d : Byte) (ds : List Byte) (t : Target) :
    t.apply (.data (d :: ds)) = (t.apply (.data [d])).bind (Target.apply (.data ds)) := by
  simp only [Target.apply, Target.dataBytes]
  cases t.dataByte d <;> rfl

@[simp] theorem byte_bump (t : Target) (a : Nat) : t.bump.byte a = t.byte a :=
  byte_congr (by rw [Target.bump_g]) t.bump_power

theorem cell_store (d : Byte) (t : Target) (p : BitVec 3) (c : BitVec 7) :
    (t.store d).cell p c = if p = t.page ∧ c = t.col then d else t.cell p c := by
  split
  next h => rw [h.1, h.2]; exact byte_store_same d t
  next h => exact byte_store_other d t fun heq => h (cellAddr_inj.mp heq)

theorem bump_of_last_column {t : Target} (h : t.col = 127#7) :
    t.bump = { t with col := 0#7, page := t.page + 1#3 } := if_pos h

theorem bump_of_not_last_column {t : Target} (h : t.col ≠ 127#7) : t.bump = { t with col := t.col + 1#7 } := if_neg h

/-- Settles O19: the byte is stored at the cursor, whose next place is that of `bump`. -/
theorem dataByte : Obligations.DataByte := by
  refine fun d t => ⟨fun hmode => ⟨_, apply_data_one hmode d, ?cells, ?wrap, ?next, ?_, ?_⟩,
    fun h => apply_data_one_refused h d, fun ds => apply_data_cons d ds t, rfl⟩
  case cells => exact fun p c => (byte_bump _ _).trans (cell_store d t p c)
  case wrap =>
    intro hcol
    rw [bump_of_last_column (t := t.store d) hcol]
    exact ⟨rfl, BitVec.toNat_add t.page 1#3⟩
  case next =>
    intro hcol
    rw [bump_of_not_last_column (t := t.store d) hcol]
    refine ⟨?_, rfl⟩
    have hlt : t.col.toNat ≠ 127 := fun h => hcol (BitVec.eq_of_toNat_eq h)
    have := t.col.isLt
    exact BitVec.toNat_add_of_lt (show t.col.toNat + 1 < 2 ^ 7 by omega)
  · rw [Target.bump_mode, Target.store_mode]
  · rw [Target.bump_pend, Target.store_pend]

end Sys2Proof.Machine
end

section
/-!
PROOF. Glyph pixels and the font port (42_font_expander.md R60, R62, R64, 47_common_laws.md R105).
-/

namespace Sys2Proof.Machine

/-- Column `k` of a half comes from source column `k / 2` (R62). -/
theorem getElem_expandHalf (f : Byte → Byte) (row : GlyphRow) {k : Nat} (hk : k < 10) :
    (expandHalf f row)[k] = f (row[k / 2]'(by omega)) := by
  unfold expandHalf
  interval_cases k <;> rfl

theorem getElem_upperBytes (row : GlyphRow) {k : Nat} (hk : k < 10) :
    (upperBytes row)[k] = dbl4 ((row[k / 2]'(by omega)).extractLsb' 0 4) :=
  getElem_expandHalf _ row hk

theorem getElem_lowerBytes (row : GlyphRow) {k : Nat} (hk : k < 10) :
    (lowerBytes row)[k] = dbl4 ((row[k / 2]'(by omega)).extractLsb' 4 4) :=
  getElem_expandHalf _ row hk

/-- Bit `y` of a doubled nibble is bit `y / 2` of the byte's half (R61). -/
theorem getLsbD_dbl4_nibble (b : Byte) (start : Nat) {y : Nat} (hy : y < 8) :
    (dbl4 (b.extractLsb' start 4)).getLsbD y = b.getLsbD (start + y / 2) := by
  have hhalf : y / 2 < 4 := by omega
  rw [getLsbD_dbl4 _ hy, BitVec.getLsbD_extractLsb', decide_eq_true hhalf, Bool.true_and]

/-- Settles O22: columns `2j` and `2j + 1` come from source column `j`, and rows likewise. -/
theorem glyphPixels : Obligations.GlyphPixels := by
  refine fun row => ⟨fun j => ?columns, fun k y => ?pixels⟩
  case columns =>
    have heven : 2 * j.val / 2 = j.val := by omega
    have hodd : (2 * j.val + 1) / 2 = j.val := by omega
    rw [getElem_upperBytes, getElem_upperBytes, getElem_lowerBytes, getElem_lowerBytes]
    simp only [heven, hodd]
    exact ⟨rfl, rfl, rfl, rfl⟩
  case pixels =>
    simp only [Fin.getElem_fin, getElem_upperBytes, getElem_lowerBytes]
    split
    next hupper => rw [getLsbD_dbl4_nibble _ 0 hupper, Nat.zero_add]
    next hlower =>
      have hrow : 4 + (y.val - 8) / 2 = y.val / 2 := by omega
      rw [getLsbD_dbl4_nibble _ 4 (by omega), hrow]

/-- A code has no entry exactly when it is negative or not below `N_GLYPHS` (R64). -/
theorem fontRow_eq_none_iff (font : List GlyphRow) (code : Int) :
    fontRow font code = none ↔ code < 0 ∨ (font.length : Int) ≤ code := by
  unfold fontRow
  split
  next hneg => simp [hneg]
  next hpos => rw [List.getElem?_eq_none_iff]; omega

/-- Byte `i` of an entry is at address `code * 5 + i` of the font port (R105). -/
theorem fontPort_fontAddr {font : List GlyphRow} {code : Nat} (h : code < font.length) {i : Nat} (hi : i < 5) :
    fontPort font (fontAddr code i) = some (font[code])[i] := by
  have hentry : (code * 5 + i) / 5 = code := by omega
  have hbyte : (code * 5 + i) % 5 = i := by omega
  unfold fontPort fontAddr
  simp only [hentry, hbyte, List.getElem?_eq_getElem h, Vector.getElem?_eq_getElem hi]

/-- Settles O23: the entry and the byte by division, the limits by `fontRow_eq_none_iff`. -/
theorem fontLookup : Obligations.FontLookup :=
  ⟨fun _ _ i h => fontPort_fontAddr h i.isLt, fun font src => fontRow_eq_none_iff font (glyphCode src)⟩

end Sys2Proof.Machine
end

section
/-!
PROOF. The status word, the record of a transaction, and what a failed transaction leaves (60_exceptions.md R82,
30_encoding.md R39, 60_exceptions.md R84).
-/

namespace Sys2Proof.Machine

theorem code_le_four (e : Err) : e.code.toNat ≤ 4 := by cases e <;> decide

theorem code_eq_zero_iff (e : Err) : e.code = 0#3 ↔ e = .none := by cases e <;> decide

/-- Settles O40: the word is the busy bit above the three bits of the code. -/
theorem statusWord : Obligations.StatusWord := by
  refine ⟨fun st => ⟨?busy, BitVec.extractLsb'_append_eq_right⟩, rfl, rfl, rfl, rfl, rfl,
    fun e => ⟨code_le_four e, code_eq_zero_iff e⟩⟩
  case busy =>
    rw [Status.word, BitVec.getLsbD_append]
    simp

/-- Settles O52: a length of at most 32 fits the six bits of the record. -/
theorem transactionRecords : Obligations.TransactionRecords := by
  refine ⟨fun v => rfl, fun bs _ hmax => ⟨rfl, rfl, rfl, ?_, rfl⟩⟩
  have hfits : bs.length < 2 ^ 6 := by omega
  exact (BitVec.toNat_ofNat _ _).trans (Nat.mod_eq_of_lt hfits)

/-- Settles O42: the cursor is lost; a block write also loses its footprint, a command of `INIT` the mode and the
awaited argument. -/
theorem failedTransaction : Obligations.FailedTransaction := by
  refine fun n op t => ⟨fun v hop => ?addressing, fun bs => ?block, fun v => ?initialization⟩
  case addressing => exact ⟨_, _, by rw [Target.fail, if_neg hop, Target.loseCursor]⟩
  case block => exact ⟨_, _, _, rfl, fun a ha => byte_failData n bs.length ha⟩
  case initialization =>
    refine ⟨_, _, _, rfl, fun w hw => ?_⟩
    obtain ⟨k, -, rfl⟩ := Option.map_eq_some_iff.mp hw
    exact argCommandAt_mem k

end Sys2Proof.Machine
end

section
/-!
PROOF. What a step does (47_common_laws.md R103, 70_reset_and_hazards.md R93), by the next input and whether the
engine is busy: one equation per case, and `stepCase`, which says that there is no other case.
-/

namespace Sys2Proof.Machine

/-! ## One equation per case -/

theorem step_rst {s : State} {rest : List Input} (hin : s.inputs = .rst :: rest) :
    step s = .next ({ s with inputs := rest }).engineReset := by
  simp only [step, fetch, hin]

theorem step_powerOn {s : State} {rest : List Input} (hin : s.inputs = .powerOn :: rest) :
    step s = .next ({ s with inputs := rest }).targetPowerOn := by
  simp only [step, fetch, hin]

/-- A busy engine goes on with its operation, whatever the host presents (R14). -/
theorem step_busy {s : State} (hbusy : s.status.busy = true) (hrst : ∀ r, s.inputs ≠ .rst :: r)
    (hpow : ∀ r, s.inputs ≠ .powerOn :: r) : step s = s.run := by
  rcases hin : s.inputs with _ | ⟨_ | _ | _ | _, rest⟩
  case cons.rst => exact absurd hin (hrst rest)
  case cons.powerOn => exact absurd hin (hpow rest)
  all_goals simp only [step, fetch, hin, if_pos hbusy]

theorem step_noInput {s : State} (hidle : s.Idle) (hin : s.inputs = []) : step s = .next s := by
  have hfetch : fetch s = .done (.next s) := by simp [fetch, hin, hidle]
  rw [step, hfetch]

theorem fetch_request {s : State} (hidle : s.Idle) {h : Header} {rest : List Input}
    (hin : s.inputs = .request h :: rest) : fetch s = fetchRequest h { s with inputs := rest } := by
  simp [fetch, hin, hidle]

theorem fetch_command {s : State} (hidle : s.Idle) {bs : List Byte} {rest : List Input}
    (hin : s.inputs = .command bs :: rest) : fetch s = fetchCommand bs { s with inputs := rest } := by
  simp [fetch, hin, hidle]

section
variable {s : State} (hidle : s.Idle) {rest : List Input} {i : Instr} {more : List Byte}
include hidle

theorem step_request {h : Header} (hin : s.inputs = .request h :: rest)
    (hdec : decodeRequest h s.payloadPort = .ok (i, more)) :
    step s = exec i { s with inputs := rest, payloadPort := more } := by
  rw [step, fetch_request hidle hin]
  simp only [fetchRequest, hdec]

theorem step_illegal {h : Header} (hin : s.inputs = .request h :: rest)
    (hdec : decodeRequest h s.payloadPort = .error .illegalRequest) :
    step s = .next ({ s with inputs := rest }).illegalRequest := by
  rw [step, fetch_request hidle hin]
  simp only [fetchRequest, hdec]

theorem step_short {h : Header} (hin : s.inputs = .request h :: rest)
    (hdec : decodeRequest h s.payloadPort = .error .payloadShort) : step s = .fault .payloadShort := by
  rw [step, fetch_request hidle hin]
  simp only [fetchRequest, hdec]

theorem step_command {bs : List Byte} (hin : s.inputs = .command bs :: rest) (hawait : s.awaiting = false)
    (hdec : decodeCommand bs = .ok (i, more)) :
    step s = exec i (({ s with inputs := rest }).putBack more) := by
  have hawait' : ({ s with inputs := rest } : State).awaiting = false := hawait
  rw [step, fetch_command hidle hin]
  simp only [fetchCommand, hawait', hdec, Bool.false_eq_true, if_false]

theorem step_takeByte {bs : List Byte} (hin : s.inputs = .command bs :: rest)
    (hnot : s.awaiting = true ∨ ∃ e, decodeCommand bs = .error e) :
    step s = .next (({ s with inputs := rest }).takeByte bs) := by
  have hfetch : fetchCommand bs { s with inputs := rest } =
      .done (.next (({ s with inputs := rest }).takeByte bs)) := by
    rcases hnot with hawait | ⟨e, hdec⟩
    · exact if_pos hawait
    · unfold fetchCommand
      split
      · rfl
      · rw [hdec]
  rw [step, fetch_command hidle hin, hfetch]

end

/-- Settles O7: an idle engine fetches the request (`step_request`). -/
theorem stepRunsRequest : Obligations.StepRunsRequest := fun _ _ _ _ _ hidle hin hdec => step_request hidle hin hdec

/-- Settles O8: the bytes put back are the ones at the head of the inputs. -/
theorem stepRunsCommand : Obligations.StepRunsCommand := by
  intro s bs more rest i hidle hin hawait hdec
  rw [step_command hidle hin hawait hdec, State.putBack_frame]

/-- Settles O9: a header of no row is illegal, and its acceptance is at once its abort. -/
theorem illegalRequestAborts : Obligations.IllegalRequestAborts := by
  intro s h rest hidle hin hrows
  have hill := (decodeRequest_illegal_iff h s.payloadPort).mpr hrows
  exact ⟨{ s.eng with phase := .idle, payload := [] }, rfl, step_illegal hidle hin hill⟩

/-! ## The resets -/

/-- The transaction in flight, if any, has reached the target whole or not at all (R93). -/
theorem settleInFlight_target (s : State) :
    s.settleInFlight.target = s.target ∨
      ∃ x, s.tx = some x ∧ s.settleInFlight.target = s.target.bind (Target.apply x) := by
  unfold State.settleInFlight
  split
  next => exact .inl rfl
  next x hx =>
    by_cases hdel : Config.freeDelivered s.draws
    · exact .inr ⟨x, hx, by simp [hdel]⟩
    · exact .inl (by simp [hdel])

@[simp] theorem engineReset_target (s : State) : s.engineReset.target = s.settleInFlight.target := rfl

/-- The status after a reset reads 0 (R23). -/
theorem word_reset : Status.word { busy := false, err := .none } = 0b0000#4 := rfl

/-- Settles O11: the target is what `settleInFlight_target` says, the rest is the reset's own. -/
theorem engineReset : Obligations.EngineReset := by
  intro s rest hin
  refine ⟨_, step_rst hin, rfl, word_reset, rfl, rfl, State.engineReset_inputs _, State.engineReset_font _,
    State.engineReset_payloadPort _, State.engineReset_answers _, fun hnone => ?_, fun x hx => ?_⟩
  all_goals rcases settleInFlight_target { s with inputs := rest } with hkept | ⟨y, hy, hdelivered⟩
  · exact hkept
  · cases hnone.symm.trans hy
  · exact .inl hkept
  · cases hx.symm.trans hy
    exact .inr hdelivered

/-- The argument a power-on leaves awaited is of one of the nine commands (R23). -/
theorem freePend_mem {n : Nat} {v : Byte} (h : (Config.freePend n).map argCommandAt = some v) : v ∈ argCommands := by
  obtain ⟨k, -, rfl⟩ := Option.map_eq_some_iff.mp h
  exact argCommandAt_mem k

/-- Settles O12: no cell has been stored to, so each holds this power-on's draw. -/
theorem targetPowerOn : Obligations.TargetPowerOn := fun _ _ hin =>
  ⟨_, step_powerOn hin, rfl, fun _ _ => rfl, fun _ => freePend_mem⟩

/-- Settles O13: the fields of `State.reset`. -/
theorem resetState : Obligations.ResetState := ⟨rfl, word_reset, rfl, rfl, Target.reset, rfl, rfl⟩

theorem reset_fits : Engine.reset.Fits := by unfold Engine.Fits; decide

theorem target_reset_sound : Target.reset.Sound := ⟨reset_wf, fun _ h => nomatch h⟩

/-- Settles O53: at reset the engine is idle, and the trace and the GDDRAM's list are empty. -/
theorem invariantAtReset : Obligations.InvariantAtReset where
  busy_iff := by decide
  fits := reset_fits
  sound := fun h => absurd rfl h
  port := fun _ h => nomatch h
  target := fun t h => by cases h; exact target_reset_sound
  legal := fun _ h => nomatch h

end Sys2Proof.Machine
end

section
/-!
PROOF. The moves of the engine keep its position sound (43_framebuffer_writer.md R69). A position is one of `INIT`,
one of `SETPOS`, an `EXPAND`, or one inside a FrameBufferWriter call (`sound_cases`). The phases of a call are handled
once for the six operations that make calls: what an operation needs at its call's return (`Engine.CallContext`) does
not change inside the call.
-/

namespace Sys2Proof.Machine

/-- An operation in progress at a sound position, its registers within their widths. -/
structure Engine.Live (e : Engine) : Prop where
  phase : e.phase ≠ .idle
  fits : e.Fits
  sound : e.Sound

/-- A move goes on at a sound position, or ends the operation. -/
def Next.Live : Next → Prop
  | .goOn e => e.Live
  | .complete | .fault _ => True
  | .noRow => False

/-! ## Positions -/

/-- What an operation keeps while a FrameBufferWriter call of its own is in progress; `INIT` and `SETPOS` make none. -/
def Engine.CallContext (e : Engine) : Prop :=
  match e.op with
  | .init | .setpos => False
  | .write => True
  | .drawglyph => e.payload.length = 1 ∧ e.idx ≤ 1
  | .drawstr =>
    e.trPage < 256 ∧ e.trCol < 256 ∧ e.idx < e.payload.length ∧ (e.wPage = e.trPage ∨ e.wPage = e.trPage + 1)
  | .drawicon => e.payload.length = 32 ∧ e.idx < 4
  | .drawimg => e.payload.length = 384 ∧ e.idx < 384
  | .clear => e.idx < 8

/-- Every sound position: of `INIT`, of `SETPOS`, at an `EXPAND`, or inside a call. -/
theorem sound_cases {e : Engine} (h : e.Sound) :
    (e.op = .init ∧ (e.phase = .check ∧ e.idx = 0 ∨ e.phase = .initseq ∧ e.idx < 25)) ∨
    (e.op = .setpos ∧ (e.phase = .check ∨ e.phase = .cmdPage ∨ e.phase = .cmdCollo ∨ e.phase = .cmdColhi)) ∨
    (e.phase = .expand ∧ (e.op = .drawglyph ∧ e.payload.length = 1 ∧ e.idx = 0 ∨
      e.op = .drawstr ∧ e.trPage < 256 ∧ e.trCol < 256 ∧ e.idx ≤ e.payload.length)) ∨
    (e.CallContext ∧ e.CallSound) := by
  unfold Engine.Sound at h
  unfold Engine.CallContext
  cases hop : e.op <;> simp only [hop] at h ⊢
  case init | setpos | write => simp [h]
  case drawglyph =>
    obtain ⟨hpl, ⟨hp, hi⟩ | ⟨hcall, hi⟩⟩ := h <;> simp_all
  case drawstr =>
    obtain ⟨hpage, hcol, ⟨hp, hi⟩ | ⟨hcall, hi, hw⟩⟩ := h <;> simp_all
  case drawicon | drawimg | clear => simp_all

/-- A call in progress is a sound position. -/
theorem live_of_call {e : Engine} (hfits : e.Fits) (hctx : e.CallContext) (hcall : e.CallSound) : e.Live where
  fits := hfits
  phase := by
    obtain ⟨-, hp | ⟨hp | hp | hp, -⟩ | ⟨hp, -⟩⟩ := hcall <;> rw [hp] <;> decide
  sound := by
    unfold Engine.CallContext at hctx
    unfold Engine.Sound
    cases hop : e.op <;> simp only [hop] at hctx ⊢
    case write => exact hcall
    case drawglyph => exact ⟨hctx.1, .inr ⟨hcall, hctx.2⟩⟩
    case drawstr =>
      obtain ⟨hpage, hcol, hi, hw⟩ := hctx
      exact ⟨hpage, hcol, .inr ⟨hcall, hi, hw⟩⟩
    case drawicon | drawimg => exact ⟨hctx.1, hctx.2, hcall⟩
    case clear => exact ⟨hctx, hcall⟩

/-- A call that has just been made: it waits for its `CHECK`, and its bytes are as many as it says. -/
theorem live_callWrite {e : Engine} {page col len : Nat} (hfits : e.Fits) (hpage : page < 512) (hcol : col < 512)
    (hlen : len < 4096) (hctx : (e.callWrite page col len).CallContext)
    (hdata : (e.callWrite page col len).callData.length = len) : (e.callWrite page col len).Live := by
  obtain ⟨hal, -, -, -, hoff, htp, htc, hidx, hpl⟩ := hfits
  exact live_of_call ⟨hal, hpage, hcol, hlen, hoff, htp, htc, hidx, hpl⟩ hctx ⟨hdata, .inl rfl⟩

theorem fits_idx {e : Engine} (h : e.Fits) {k : Nat} (hk : k < 4096) : ({ e with idx := k } : Engine).Fits := by
  obtain ⟨hal, hwp, hwc, hwl, hoff, htp, htc, -, hpl⟩ := h
  exact ⟨hal, hwp, hwc, hwl, hoff, htp, htc, hk, hpl⟩

theorem fits_wOff {e : Engine} (h : e.Fits) {off : Nat} (hoff : off < 4096) :
    ({ e with wOff := off } : Engine).Fits := by
  obtain ⟨hal, hwp, hwc, hwl, -, htp, htc, hidx, hpl⟩ := h
  exact ⟨hal, hwp, hwc, hwl, hoff, htp, htc, hidx, hpl⟩

/-! ## What is issued -/

theorem engineByte_pageByte (page : Nat) : engineByte (pageByte page) = true := by
  have h : ∀ p, engineByte (setPageByte p) = true := by decide
  rw [pageByte_eq, h]

theorem engineByte_colLoByte (column : Nat) : engineByte (colLoByte column) = true := by
  have h : ∀ l, engineByte (setColLoByte l) = true := by decide
  rw [colLoByte_eq, h]

theorem engineByte_colHiByte (column : Nat) : engineByte (colHiByte column) = true := by
  have h : ∀ k, engineByte (setColHiByte k) = true := by decide
  rw [colHiByte_eq, h]

theorem engineByte_of_mem_initSeq : ∀ v ∈ initSeq, engineByte v = true := by decide

/-- A chunk of a call in progress has 1 to 32 bytes (R39). -/
theorem chunkBytes_legal {e : Engine} (hlen : e.callData.length = e.wLen) (hoff : e.wOff < e.wLen) :
    (Txn.data e.chunkBytes).Legal := by
  rw [chunkBytes_eq rfl hlen.symm]
  simp only [Txn.Legal, chunkAt, List.length_take, List.length_drop, chunkMax]
  omega

/-- Whatever the engine issues at a sound position is of its alphabet (R39, R48). -/
theorem txn_legal {e : Engine} (h : e.Live) {x : Txn} (hx : e.txn = some x) : x.Legal := by
  unfold Engine.txn at hx
  split at hx
  case h_1 => cases hx; exact engineByte_pageByte _
  case h_2 => cases hx; exact engineByte_colLoByte _
  case h_3 => cases hx; exact engineByte_colHiByte _
  case h_4 hp =>
    split at hx <;> cases hx
    rcases sound_cases h.sound with ⟨-, hs⟩ | ⟨-, hs⟩ | ⟨hs, -⟩ | ⟨-, hlen, hs⟩
    case inr.inr.inr => exact chunkBytes_legal hlen (by simpa [hp] using hs)
    all_goals simp [hp] at hs
  case h_5 =>
    obtain ⟨v, hv, rfl⟩ := Option.map_eq_some_iff.mp hx
    exact engineByte_of_mem_initSeq v (List.mem_of_getElem? hv)
  all_goals cases hx

/-! ## The return of a call -/

theorem glyphReturn_live {e : Engine} (hfits : e.Fits) (hop : e.op = .drawglyph) (hpl : e.payload.length = 1) :
    e.glyphReturn.Live := by
  unfold Engine.glyphReturn
  split
  · have hpage := e.aPage.isLt
    have hcol := e.aCol.isLt
    refine live_callWrite (fits_idx hfits (by decide)) (by omega) (by omega) (by decide) ?_ ?_
    · simp [Engine.CallContext, Engine.callWrite, hop, hpl]
    · simp [Engine.callData, Engine.callWrite, hop, cellW]
  · trivial

/-- An advance past column 118 goes to the start column of the next line (R73). -/
theorem advance_of_wrap {startPage startCol : Nat} {t : TextCursor} (h : 118 < t.col + 11) :
    t.advance startPage startCol =
      { page := if 7 ≤ t.page + 2 then startPage else t.page + 2, col := startCol } := if_pos h

/-- An advance within the line (R73). -/
theorem advance_of_fits {startPage startCol : Nat} {t : TextCursor} (h : t.col + 11 ≤ 118) :
    t.advance startPage startCol = { page := if 7 ≤ t.page then startPage else t.page, col := t.col + 11 } :=
  if_neg (Nat.not_lt.mpr h)

/-- The text cursor stays below 256 in both coordinates (R73, R74). -/
theorem advance_lt {startPage startCol : Nat} {t : TextCursor} (hpage : startPage < 256) (hcol : startCol < 256) :
    (t.advance startPage startCol).page < 256 ∧ (t.advance startPage startCol).col < 256 := by
  rcases Nat.lt_or_ge 118 (t.col + 11) with hwrap | hfits
  · rw [advance_of_wrap hwrap]
    exact ⟨by dsimp only; split <;> omega, hcol⟩
  · rw [advance_of_fits hfits]
    exact ⟨by dsimp only; split <;> omega, by dsimp only; omega⟩

theorem textReturn_live {e : Engine} (hfits : e.Fits) (hop : e.op = .drawstr) (hctx : e.CallContext) :
    e.textReturn.Live := by
  simp only [Engine.CallContext, hop] at hctx
  obtain ⟨hpage, hcol, hidx, hw⟩ := hctx
  unfold Engine.textReturn
  split
  · refine live_callWrite hfits (by omega) (by omega) (by decide) ?_ ?_
    · simp [Engine.CallContext, Engine.callWrite, hop, hpage, hcol, hidx]
    · simp [Engine.callData, Engine.callWrite, hop, cellW]
  · obtain ⟨hap, hac⟩ := advance_lt (t := { page := e.trPage, col := e.trCol }) e.aPage.isLt e.aCol.isLt
    obtain ⟨hal, hwp, hwc, hwl, hoff, -, -, -, hpl⟩ := hfits
    refine ⟨by simp, ⟨hal, hwp, hwc, hwl, hoff, hap.trans (by decide), hac.trans (by decide),
      show e.idx + 1 < 4096 by omega, hpl⟩, ?_⟩
    simp only [Engine.Sound, hop]
    exact ⟨hap, hac, .inl ⟨trivial, hidx⟩⟩

theorem iconReturn_live {e : Engine} (hfits : e.Fits) (hop : e.op = .drawicon) (hpl : e.payload.length = 32) :
    e.iconReturn.Live := by
  unfold Engine.iconReturn
  split
  next hlt =>
    have hpage := e.aPage.isLt
    have hcol := e.aCol.isLt
    simp only [iconTiles] at hlt
    refine live_callWrite (fits_idx hfits (by omega)) ?_ ?_ (by decide) ?_ ?_
    · simp only [tilePage]; omega
    · simp only [tileCol, tileLen]; omega
    · simp [Engine.CallContext, Engine.callWrite, hop, hpl, hlt]
    · simp [Engine.callData, Engine.callWrite, hop, iconTile, hpl, tileLen]; omega
  · trivial

theorem imageReturn_live {e : Engine} (hfits : e.Fits) (hop : e.op = .drawimg) (hpl : e.payload.length = 384) :
    e.imageReturn.Live := by
  unfold Engine.imageReturn
  split
  next hlt =>
    have hpage := e.aPage.isLt
    have hcol := e.aCol.isLt
    simp only [imgPages, imgCols] at hlt
    refine live_callWrite (fits_idx hfits (by omega)) ?_ ?_ (by decide) ?_ ?_
    · simp only [imagePage, imgCols]; omega
    · simp only [imageCol, imgCols]; omega
    · simp [Engine.CallContext, Engine.callWrite, hop, hpl, hlt]
    · simp [Engine.callData, Engine.callWrite, hop, imageByte, hpl]; omega
  · trivial

theorem clearReturn_live {e : Engine} (hfits : e.Fits) (hop : e.op = .clear) : e.clearReturn.Live := by
  unfold Engine.clearReturn
  split
  next hlt =>
    simp only [nPages] at hlt
    refine live_callWrite (fits_idx hfits (by omega)) (by simp only; omega) (by decide) (by decide) ?_ ?_
    · simp [Engine.CallContext, Engine.callWrite, hop, hlt]
    · simp [Engine.callData, Engine.callWrite, hop, clearBytes]
  · trivial

theorem writeReturn_live {e : Engine} (hfits : e.Fits) (hctx : e.CallContext) : e.writeReturn.Live := by
  have hctx' := hctx
  unfold Engine.CallContext at hctx
  unfold Engine.writeReturn
  cases hop : e.op <;> simp only [hop] at hctx ⊢
  case write => trivial
  case drawglyph => exact glyphReturn_live hfits hop hctx.1
  case drawstr => exact textReturn_live hfits hop hctx'
  case drawicon => exact iconReturn_live hfits hop hctx.1
  case drawimg => exact imageReturn_live hfits hop hctx.1
  case clear => exact clearReturn_live hfits hop

/-! ## One move -/

theorem op_of_callContext {e : Engine} (h : e.CallContext) : e.op ≠ .init ∧ e.op ≠ .setpos := by
  constructor <;> intro hop <;> simp [Engine.CallContext, hop] at h

/-- `CHECK` of the six operations that make calls (R67, R69). -/
theorem check_of_call {e : Engine} (h : e.CallContext) :
    e.check = if e.wLen = 0 then .fault .emptyPayload else .goOn { e with wOff := 0, phase := .cmdPage } := by
  obtain ⟨hinit, hsetpos⟩ := op_of_callContext h
  unfold Engine.check
  split
  · contradiction
  · contradiction
  all_goals rfl

/-- After the position, the six operations that make calls stream (R69). -/
theorem afterColhi_of_call {e : Engine} (h : e.CallContext) : e.afterColhi = .goOn { e with phase := .chunk } := by
  obtain ⟨hinit, hsetpos⟩ := op_of_callContext h
  unfold Engine.afterColhi
  split
  · contradiction
  · contradiction
  all_goals rfl

theorem check_live_of_call {e : Engine} (hfits : e.Fits) (hctx : e.CallContext) (hlen : e.callData.length = e.wLen) :
    e.check.Live := by
  rw [check_of_call hctx]
  split
  · trivial
  · exact live_of_call (fits_wOff hfits (by decide)) hctx ⟨hlen, .inr (.inl ⟨.inl rfl, rfl, Nat.pos_of_ne_zero ‹_›⟩)⟩

theorem afterColhi_live_of_call {e : Engine} (hfits : e.Fits) (hctx : e.CallContext)
    (hlen : e.callData.length = e.wLen) (hoff : e.wOff < e.wLen) : e.afterColhi.Live := by
  rw [afterColhi_of_call hctx]
  exact live_of_call hfits hctx ⟨hlen, .inr (.inr ⟨rfl, hoff⟩)⟩

theorem afterChunk_live {e : Engine} (hfits : e.Fits) (hctx : e.CallContext) (hlen : e.callData.length = e.wLen)
    (hp : e.phase = .chunk) : e.afterChunk.Live := by
  have hwl : e.wLen < 4096 := hfits.2.2.2.1
  unfold Engine.afterChunk
  split
  next hmore =>
    exact live_of_call (fits_wOff hfits (by omega)) hctx ⟨hlen, .inr (.inr ⟨hp, by simp only; omega⟩)⟩
  next => exact writeReturn_live (fits_wOff hfits hwl) hctx

/-- A move of a call. -/
theorem move_live_of_call (font : List GlyphRow) {e : Engine} (hfits : e.Fits) (hctx : e.CallContext)
    (hcall : e.CallSound) : (e.move font).2.Live := by
  obtain ⟨hlen, hp | ⟨hp | hp | hp, hoff, hpos⟩ | ⟨hp, hoff⟩⟩ := hcall
  · simpa [Engine.move, hp] using check_live_of_call hfits hctx hlen
  · simp only [Engine.move, hp, Engine.txn, Engine.afterOk]
    exact live_of_call hfits hctx ⟨hlen, .inr (.inl ⟨.inr (.inl rfl), hoff, hpos⟩)⟩
  · simp only [Engine.move, hp, Engine.txn, Engine.afterOk]
    exact live_of_call hfits hctx ⟨hlen, .inr (.inl ⟨.inr (.inr rfl), hoff, hpos⟩)⟩
  · simpa [Engine.move, hp, Engine.txn, Engine.afterOk] using afterColhi_live_of_call hfits hctx hlen (hoff ▸ hpos)
  · have hne : e.chunkBytes ≠ [] := by
      rw [chunkBytes_eq rfl hlen.symm]
      exact chunkAt_ne_nil (by omega)
    simpa [Engine.move, hp, Engine.txn, Engine.afterOk, hne] using afterChunk_live hfits hctx hlen hp

/-- The expansion of a glyph is a fault, or the call for its upper half (R64, R65). -/
theorem expandGlyph_live (font : List GlyphRow) (src : Option GlyphSource) {page col : Nat} {e : Engine}
    (hfits : e.Fits) (hpage : page < 512) (hcol : col < 512)
    (hctx : ∀ gu gl, (Engine.callWrite page col cellW { e with gUpper := gu, gLower := gl }).CallContext)
    (hdata : ∀ gu gl, (Engine.callWrite page col cellW { e with gUpper := gu, gLower := gl }).callData.length = cellW) :
    (e.expandGlyph font src page col).Live := by
  unfold Engine.expandGlyph
  split
  · trivial
  · exact live_callWrite (e := { e with gUpper := _, gLower := _ }) hfits hpage hcol (by decide) (hctx _ _) (hdata _ _)

theorem expand_live_drawglyph (font : List GlyphRow) {e : Engine} (hfits : e.Fits) (hop : e.op = .drawglyph)
    (hpl : e.payload.length = 1) (hidx : e.idx = 0) : (e.expand font).Live := by
  obtain ⟨v, hv⟩ := List.length_eq_one_iff.mp hpl
  have hpage := e.aPage.isLt
  have hcol := e.aCol.isLt
  simp only [Engine.expand, hop, hv]
  exact expandGlyph_live font _ hfits (by omega) (by omega)
    (fun _ _ => by simp [Engine.CallContext, Engine.callWrite, hop, hpl, hidx])
    (fun _ _ => by simp [Engine.callData, Engine.callWrite, hop, hidx, cellW])

theorem expand_live_drawstr (font : List GlyphRow) {e : Engine} (hfits : e.Fits) (hop : e.op = .drawstr)
    (hpage : e.trPage < 256) (hcol : e.trCol < 256) : (e.expand font).Live := by
  simp only [Engine.expand, hop]
  split
  next hch =>
    have hidx := (List.getElem?_eq_some_iff.mp hch).1
    exact expandGlyph_live font _ hfits (by omega) (by omega)
      (fun _ _ => by simp [Engine.CallContext, Engine.callWrite, hop, hpage, hcol, hidx])
      (fun _ _ => by simp [Engine.callData, Engine.callWrite, hop, cellW])
  next => trivial

/-- A move of `INIT`: the check, then the 25 bytes (R79). -/
theorem move_live_init (font : List GlyphRow) {e : Engine} (hfits : e.Fits) (hop : e.op = .init)
    (h : e.phase = .check ∧ e.idx = 0 ∨ e.phase = .initseq ∧ e.idx < 25) : (e.move font).2.Live := by
  have hlen : initSeq.length = 25 := rfl
  obtain ⟨hp, hidx⟩ | ⟨hp, hidx⟩ := h
  · simp only [Engine.move, hp, Engine.check, hop]
    exact ⟨by simp, hfits, by simp [Engine.Sound, hidx]⟩
  · simp only [Engine.move, hp, Engine.txn, Engine.afterOk, List.getElem?_eq_getElem (hlen ▸ hidx), Option.map_some,
      Engine.afterInit]
    split
    · exact ⟨by simp, fits_idx hfits (by omega), by simp [Engine.Sound, hop]; omega⟩
    · trivial

/-- A move of `SETPOS`: the check, then the three addressing bytes (R51). -/
theorem move_live_setpos (font : List GlyphRow) {e : Engine} (hfits : e.Fits) (hop : e.op = .setpos)
    (h : e.phase = .check ∨ e.phase = .cmdPage ∨ e.phase = .cmdCollo ∨ e.phase = .cmdColhi) :
    (e.move font).2.Live := by
  obtain hp | hp | hp | hp := h <;> simp only [Engine.move, hp, Engine.check, Engine.txn, Engine.afterOk,
    Engine.afterColhi, hop]
  case inr.inr.inr => trivial
  all_goals exact ⟨by simp, hfits, by simp [Engine.Sound]⟩

/-- Every move from a sound position goes on at one or ends the operation. -/
theorem move_live (font : List GlyphRow) {e : Engine} (h : e.Live) : (e.move font).2.Live := by
  obtain ⟨-, hfits, hsound⟩ := h
  rcases sound_cases hsound with ⟨hop, hs⟩ | ⟨hop, hs⟩ | ⟨hp, ⟨hop, hpl, hidx⟩ | ⟨hop, hpage, hcol, -⟩⟩ | ⟨hctx, hcall⟩
  · exact move_live_init font hfits hop hs
  · exact move_live_setpos font hfits hop hs
  · simpa [Engine.move, hp] using expand_live_drawglyph font hfits hop hpl hidx
  · simpa [Engine.move, hp] using expand_live_drawstr font hfits hop hpage hcol
  · exact move_live_of_call font hfits hctx hcall

end Sys2Proof.Machine
end

section
/-!
PROOF. Everything a step can do (`stepCase`), and what follows for every step at once: the font stays, a lost target
stays lost, the target follows the trace, a busy engine accepts nothing.
-/

namespace Sys2Proof.Machine

/-- A header that is not decoded is illegal, or finds too few payload bytes (R47, R49). -/
theorem decodeRequest_error {h : Header} {pl : List Byte} {e : DecodeError} (hd : decodeRequest h pl = .error e) :
    e = .illegalRequest ∨ e = .payloadShort ∧ pl.length < impliedPayload h := by
  rcases decodeRequest_shape h with hill | ⟨mk, hmk⟩
  · rw [hill] at hd
    cases hd
    exact .inl rfl
  · rw [hmk] at hd
    rcases Nat.lt_or_ge pl.length (impliedPayload h) with hlt | hle
    · rw [withPayload_of_lt hlt] at hd
      cases hd
      exact .inr ⟨rfl, hlt⟩
    · rw [withPayload_of_le hle] at hd
      cases hd

/-- What a header decodes to is a request of the engine. -/
theorem opOf_of_decodeRequest {h : Header} {pl more : List Byte} {i : Instr} (hd : decodeRequest h pl = .ok (i, more)) :
    ∃ op, opOf i = some op := by
  have henc := request_eq_encode_append hd
  cases i
  case init | setpos | write | drawglyph | drawstr | drawicon | drawimg | clear => exact ⟨_, rfl⟩
  all_goals cases henc

/-- What command bytes decode to is a target command. -/
theorem encode_of_decodeCommand {bs more : List Byte} {i : Instr} (hd : decodeCommand bs = .ok (i, more)) :
    ∃ bytes, encode i = .command bytes := by
  have henc := command_eq_encode_append hd
  cases hi : encode i with
  | command bytes => exact ⟨bytes, rfl⟩
  | request h pl => rw [hi] at henc; cases henc

/-- The state in which a request has been taken from the ports and accepted (R14, R103). -/
def State.accepting (s : State) (i : Instr) (inputs : List Input) (payloadPort : List Byte) : State :=
  ({ s with inputs := inputs, payloadPort := payloadPort }).accept (startOf i s.eng)

/-- Everything a step can do, by the next input and whether the engine is busy. -/
inductive StepCase (s : State) : Prop where
  | reset {rest} (hin : s.inputs = .rst :: rest) (hstep : step s = .next ({ s with inputs := rest }).engineReset)
  | powerOn {rest} (hin : s.inputs = .powerOn :: rest)
      (hstep : step s = .next ({ s with inputs := rest }).targetPowerOn)
  | goesOn (hbusy : s.status.busy = true) (hstep : step s = s.run)
  | noInput (hidle : s.Idle) (hstep : step s = .next s)
  | accepts {h rest i op pl} (hidle : s.Idle) (hin : s.inputs = .request h :: rest) (hop : opOf i = some op)
      (hwf : i.wellFormed = true) (hstep : step s = (s.accepting i rest pl).run)
  | illegal {h rest} (hidle : s.Idle) (hin : s.inputs = .request h :: rest)
      (hstep : step s = .next ({ s with inputs := rest }).illegalRequest)
  | short {h rest} (hidle : s.Idle) (hin : s.inputs = .request h :: rest)
      (hshort : s.payloadPort.length < impliedPayload h) (hstep : step s = .fault .payloadShort)
  | command {bs rest inputs bytes} (hidle : s.Idle) (hin : s.inputs = .command bs :: rest)
      (hstep : step s = .next (({ s with inputs := inputs }).takeBytes bytes))

theorem stepCase_request {s : State} (hidle : s.Idle) {h : Header} {rest : List Input}
    (hin : s.inputs = .request h :: rest) : StepCase s := by
  cases hdec : decodeRequest h s.payloadPort with
  | ok r =>
    obtain ⟨i, pl⟩ := r
    obtain ⟨op, hop⟩ := opOf_of_decodeRequest hdec
    exact .accepts hidle hin hop (decodeRequest_wellFormed hdec)
      ((step_request hidle hin hdec).trans (exec_idle hop (s := { s with inputs := rest, payloadPort := pl }) hidle))
  | error e =>
    rcases decodeRequest_error hdec with rfl | ⟨rfl, hshort⟩
    · exact .illegal hidle hin (step_illegal hidle hin hdec)
    · exact .short hidle hin hshort (step_short hidle hin hdec)

/-- Command bytes taken one at a time are at most one byte. -/
theorem takeByte_eq_takeBytes (bs : List Byte) (s : State) :
    ∃ inputs bytes, s.takeByte bs = ({ s with inputs := inputs }).takeBytes bytes := by
  cases bs with
  | nil => exact ⟨s.inputs, [], (takeBytes_nil s).symm⟩
  | cons v more =>
    refine ⟨(s.putBack more).inputs, [v], ?_⟩
    rw [takeBytes_cons, takeBytes_nil, State.takeByte, State.putBack_frame]

theorem stepCase_command {s : State} (hidle : s.Idle) {bs : List Byte} {rest : List Input}
    (hin : s.inputs = .command bs :: rest) : StepCase s := by
  have single (hnot : s.awaiting = true ∨ ∃ e, decodeCommand bs = .error e) : StepCase s := by
    obtain ⟨inputs, bytes, htake⟩ := takeByte_eq_takeBytes bs { s with inputs := rest }
    exact .command hidle hin ((step_takeByte hidle hin hnot).trans (congrArg _ htake))
  cases hawait : s.awaiting with
  | true => exact single (.inl hawait)
  | false =>
    cases hdec : decodeCommand bs with
    | error e => exact single (.inr ⟨e, hdec⟩)
    | ok r =>
      obtain ⟨i, more⟩ := r
      obtain ⟨bytes, henc⟩ := encode_of_decodeCommand hdec
      have hcmd := step_command hidle hin hawait hdec
      rw [State.putBack_frame, exec_command henc] at hcmd
      exact .command hidle hin hcmd

theorem stepCase (s : State) : StepCase s := by
  cases hin : s.inputs with
  | nil =>
    cases hbusy : s.status.busy with
    | false => exact .noInput hbusy (step_noInput hbusy hin)
    | true => exact .goesOn hbusy (step_busy hbusy (by simp [hin]) (by simp [hin]))
  | cons input rest =>
    cases input with
    | rst => exact .reset hin (step_rst hin)
    | powerOn => exact .powerOn hin (step_powerOn hin)
    | request h =>
      cases hbusy : s.status.busy with
      | false => exact stepCase_request hbusy hin
      | true => exact .goesOn hbusy (step_busy hbusy (by simp [hin]) (by simp [hin]))
    | command bs =>
      cases hbusy : s.status.busy with
      | false => exact stepCase_command hbusy hin
      | true => exact .goesOn hbusy (step_busy hbusy (by simp [hin]) (by simp [hin]))

/-- What holds before a step, survives each way a step can begin and is kept by every row, holds after the step. -/
theorem step_keeps {P : State → Prop} {s t : State} (hs : P s) (h : step s = .next t)
    (hrow : ∀ u, P u → (row u).Holds P)
    (hreset : ∀ rest, s.inputs = .rst :: rest → P ({ s with inputs := rest }).engineReset)
    (hpowerOn : ∀ rest, s.inputs = .powerOn :: rest → P ({ s with inputs := rest }).targetPowerOn)
    (haccept : ∀ i op inputs pl, opOf i = some op → i.wellFormed = true → s.Idle → P (s.accepting i inputs pl))
    (hillegal : ∀ inputs, s.Idle → P ({ s with inputs := inputs }).illegalRequest)
    (hcommand : ∀ bs rest, s.inputs = .command bs :: rest →
      ∀ inputs bytes, P (({ s with inputs := inputs }).takeBytes bytes)) : P t := by
  cases stepCase s with
  | reset hin hstep => cases hstep.symm.trans h; exact hreset _ hin
  | powerOn hin hstep => cases hstep.symm.trans h; exact hpowerOn _ hin
  | goesOn _ hstep => exact run_holds hrow hs (hstep.symm.trans h)
  | noInput _ hstep => cases hstep.symm.trans h; exact hs
  | accepts hidle _ hop hwf hstep => exact run_holds hrow (haccept _ _ _ _ hop hwf hidle) (hstep.symm.trans h)
  | illegal hidle _ hstep => cases hstep.symm.trans h; exact hillegal _ hidle
  | short _ _ _ hstep => cases hstep.symm.trans h
  | command _ hin hstep => cases hstep.symm.trans h; exact hcommand _ _ hin _ _

/-- Settles O51: a run keeps the font (`run_frame`), and so does everything else a step can do. -/
theorem fontIsReadOnly : Obligations.FontIsReadOnly := by
  intro s t h
  cases stepCase s with
  | reset _ hstep => cases hstep.symm.trans h; exact State.engineReset_font _
  | powerOn _ hstep | noInput _ hstep | illegal _ _ hstep | command _ _ hstep => cases hstep.symm.trans h; rfl
  | goesOn _ hstep => exact (run_frame (hstep.symm.trans h)).1
  | accepts _ _ _ _ hstep => exact (run_frame (hstep.symm.trans h)).1
  | short _ _ _ hstep => cases hstep.symm.trans h

theorem bind_eq_none_of_eq_none {o : Option Target} (h : o = none) (f : Target → Option Target) : o.bind f = none := by
  rw [h, Option.bind_none]

/-- Settles O46: nothing but power-on gives a state to a target that has none. -/
theorem lostTargetStaysLost : Obligations.LostTargetStaysLost := by
  intro s t hlost hpow h
  refine step_keeps (P := fun u => u.target = none) hlost h (fun u hu => ?row) (fun rest _ => ?reset)
    (fun rest hin => absurd hin (hpow rest)) (fun _ _ _ _ _ _ _ => hlost) (fun _ _ => hlost)
    (fun _ _ _ _ bytes => bind_eq_none_of_eq_none hlost _)
  case row =>
    rcases row_cases u with ⟨-, hrow⟩ | ⟨-, nx, -, hrow⟩ | ⟨x, -, -, hrow⟩ <;> rw [hrow]
    · exact hu
    · exact goto_holds (fun _ _ => hu) (fun _ => hu)
    · exact transact_holds x (fun _ _ => bind_eq_none_of_eq_none hu _) (fun _ _ => bind_eq_none_of_eq_none hu _)
        (fun _ => Option.map_eq_none_iff.mpr hu) (fun _ => hu)
  case reset =>
    rw [engineReset_target]
    rcases settleInFlight_target { s with inputs := rest } with hkept | ⟨x, -, hdelivered⟩
    · exact hkept.trans hlost
    · exact hdelivered.trans (bind_eq_none_of_eq_none hlost _)

/-! ## The target and the trace -/

/-- From `s` to `u` the answered part of the trace has grown by entries that are all ok, and the target has followed
them; or the last of them has failed, and the operation is over. -/
def Follows (s u : State) : Prop :=
  ∃ new : List Entry, u.answered = s.answered ++ new ∧
    ((∀ en ∈ new, en.ok = true) ∧ u.target = s.target.bind (Target.applyAll (new.map Entry.txn)) ∨
      u.eng.phase = .idle ∧ ∃ before last, new = before ++ [last] ∧ last.ok = false ∧ ∀ en ∈ before, en.ok = true)

theorem follows_refl {s u : State} (ha : u.answered = s.answered) (ht : u.target = s.target) : Follows s u := by
  refine ⟨[], by simp [ha], .inl ⟨by simp, ?_⟩⟩
  rw [ht]
  cases s.target <;> rfl

theorem applyAll_concat (xs : List Txn) (x : Txn) (t : Target) :
    Target.applyAll (xs ++ [x]) t = (Target.applyAll xs t).bind (Target.apply x) := by
  have hone : Target.applyAll [x] = Target.apply x := funext fun t => Option.bind_fun_some (t.apply x)
  rw [applyAll_append, hone]

/-- One more transaction applied by the target, if it has a state. -/
theorem bind_applyAll_concat (o : Option Target) (xs : List Txn) (x : Txn) :
    (o.bind (Target.applyAll xs)).bind (Target.apply x) = o.bind (Target.applyAll (xs ++ [x])) := by
  rw [Option.bind_assoc]
  simp only [applyAll_concat]

theorem row_idle {s : State} (h : s.eng.phase = .idle) : row s = .stop s := by
  simp only [row, h]

theorem row_keeps_follows {s u : State} (h : Follows s u) : (row u).Holds (Follows s) := by
  obtain ⟨new, hans, ⟨hok, htarget⟩ | ⟨hidle, -⟩⟩ := id h
  case inr => rw [row_idle hidle]; exact h
  have happlied (v : State) (x : Txn) (ha : v.answered = u.answered ++ [{ txn := x, ok := true }])
      (ht : v.target = u.target.bind (Target.apply x)) : Follows s v := by
    refine ⟨new ++ [{ txn := x, ok := true }], by rw [ha, hans, List.append_assoc], .inl ⟨?_, ?_⟩⟩
    · simpa [or_imp, forall_and] using hok
    · rw [ht, htarget, bind_applyAll_concat, List.map_append, List.map_singleton]
  rcases row_cases u with ⟨-, hrow⟩ | ⟨-, nx, -, hrow⟩ | ⟨x, -, -, hrow⟩ <;> rw [hrow]
  · exact h
  · exact goto_holds (fun _ _ => ⟨new, hans, .inl ⟨hok, htarget⟩⟩) (fun _ => ⟨new, hans, .inl ⟨hok, htarget⟩⟩)
  · refine transact_holds x (fun _ _ => happlied _ x rfl rfl) (fun _ _ => happlied _ x rfl rfl) (fun _ => ?failed)
      (fun _ => ⟨new, hans, .inl ⟨hok, htarget⟩⟩)
    case failed =>
      exact ⟨new ++ [{ txn := x, ok := false }], by simp [hans], .inr ⟨rfl, new, _, rfl, rfl, hok⟩⟩

/-- Settles O50: `Follows` is kept by every row, since a failed transaction ends its operation. -/
theorem targetFollowsTrace : Obligations.TargetFollowsTrace := by
  intro s t hrst hpow hcmd h
  have hfollows : Follows s t := step_keeps (follows_refl rfl rfl) h (fun _ => row_keeps_follows)
    (fun rest hin => absurd hin (hrst rest)) (fun rest hin => absurd hin (hpow rest))
    (fun _ _ _ _ _ _ _ => follows_refl rfl rfl) (fun _ _ => follows_refl rfl rfl)
    (fun bs rest hin => absurd hin (hcmd bs rest))
  obtain ⟨new, hans, ⟨hok, htarget⟩ | ⟨-, before, last, rfl, hfail, hok⟩⟩ := hfollows
  · exact ⟨new, hans, fun en hen => hok en (List.mem_of_mem_dropLast hen), fun _ => htarget⟩
  · refine ⟨before ++ [last], hans, by simpa using hok, fun hall => ?_⟩
    have := hall last (by simp)
    simp [hfail] at this

/-! ## A busy engine -/

/-- Settles O10: the model's `State.request` looks at `busy` first, and a run leaves the ports alone (`run_frame`). -/
theorem busyAcceptsNothing : Obligations.BusyAcceptsNothing := by
  refine ⟨fun i s op hop hbusy => ?_, fun s t h rest hbusy hin hstep => ?_⟩
  · rw [(exec_request hop s).1, State.request, if_pos hbusy]
  · rw [step_busy hbusy (by simp [hin]) (by simp [hin])] at hstep
    exact (run_frame hstep).2

end Sys2Proof.Machine
end

section
/-!
PROOF. The invariant (`State.Inv`) is kept by every step, and from a state of it no run is stuck. The engine's part is
`move_live`; the rest is that the port is free once a transaction is answered (`State.PortFree`), and that what reaches
the target keeps it sound (`apply_sound`, `fail_sound`).
-/

namespace Sys2Proof.Machine

/-- The part of the invariant that is not the engine's, between two transactions. -/
structure State.PortFree (s : State) : Prop where
  port : s.tx = none
  target : ∀ t, s.target = some t → t.Sound
  legal : ∀ en ∈ s.answered, en.txn.Legal

/-- The trace is the answered entries and the transaction on the port. -/
theorem trace_legal_iff (s : State) :
    (∀ x ∈ s.trace, x.1.Legal) ↔ (∀ en ∈ s.answered, en.txn.Legal) ∧ ∀ x, s.tx = some x → x.Legal := by
  simp [State.trace, or_imp, forall_and]

theorem inv_of_live {s : State} (h : s.PortFree) (hbusy : s.status.busy = true) (hlive : s.eng.Live) : s.Inv where
  busy_iff := iff_of_true hbusy hlive.phase
  fits := hlive.fits
  sound := fun _ => hlive.sound
  port := fun x hx => by rw [h.port] at hx; cases hx
  target := h.target
  legal := (trace_legal_iff s).mpr ⟨h.legal, fun x hx => by rw [h.port] at hx; cases hx⟩

theorem inv_of_idle {s : State} (h : s.PortFree) (hidle : s.Idle) (hphase : s.eng.phase = .idle) (hfits : s.eng.Fits) :
    s.Inv where
  busy_iff := by rw [hidle, hphase]; simp
  fits := hfits
  sound := fun hp => absurd hphase hp
  port := fun x hx => by rw [h.port] at hx; cases hx
  target := h.target
  legal := (trace_legal_iff s).mpr ⟨h.legal, fun x hx => by rw [h.port] at hx; cases hx⟩

/-- Where the engine issues nothing, nothing is on the port. -/
theorem portFree_of_inv {s : State} (h : s.Inv) (htxn : s.eng.txn = none) : s.PortFree where
  port := by
    cases htx : s.tx with
    | none => rfl
    | some x => cases htxn.symm.trans (h.port x htx)
  target := h.target
  legal := ((trace_legal_iff s).mp h.legal).1

theorem phase_idle_of_idle {s : State} (h : s.Inv) (hidle : s.Idle) : s.eng.phase = .idle := by
  by_contra hphase
  exact absurd (h.busy_iff.mpr hphase) (by rw [hidle]; decide)

theorem txn_of_phase_idle {e : Engine} (h : e.phase = .idle) : e.txn = none := by
  simp only [Engine.txn, h]

theorem live_of_inv {s : State} (h : s.Inv) (hphase : s.eng.phase ≠ .idle) : s.eng.Live :=
  ⟨hphase, h.fits, h.sound hphase⟩

/-! ## The end of a move -/

theorem finish_inv {s : State} (h : s.PortFree) (hfits : s.eng.Fits) (err : Err) : (s.finish err).Inv := by
  obtain ⟨hal, hwp, hwc, hwl, hoff, htp, htc, hidx, -⟩ := hfits
  exact inv_of_idle ⟨rfl, h.target, h.legal⟩ rfl rfl ⟨hal, hwp, hwc, hwl, hoff, htp, htc, hidx, by simp⟩

/-- An outcome that is not stuck and leaves a state of the invariant. -/
def Tick.Sound (o : Tick) : Prop := o ≠ .stuck ∧ o.Holds State.Inv

theorem goto_sound {s : State} (h : s.PortFree) (hbusy : s.status.busy = true) (hfits : s.eng.Fits) {nx : Next}
    (hnx : nx.Live) : (s.goto nx).Sound := by
  cases nx with
  | goOn e => exact ⟨nofun, inv_of_live (s := { s with eng := e }) ⟨h.port, h.target, h.legal⟩ hbusy hnx⟩
  | complete => exact ⟨nofun, finish_inv h hfits .none⟩
  | fault err => exact ⟨nofun, finish_inv h hfits err⟩
  | noRow => exact hnx.elim

/-! ## A transaction -/

/-- An answered transaction leaves the port free, the target sound if it is, and one more legal entry. -/
theorem portFree_answer {s : State} (hlegal : ∀ en ∈ s.answered, en.txn.Legal) {x : Txn} (hx : x.Legal) (ok : Bool)
    {u : State} (htarget : ∀ t, u.target = some t → t.Sound) (hport : u.tx = none)
    (ha : u.answered = s.answered ++ [{ txn := x, ok := ok }]) : u.PortFree := by
  refine ⟨hport, htarget, fun en hen => ?_⟩
  rw [ha, List.mem_append, List.mem_singleton] at hen
  rcases hen with hen | rfl
  · exact hlegal en hen
  · exact hx

theorem transact_sound {s : State} (h : s.Inv) (hphase : s.eng.phase ≠ .idle) {x : Txn} (hx : s.eng.txn = some x)
    (hnx : s.eng.afterOk.Live) : (s.transact x).Sound := by
  have hlegal := ((trace_legal_iff s).mp h.legal).1
  have hxl : x.Legal := txn_legal (live_of_inv h hphase) hx
  have hbusy := h.busy_iff.mpr hphase
  unfold State.transact State.await
  split
  · refine goto_sound ?_ (by exact hbusy) (by exact h.fits) hnx
    refine portFree_answer hlegal hxl true (fun t ht => ?_) rfl rfl
    obtain ⟨u, hu, happly⟩ := Option.bind_eq_some_iff.mp ht
    exact apply_sound happly (h.target u hu)
  · refine ⟨nofun, finish_inv ?_ (by exact h.fits) _⟩
    refine portFree_answer hlegal hxl false (fun t ht => ?_) rfl rfl
    obtain ⟨u, hu, rfl⟩ := Option.map_eq_some_iff.mp ht
    exact fail_sound _ _ _ (h.target u hu)
  · refine ⟨nofun, ⟨h.busy_iff, h.fits, h.sound, fun y hy => ?_, h.target, ?_⟩⟩
    · exact hx.trans hy
    · exact (trace_legal_iff _).mpr ⟨hlegal, fun y hy => Option.some.inj hy ▸ hxl⟩

/-- Every row from a state of the invariant is one of R69's, and keeps the invariant. -/
theorem row_sound {s : State} (h : s.Inv) : (row s).Sound := by
  by_cases hphase : s.eng.phase = .idle
  · rw [row_idle hphase]
    exact ⟨nofun, h⟩
  have hlive := move_live s.font (live_of_inv h hphase)
  rcases row_cases s with ⟨hp, -⟩ | ⟨htxn, nx, hmove, hrow⟩ | ⟨x, hx, hmove, hrow⟩
  · exact absurd hp hphase
  · rw [hmove] at hlive
    rw [hrow]
    exact goto_sound (portFree_of_inv h htxn) (h.busy_iff.mpr hphase) h.fits hlive
  · rw [hmove] at hlive
    rw [hrow]
    exact transact_sound h hphase hx hlive

/-! ## Acceptance -/

theorem fits_load {e : Engine} (h : e.Fits) (op : Op) (page col : Byte) {len : Nat} (hlen : len < 4096)
    {payload : List Byte} (hpl : payload.length < 4096) : (e.load op page col len payload).Fits := by
  obtain ⟨-, hwp, hwc, hwl, hoff, htp, htc, -, -⟩ := h
  exact ⟨hlen, hwp, hwc, hwl, hoff, htp, htc, (by decide : 0 < 4096), hpl⟩

section
variable {e : Engine} (h : e.Fits) (page col : Byte)
include h

theorem startInit_live : e.startInit.Live :=
  ⟨nofun, fits_load (len := 0) (payload := []) h .init 0#8 0#8 (by decide) (by decide), .inl ⟨rfl, rfl⟩⟩

theorem startSetpos_live : (e.startSetpos page col).Live := by
  have hpage := page.isLt
  have hcol := col.isLt
  obtain ⟨hal, -, -, hwl, hoff, htp, htc, hidx, hpl⟩ :=
    fits_load (len := 0) (payload := []) h .setpos page col (by decide) (by decide)
  exact ⟨nofun, ⟨hal, show page.toNat < 512 by omega, show col.toNat < 512 by omega, hwl, hoff, htp, htc, hidx, hpl⟩,
    .inl rfl⟩

theorem startWrite_live {data : List Byte} (hlen : data.length ≤ 4095) : (e.startWrite page col data).Live := by
  have hpage := page.isLt
  have hcol := col.isLt
  exact live_callWrite (fits_load h _ _ _ (by omega) (by omega)) (by omega) (by omega) (by omega) trivial rfl

theorem startDrawglyph_live (tag : BitVec 12) (v : Byte) : (e.startDrawglyph page col tag v).Live :=
  ⟨nofun, fits_load h .drawglyph page col tag.isLt (show [v].length < 4096 by simp), rfl, .inl ⟨rfl, rfl⟩⟩

theorem startDrawstr_live {text : List Byte} (hlen : text.length ≤ 4095) : (e.startDrawstr page col text).Live := by
  have hpage := page.isLt
  have hcol := col.isLt
  obtain ⟨hal, hwp, hwc, hwl, hoff, -, -, hidx, hpl⟩ :=
    fits_load (len := text.length) (payload := text) h .drawstr page col (by omega) (by omega)
  exact ⟨nofun, ⟨hal, hwp, hwc, hwl, hoff, show page.toNat < 512 by omega, show col.toNat < 512 by omega, hidx, hpl⟩,
    hpage, hcol, .inl ⟨rfl, Nat.zero_le _⟩⟩

theorem startDrawicon_live {icon : List Byte} (hlen : icon.length = 32) : (e.startDrawicon page col icon).Live := by
  have hpage := page.isLt
  have hcol := col.isLt
  refine live_callWrite (fits_load h _ _ _ (by omega) (by omega)) ?_ ?_ (by decide) ⟨hlen, (by decide : 0 < 4)⟩ ?_
  · simp only [Engine.load, tilePage]; omega
  · simp only [Engine.load, tileCol]; omega
  · simp [Engine.callData, Engine.callWrite, Engine.load, iconTile, tileLen, hlen]

theorem startDrawimg_live {image : List Byte} (hlen : image.length = 384) : (e.startDrawimg page col image).Live := by
  have hpage := page.isLt
  have hcol := col.isLt
  refine live_callWrite (fits_load h _ _ _ (by omega) (by omega)) ?_ ?_ (by decide) ⟨hlen, (by decide : 0 < 384)⟩ ?_
  · simp only [Engine.load, imagePage, imgCols]; omega
  · simp only [Engine.load, imageCol, imgCols]; omega
  · simp [Engine.callData, Engine.callWrite, Engine.load, imageByte, hlen]

theorem startClear_live : e.startClear.Live :=
  live_callWrite (fits_load (len := 0) (payload := []) h _ _ _ (by decide) (by decide)) (by simp [Engine.load])
    (by decide) (by decide) (by decide : 0 < 8) (by simp [Engine.callData, Engine.callWrite, Engine.load, clearBytes])

end

/-- Every request starts at a sound position. -/
theorem startOf_live {i : Instr} {op : Op} (hop : opOf i = some op) (hwf : i.wellFormed = true) {e : Engine}
    (h : e.Fits) : (startOf i e).Live := by
  cases i <;> simp only [opOf, reduceCtorEq] at hop
  case init => exact startInit_live h
  case setpos p c => exact startSetpos_live h p c
  case write p c data => exact startWrite_live h p c (of_decide_eq_true hwf)
  case drawglyph p c tag v => exact startDrawglyph_live h p c tag v
  case drawstr p c text => exact startDrawstr_live h p c (of_decide_eq_true hwf)
  case drawicon p c icon => exact startDrawicon_live h p c (of_decide_eq_true hwf)
  case drawimg p c image => exact startDrawimg_live h p c (of_decide_eq_true hwf)
  case clear => exact startClear_live h

theorem accepting_inv {s : State} (h : s.Inv) (hidle : s.Idle) {i : Instr} {op : Op} (hop : opOf i = some op)
    (hwf : i.wellFormed = true) (inputs : List Input) (pl : List Byte) : (s.accepting i inputs pl).Inv := by
  obtain ⟨hport, htarget, hlegal⟩ := portFree_of_inv h (txn_of_phase_idle (phase_idle_of_idle h hidle))
  exact inv_of_live ⟨hport, htarget, hlegal⟩ rfl (startOf_live hop hwf h.fits)

/-! ## Everything else a step can begin with -/

theorem applyAll_sound {xs : List Txn} {t t' : Target} (h : Target.applyAll xs t = some t') (hs : t.Sound) :
    t'.Sound := by
  induction xs generalizing t with
  | nil => cases h; exact hs
  | cons x xs ih =>
    obtain ⟨u, hu, h⟩ := Option.bind_eq_some_iff.mp h
    exact ih h (apply_sound hu hs)

/-- A state that differs from one of the invariant only in its target, inputs and counter. -/
theorem inv_of_target {s u : State} (h : s.Inv) (heng : u.eng = s.eng) (hstatus : u.status = s.status)
    (htx : u.tx = s.tx) (hans : u.answered = s.answered) (htarget : ∀ t, u.target = some t → t.Sound) : u.Inv where
  busy_iff := by rw [heng, hstatus]; exact h.busy_iff
  fits := heng ▸ h.fits
  sound := heng ▸ h.sound
  port := by rw [htx, heng]; exact h.port
  target := htarget
  legal := by rw [State.trace, htx, hans]; exact h.legal

theorem takeBytes_inv {s : State} (h : s.Inv) (inputs : List Input) (bytes : List Byte) :
    (({ s with inputs := inputs }).takeBytes bytes).Inv := by
  refine inv_of_target h rfl rfl rfl rfl fun t ht => ?_
  obtain ⟨u, hu, happly⟩ := Option.bind_eq_some_iff.mp ht
  exact applyAll_sound happly (h.target u hu)

theorem targetPowerOn_inv {s : State} (h : s.Inv) (inputs : List Input) :
    ({ s with inputs := inputs } : State).targetPowerOn.Inv := by
  refine inv_of_target h rfl rfl rfl rfl fun t ht => ?_
  cases ht
  exact ⟨reset_wf, fun _ => freePend_mem⟩

theorem engineReset_inv {s : State} (h : s.Inv) (inputs : List Input) :
    ({ s with inputs := inputs } : State).engineReset.Inv := by
  refine inv_of_idle ⟨rfl, fun t ht => ?_, nofun⟩ rfl rfl reset_fits
  rw [engineReset_target] at ht
  rcases settleInFlight_target { s with inputs := inputs } with hkept | ⟨x, -, hdelivered⟩
  · exact h.target t (hkept.symm.trans ht)
  · obtain ⟨u, hu, happly⟩ := Option.bind_eq_some_iff.mp (hdelivered.symm.trans ht)
    exact apply_sound happly (h.target u hu)

theorem illegalRequest_inv {s : State} (h : s.Inv) (hidle : s.Idle) (inputs : List Input) :
    ({ s with inputs := inputs } : State).illegalRequest.Inv := by
  obtain ⟨hport, htarget, hlegal⟩ := portFree_of_inv h (txn_of_phase_idle (phase_idle_of_idle h hidle))
  exact finish_inv (s := ({ s with inputs := inputs } : State).accept s.eng) ⟨hport, htarget, hlegal⟩ h.fits _

/-- Settles O54: every row keeps the invariant, and so does everything else a step can begin with. -/
theorem invariantKept : Obligations.InvariantKept := fun _ _ h hstep =>
  step_keeps h hstep (fun _ hu => (row_sound hu).2) (fun rest _ => engineReset_inv h rest)
    (fun rest _ => targetPowerOn_inv h rest)
    (fun _ _ inputs pl hop hwf hidle => accepting_inv h hidle hop hwf inputs pl)
    (fun inputs hidle => illegalRequest_inv h hidle inputs) (fun _ _ _ inputs bytes => takeBytes_inv h inputs bytes)

/-! ## No run is stuck -/

theorem andThen_sound {o : Tick} (ho : o.Sound) {f : State → Tick} (hf : ∀ s, s.Inv → (f s).Sound) :
    (o.andThen f).Sound := by
  obtain ⟨hne, hinv⟩ := ho
  cases o with
  | go s => exact hf s hinv
  | stop s => exact ⟨nofun, hinv⟩
  | stuck => exact absurd rfl hne

theorem rowN_sound (n : Nat) {s : State} (h : s.Inv) : (rowN n s).Sound := by
  induction n generalizing s with
  | zero => exact ⟨nofun, h⟩
  | succ n ih => exact andThen_sound (row_sound h) fun _ hu => ih hu

theorem ticks_sound (k : Nat) {s : State} (h : s.Inv) : (ticks k s).Sound := by
  induction k generalizing s with
  | zero =>
    obtain ⟨j, -, hj⟩ := tick_eq s
    exact (hj ▸ rowN_sound j h : (tick s).Sound)
  | succ k ih => exact andThen_sound (ih h) fun _ hu => ih hu

/-- A run from the invariant has a next state. -/
theorem run_next_of_inv {s : State} (h : s.Inv) : ∃ t, s.run = .next t := by
  obtain ⟨j, hj⟩ := settle_eq s
  have hsound : (s.settle.andThen (ticks runDepth)).Sound :=
    andThen_sound (hj ▸ rowN_sound j h) fun _ hu => ticks_sound runDepth hu
  unfold State.run
  cases ho : s.settle.andThen (ticks runDepth) with
  | go u => exact ⟨u, rfl⟩
  | stop u => exact ⟨u, rfl⟩
  | stuck => exact absurd ho hsound.1

/-- Settles O55: every case of a step but that of too few payload bytes has a next state. -/
theorem onlyShortPayloadStops : Obligations.OnlyShortPayloadStops := by
  intro s h
  have hcases : (∃ t, step s = .next t) ∨ (step s = .fault .payloadShort ∧ s.Idle ∧
      ∃ h rest, s.inputs = .request h :: rest ∧ s.payloadPort.length < impliedPayload h) := by
    cases stepCase s with
    | reset _ hstep | powerOn _ hstep | noInput _ hstep | illegal _ _ hstep | command _ _ hstep =>
      exact .inl ⟨_, hstep⟩
    | goesOn _ hstep => exact .inl (hstep ▸ run_next_of_inv h)
    | accepts hidle _ hop hwf hstep => exact .inl (hstep ▸ run_next_of_inv (accepting_inv h hidle hop hwf _ _))
    | short hidle hin hshort hstep => exact .inr ⟨hstep, hidle, _, _, hin, hshort⟩
  rcases hcases with ⟨t, hstep⟩ | ⟨hstep, hshort⟩ <;> rw [hstep]
  · exact ⟨nofun, nofun⟩
  · exact ⟨nofun, fun f hf => by cases hf; exact ⟨rfl, hshort⟩⟩

end Sys2Proof.Machine
end

section
/-!
PROOF. A whole operation of an idle engine (60_exceptions.md R84 to R87, 70_reset_and_hazards.md R102): every
transaction answered ok, one failed, or one left unanswered. The engine's moves are those of `request_goes`, and
`run_ok`, `run_fail` and `run_wait` say what a run makes of them.
-/

namespace Sys2Proof.Machine

/-- Every transaction answered ok: the operation ends with its own transactions and code. -/
theorem exec_ends {i : Instr} {op : Op} (hop : opOf i = some op) (hwf : i.wellFormed = true) {s : State}
    (hidle : s.Idle) {ts : List Txn} {err : Err} (hreq : requestTxns s.font i = (ts, err))
    (hok : allOk ts.length s.answers) : Ends i s ts err := by
  obtain ⟨n, hn, hb, hgoes⟩ := request_goes s.font hop hwf s.eng
  rw [hreq] at hgoes
  obtain ⟨hdone, hfault⟩ := run_ok (s := s.accept (startOf i s.eng)) hn hb.le hgoes hok
  have hend : ∃ e, (s.accept (startOf i s.eng)).run =
      .next (((s.accept (startOf i s.eng)).played ts e).finish err) := by
    cases err with
    | none => exact hdone rfl
    | invalidGlyphInput | emptyPayload | transportFailure | illegalRequest => exact hfault _ rfl
  obtain ⟨e, hrun⟩ := hend
  exact ⟨{ e with phase := .idle, payload := [] }, rfl, (exec_idle hop hidle).trans hrun⟩

/-- Settles O47: `exec_ends` with the transactions the spec writes down. -/
theorem requestsEnd : Obligations.RequestsEnd := fun _ _ _ hop hwf hidle hok => exec_ends hop hwf hidle rfl hok

/-- Settles O41: the engine at the failed transaction is still at the operation it accepted. -/
theorem transportFailureAborts : Obligations.TransportFailureAborts := by
  intro i op s k rest hop hwf hidle hk hans
  obtain ⟨n, -, hb, hgoes⟩ := request_goes s.font hop hwf s.eng
  obtain ⟨e, heop, hrun⟩ := run_fail (s := s.accept (startOf i s.eng)) hb.le hgoes hk hans
  obtain rfl : e.op = op := heop.trans (exec_request hop s).2.1
  exact ⟨{ e with phase := .idle, payload := [] }, rfl, (exec_idle hop hidle).trans hrun⟩

/-- A position whose move issues a transaction is one that issues it. -/
theorem txn_of_move {font : List GlyphRow} {e : Engine} {x : Txn} (h : (e.move font).1 = some x) :
    e.txn = some x := by
  unfold Engine.move at h
  split at h
  case h_1 | h_2 | h_3 => cases h
  all_goals
    split at h
    next y hy => rw [hy, ← h]
    next => cases h

/-- Settles O43: the engine stands at the unanswered transaction, with the ones before it played. -/
theorem unansweredIsHeld : Obligations.UnansweredIsHeld := by
  intro i op s k rest hop hwf hidle hk hans
  obtain ⟨n, -, hb, hgoes⟩ := request_goes s.font hop hwf s.eng
  obtain ⟨-, e, -, -, hmove, hrun⟩ := run_wait (s := s.accept (startOf i s.eng)) hb.le hgoes hk hans
  have htxn := txn_of_move hmove
  have hphase : e.phase ≠ .idle := fun hp => by
    rw [txn_of_phase_idle hp] at htxn
    cases htxn
  refine ⟨e, _, hphase, htxn, (exec_idle hop hidle).trans hrun, rfl, fun htx => ?_⟩
  simp [State.trace, State.played, htx, Function.comp_def]

/-! ## The step after an unanswered transaction -/

/-- Rows that stop, seen from a state on their way. -/
theorem rowN_from_go {s u s' : State} {n j : Nat} (hgo : rowN j s = .go u) (hstop : rowN n s = .stop s') :
    ∃ d, 0 < d ∧ d ≤ n ∧ rowN d u = .stop s' := by
  rcases Nat.lt_or_ge j n with hlt | hle
  · obtain ⟨d, rfl⟩ := Nat.exists_eq_add_of_lt hlt
    rw [Nat.add_assoc, rowN_add, hgo] at hstop
    exact ⟨d + 1, d.succ_pos, by omega, hstop⟩
  · rw [rowN_mono hstop hle] at hgo
    cases hgo

/-- What is on the port of an engine that issues a transaction has no effect on its rows. -/
theorem rowN_tx {s : State} {x : Txn} (h : (s.eng.move s.font).1 = some x) (port : Option Txn) {d : Nat} (hd : 0 < d) :
    rowN d { s with tx := port } = rowN d s := by
  obtain ⟨d, rfl⟩ := Nat.exists_eq_succ_of_ne_zero hd.ne'
  exact congrArg (fun o => o.andThen (rowN d)) (row_tx port s.tx h)

theorem endOf_ends (err : Err) : endOf err = .complete ∨ ∃ e, endOf err = .fault e := by
  cases err <;> simp [endOf]

/-- A run can be cut before any of its transactions: from there on it gives the same, whatever is on the port. -/
theorem run_resumes {n : Nat} {s : State} {ts : List Txn} {err : Err} {k : Nat} {rest : List Answer}
    (hb : n ≤ 2 ^ runDepth) (hgoes : s.eng.goes s.font n = (ts, endOf err)) (hk : k < ts.length)
    (hans : s.answers = List.replicate k .ok ++ rest) {m : Nat} {e : Engine}
    (he : s.eng.goes s.font m = (ts.take k, .goOn e)) (hmove : (e.move s.font).1 = some ts[k]) (port : Option Txn) :
    ({ s.played (ts.take k) e with answers := rest, tx := port } : State).run = s.run := by
  obtain ⟨m', e', -, he', hmove', j, -, hgo, -⟩ := run_reaches hb hgoes hk (allOk_replicate hans)
  obtain rfl : e' = e := goes_unique he' he hmove' hmove
  obtain ⟨n', s', hn', hstop⟩ := rowN_stops n hgoes (endOf_ends err)
  obtain ⟨d, hd, hdn, hstop'⟩ := rowN_from_go hgo hstop
  rw [← rowN_tx hmove port hd] at hstop'
  rw [← played_answers e' hk hans, run_stop hstop (hn'.trans hb)]
  exact run_stop hstop' (hdn.trans (hn'.trans hb))

/-- Settles O44: the state after the wait is the one on the way of the run without it, but for the port. -/
theorem waitingIsInvisible : Obligations.WaitingIsInvisible := by
  intro i op s t k rest hop hwf hidle hk hrst hpow hans hexec
  obtain ⟨n, -, hb, hgoes⟩ := request_goes s.font hop hwf s.eng
  obtain ⟨m, e, -, he, hmove, hwait⟩ := run_wait (s := s.accept (startOf i s.eng)) hb.le hgoes hk hans
  have ht := Host.Outcome.next.inj (hexec.symm.trans ((exec_idle hop hidle).trans hwait))
  have hbusy : t.status.busy = true := by rw [ht]; rfl
  have hin : t.inputs = s.inputs := by rw [ht]; rfl
  rw [exec_idle hop (s := { s with answers := List.replicate k .ok ++ rest }) hidle,
    step_busy hbusy (hin ▸ hrst) (hin ▸ hpow), ht]
  exact run_resumes (s := ({ s with answers := List.replicate k .ok ++ rest } : State).accept (startOf i s.eng))
    hb.le hgoes hk rfl he hmove _

end Sys2Proof.Machine
end

section
/-!
PROOF. The faults of an operation's own (60_exceptions.md R82, R85): which operands end in `InvalidGlyphInput` and
which in `EmptyPayload`.
-/

namespace Sys2Proof.Machine

/-- Settles O25: such a tag names no source, and such a code has no entry. -/
theorem drawglyphFaults : Obligations.DrawglyphFaults := by
  intro s p c tag v hidle h
  have hnone : glyphRow s.font (glyphSource tag.toNat v) = none := by
    rcases h with htag | ⟨rfl, hcode⟩ | ⟨rfl, hcode⟩
    · have hsrc : glyphSource tag.toNat v = none := by
        rw [glyphSource, if_neg (by omega), if_neg (by omega)]
      rw [hsrc]
      rfl
    · exact (fontRow_eq_none_iff s.font _).mpr hcode
    · exact (fontRow_eq_none_iff s.font _).mpr (.inr (by rw [glyphCode_index]; omega))
  exact exec_ends (op := .drawglyph) rfl rfl hidle (by simp only [requestTxns, hnone]) (by simp [allOk])

/-- A text ends normally or at a character with no entry (R75). -/
theorem textTxns_err (font : List GlyphRow) (startPage startCol : Nat) (t : TextCursor) (text : List Byte) :
    (textTxns font startPage startCol t text).2 = .none ∨
      (textTxns font startPage startCol t text).2 = .invalidGlyphInput := by
  induction text generalizing t with
  | nil => exact .inl rfl
  | cons c text ih =>
    unfold textTxns
    split
    · exact .inr rfl
    · exact ih _

/-- The only operation whose own code is `EmptyPayload` (R67). -/
theorem requestTxns_emptyPayload {font : List GlyphRow} {i : Instr} (h : (requestTxns font i).2 = .emptyPayload) :
    ∃ p c, i = .write p c [] := by
  cases i
  case write p c data =>
    cases data with
    | nil => exact ⟨p, c, rfl⟩
    | cons d ds => cases h
  case drawglyph p c tag v =>
    simp only [requestTxns] at h
    split at h <;> cases h
  case drawstr p c text =>
    rcases textTxns_err font p.toNat c.toNat { page := p.toNat, col := c.toNat } text with herr | herr <;>
      cases herr.symm.trans h
  all_goals cases h

/-- Settles O28: an operation ends with its own code, or `TransportFailure`, or not at all. -/
theorem emptyPayload : Obligations.EmptyPayload := by
  refine ⟨fun s p c hidle => exec_ends (op := .write) rfl rfl hidle rfl (by simp [allOk]),
    fun i s t op hop hwf hidle hexec herr => ?_⟩
  rcases hreq : requestTxns s.font i with ⟨ts, err⟩
  rcases allOk_or_first_not_ok ts.length s.answers with hok | ⟨k, hk, rest, hans | hans⟩
  · obtain ⟨-, hstatus, -⟩ := exec_leaves_of_allOk hop hwf hidle hreq hexec hok
    rw [hstatus] at herr
    exact requestTxns_emptyPayload (font := s.font) (by rw [hreq]; exact herr)
  · obtain ⟨-, hstatus, -⟩ := exec_leaves_of_fail hop hwf hidle hreq hexec hk hans
    rw [hstatus] at herr
    cases herr
  · obtain ⟨-, hstatus, -⟩ := exec_leaves_of_wait hop hwf hidle hreq hexec hk hans
    rw [hstatus] at herr
    cases herr

end Sys2Proof.Machine
end

section
/-!
PROOF. The transactions of the operations in closed form, and how many they are (47_common_laws.md R107): a write of
at most 32 bytes is four transactions, a text is its glyphs at the closed forms of R73 and R74, an image is its bytes
in index order.
-/

namespace Sys2Proof.Machine

/-! ## Writes -/

theorem chunks_of_le {data : List Byte} (hne : data ≠ []) (hle : data.length ≤ chunkMax) : chunks data = [data] := by
  have hpos : 0 < data.length := List.length_pos_of_ne_nil hne
  have hcount : chunkCount data.length = 1 := by
    simp only [chunkCount, chunkMax] at *
    omega
  simp [chunks, hcount, chunkAt, List.take_of_length_le hle]

/-- A write of at most 32 bytes is its position and one block (R66, R68). -/
theorem writeTxns_of_le (page col : Nat) {data : List Byte} (hne : data ≠ []) (hle : data.length ≤ chunkMax) :
    writeTxns page col data = setPosTxns page col ++ [Txn.data data] := by
  rw [writeTxns, chunks_of_le hne hle, List.map_singleton]

theorem length_writeTxns (page col : Nat) (data : List Byte) :
    (writeTxns page col data).length = 3 + chunkCount data.length := by
  simp [writeTxns, setPosTxns]
  omega

theorem length_flatMap_const {α β : Type} {l : List α} {f : α → List β} {n : Nat} (h : ∀ x ∈ l, (f x).length = n) :
    (l.flatMap f).length = l.length * n := by
  rw [List.length_flatMap, List.map_congr_left h, List.map_const', List.sum_replicate_nat]

/-! ## Glyphs and texts -/

theorem glyphTxns_eq (row : GlyphRow) (page col : Nat) :
    glyphTxns row page col = setPosTxns page col ++ [Txn.data (upperBytes row).toList] ++
      setPosTxns (page + 1) col ++ [Txn.data (lowerBytes row).toList] := by
  rw [glyphTxns, writeTxns_of_le _ _ (toList_ne_nil _) (by simp [chunkMax]),
    writeTxns_of_le _ _ (toList_ne_nil _) (by simp [chunkMax]), List.append_assoc _ _ [_]]

theorem length_glyphTxns (row : GlyphRow) (page col : Nat) : (glyphTxns row page col).length = 8 := by
  rw [glyphTxns_eq]
  rfl

/-- How many characters fit on a line from its start column (R73). -/
def charsPerLine (startCol : Nat) : Nat := if startCol ≤ 118 then (118 - startCol) / 11 + 1 else 1

/-- How many lines there are before the page returns to its start (R74). -/
def linesPerPass (startPage : Nat) : Nat := if startPage < 7 then (7 - startPage + 1) / 2 else 1

/-- Where character `i` of a text goes (R73, R74). -/
def charCursor (startPage startCol i : Nat) : TextCursor :=
  { page := startPage + 2 * (i / charsPerLine startCol % linesPerPass startPage)
    col := startCol + 11 * (i % charsPerLine startCol) }

theorem charCursor_zero (startPage startCol : Nat) :
    charCursor startPage startCol 0 = { page := startPage, col := startCol } := by
  simp [charCursor]

theorem charsPerLine_pos (startCol : Nat) : 0 < charsPerLine startCol := by
  unfold charsPerLine
  split <;> omega

theorem linesPerPass_pos (startPage : Nat) : 0 < linesPerPass startPage := by
  unfold linesPerPass
  split <;> omega

/-- Character number `k` of a line is its last exactly when the next one would be past column 118 (R73). -/
theorem charsPerLine_last {startCol k : Nat} (hk : k < charsPerLine startCol) :
    118 < startCol + 11 * k + 11 ↔ k + 1 = charsPerLine startCol := by
  unfold charsPerLine at *
  split_ifs at * <;> omega

/-- Line number `k` of a pass is its last exactly when the next one would be at page 7 or below (R74). -/
theorem linesPerPass_last {startPage k : Nat} (hk : k < linesPerPass startPage) :
    7 ≤ startPage + 2 * k + 2 ↔ k + 1 = linesPerPass startPage := by
  unfold linesPerPass at *
  split_ifs at * <;> omega

/-- Quotient and remainder of the next number, at the end of a round. -/
theorem succ_div_mod_of_last {i m : Nat} (h : i % m + 1 = m) : (i + 1) / m = i / m + 1 ∧ (i + 1) % m = 0 := by
  have hdiv := Nat.mod_add_div i m
  refine (Nat.div_mod_unique (by omega)).mpr ⟨?_, by omega⟩
  rw [Nat.mul_succ]
  omega

/-- Quotient and remainder of the next number, inside a round. -/
theorem succ_div_mod_of_lt {i m : Nat} (h : i % m + 1 < m) : (i + 1) / m = i / m ∧ (i + 1) % m = i % m + 1 := by
  have hdiv := Nat.mod_add_div i m
  exact (Nat.div_mod_unique (by omega)).mpr ⟨by omega, h⟩

/-- The page of a text never reaches 7, unless it starts there (R74). -/
theorem page_lt_of_line {startPage k : Nat} (hk : k < linesPerPass startPage) (h : 7 ≤ startPage + 2 * k) :
    startPage + 2 * k = startPage := by
  unfold linesPerPass at hk
  split at hk <;> omega

/-- The advance of the text cursor is the next character's place (R73, R74). -/
theorem advance_charCursor (startPage startCol i : Nat) :
    (charCursor startPage startCol i).advance startPage startCol = charCursor startPage startCol (i + 1) := by
  have hchar := Nat.mod_lt i (charsPerLine_pos startCol)
  have hline := Nat.mod_lt (i / charsPerLine startCol) (linesPerPass_pos startPage)
  rcases Nat.eq_or_lt_of_le (Nat.succ_le_of_lt hchar) with hlast | hmore
  · obtain ⟨hdiv, hmod⟩ := succ_div_mod_of_last hlast
    rw [advance_of_wrap ((charsPerLine_last hchar).mpr hlast)]
    simp only [charCursor, hdiv, hmod, linesPerPass_last hline]
    rcases Nat.eq_or_lt_of_le (Nat.succ_le_of_lt hline) with hend | hnext
    · rw [if_pos hend, (succ_div_mod_of_last hend).2]
      rfl
    · rw [if_neg hnext.ne, (succ_div_mod_of_lt hnext).2]
      rfl
  · obtain ⟨hdiv, hmod⟩ := succ_div_mod_of_lt hmore
    have hfits : ¬ 118 < startCol + 11 * (i % charsPerLine startCol) + 11 :=
      fun h => hmore.ne ((charsPerLine_last hchar).mp h)
    rw [advance_of_fits (Nat.le_of_not_lt hfits)]
    simp only [charCursor, hdiv, hmod, TextCursor.mk.injEq]
    exact ⟨ite_eq_right_iff.mpr fun hpage => (page_lt_of_line hline hpage).symm, by omega⟩

/-! ## Texts -/

/-- The transactions of the glyphs `rows`, the first of them character number `i` of a text. -/
def placedGlyphs (startPage startCol i : Nat) (rows : List GlyphRow) : List Txn :=
  (rows.zipIdx i).flatMap fun x =>
    glyphTxns x.1 (charCursor startPage startCol x.2).page (charCursor startPage startCol x.2).col

theorem length_placedGlyphs (startPage startCol i : Nat) (rows : List GlyphRow) :
    (placedGlyphs startPage startCol i rows).length = 8 * rows.length := by
  rw [placedGlyphs, length_flatMap_const fun x _ => length_glyphTxns x.1 _ _, List.length_zipIdx, Nat.mul_comm]

/-- Characters with entries are drawn, each at its place, before whatever follows them (R72). -/
theorem textTxns_append {font : List GlyphRow} {good : List Byte} {rows : List GlyphRow}
    (hrows : good.map (fun ch => glyphRow font (some (.char ch))) = rows.map some) (startPage startCol i : Nat)
    (more : List Byte) :
    textTxns font startPage startCol (charCursor startPage startCol i) (good ++ more) =
      (placedGlyphs startPage startCol i rows ++
          (textTxns font startPage startCol (charCursor startPage startCol (i + good.length)) more).1,
        (textTxns font startPage startCol (charCursor startPage startCol (i + good.length)) more).2) := by
  induction good generalizing rows i with
  | nil =>
    obtain rfl : rows = [] := by simpa using hrows.symm
    rfl
  | cons ch good ih =>
    cases rows with
    | nil => cases hrows
    | cons row rows =>
      obtain ⟨hrow, hrows⟩ := List.cons.inj hrows
      simp only [List.cons_append, textTxns, hrow, advance_charCursor, ih hrows]
      simp [placedGlyphs, Nat.add_assoc, Nat.add_comm 1]

/-- A text whose characters all have entries. -/
theorem requestTxns_drawstr {font : List GlyphRow} {text : List Byte} {rows : List GlyphRow}
    (hrows : text.map (fun ch => glyphRow font (some (.char ch))) = rows.map some) (p c : Byte) :
    requestTxns font (.drawstr p c text) = (placedGlyphs p.toNat c.toNat 0 rows, .none) := by
  have h := textTxns_append hrows p.toNat c.toNat 0 []
  simp only [List.append_nil, charCursor_zero, textTxns] at h
  exact h

/-- A text up to its first character with no entry (R75). -/
theorem requestTxns_drawstr_bad {font : List GlyphRow} {good : List Byte} {rows : List GlyphRow}
    (hrows : good.map (fun ch => glyphRow font (some (.char ch))) = rows.map some) {bad : Byte}
    (hbad : glyphRow font (some (.char bad)) = none) (p c : Byte) (rest : List Byte) :
    requestTxns font (.drawstr p c (good ++ bad :: rest)) =
      (placedGlyphs p.toNat c.toNat 0 rows, .invalidGlyphInput) := by
  have h := textTxns_append hrows p.toNat c.toNat 0 (bad :: rest)
  simp only [charCursor_zero, textTxns, hbad, List.append_nil] at h
  exact h

/-- The entries of characters that all have one. -/
theorem exists_rows {font : List GlyphRow} {text : List Byte}
    (h : ∀ ch ∈ text, glyphRow font (some (.char ch)) ≠ none) :
    ∃ rows : List GlyphRow, text.map (fun ch => glyphRow font (some (.char ch))) = rows.map some := by
  induction text with
  | nil => exact ⟨[], rfl⟩
  | cons ch text ih =>
    obtain ⟨row, hrow⟩ := Option.ne_none_iff_exists'.mp (h ch List.mem_cons_self)
    obtain ⟨rows, hrows⟩ := ih fun c hc => h c (List.mem_cons_of_mem ch hc)
    exact ⟨row :: rows, by simp only [List.map_cons, hrow, hrows]⟩

theorem length_of_rows {font : List GlyphRow} {text : List Byte} {rows : List GlyphRow}
    (h : text.map (fun ch => glyphRow font (some (.char ch))) = rows.map some) : rows.length = text.length := by
  simpa using (congrArg List.length h).symm

/-- Settles O29: `placedGlyphs` at the closed forms of R73 and R74. -/
theorem drawstrEnds : Obligations.DrawstrEnds := by
  intro s p c text rows m q hidle hlen hok hrows hm hq
  subst hm hq
  rw [← length_of_rows hrows, ← length_placedGlyphs p.toNat c.toNat 0] at hok
  exact exec_ends (i := .drawstr p c text) (op := .drawstr) rfl (decide_eq_true hlen) hidle
    (requestTxns_drawstr hrows p c) hok

/-- Settles O31: the text up to the bad character has the transactions of that text alone. -/
theorem drawstrFaults : Obligations.DrawstrFaults := by
  intro s p c good bad rest hidle hlen hok hgood hbad
  obtain ⟨rows, hrows⟩ := exists_rows hgood
  rw [requestTxns_drawstr hrows]
  exact ⟨by rw [length_placedGlyphs, length_of_rows hrows],
    exec_ends (i := .drawstr p c (good ++ bad :: rest)) (op := .drawstr) rfl (decide_eq_true hlen) hidle
      (requestTxns_drawstr_bad hrows hbad p c rest) (by rwa [length_placedGlyphs, length_of_rows hrows])⟩

/-! ## Icons, images, `CLEAR` -/

theorem iconTxns_eq (page col : Nat) {icon : List Byte} (hlen : icon.length = 32) :
    iconTxns page col icon =
      setPosTxns page col ++ [Txn.data (iconTile icon 0)] ++
      setPosTxns page (col + 8) ++ [Txn.data (iconTile icon 1)] ++
      setPosTxns (page + 1) col ++ [Txn.data (iconTile icon 2)] ++
      setPosTxns (page + 1) (col + 8) ++ [Txn.data (iconTile icon 3)] := by
  have htile (j : Nat) (hj : j < 4) : (iconTile icon j).length = 8 := by
    simp [iconTile, tileLen]; omega
  have hwrite (page col j : Nat) (hj : j < 4) :
      writeTxns page col (iconTile icon j) = setPosTxns page col ++ [Txn.data (iconTile icon j)] :=
    writeTxns_of_le page col (List.ne_nil_of_length_pos (by rw [htile j hj]; decide)) (by rw [htile j hj]; decide)
  simp only [iconTxns, hwrite _ _ 0 (by decide), hwrite _ _ 1 (by decide), hwrite _ _ 2 (by decide),
    hwrite _ _ 3 (by decide), List.append_assoc]

/-- The indices of a table, row by row. -/
theorem range_mul (a b : Nat) :
    List.range (a * b) = (List.range a).flatMap fun q => (List.range b).map (q * b + ·) := by
  induction a with
  | zero => simp
  | succ a ih => rw [Nat.succ_mul, List.range_add, List.range_succ, List.flatMap_append, ih, List.flatMap_singleton]

theorem imageByte_eq {image : List Byte} {k : Nat} (hk : k < image.length) :
    imageByte image k = [image.getD k 0#8] := by
  rw [imageByte, List.drop_eq_getElem_cons hk, List.take_succ_cons, List.take_zero, List.getD_eq_getElem _ _ hk]

/-- An image is its 384 bytes in index order, each a write of its own (R77). -/
theorem imageTxns_eq (page col : Nat) {image : List Byte} (hlen : image.length = 384) :
    imageTxns page col image = (List.range 384).flatMap fun k =>
      setPosTxns (page + k / 64) (col + k % 64) ++ [Txn.data [image.getD k 0#8]] := by
  rw [show 384 = 6 * 64 from rfl, range_mul, List.flatMap_assoc]
  simp only [imageTxns, List.flatMap_map]
  refine List.flatMap_congr fun q hq => List.flatMap_congr fun k hk => ?_
  have hq := List.mem_range.mp hq
  have hk := List.mem_range.mp hk
  have hrow : (q * 64 + k) / 64 = q := by omega
  have hcol : (q * 64 + k) % 64 = k := by omega
  rw [hrow, hcol, imageByte_eq (by omega), writeTxns_of_le _ _ (by simp) (by simp [chunkMax])]

/-- `CLEAR` is eight pages of four zero blocks (R81). -/
theorem clearTxns_eq : clearTxns = (List.range 8).flatMap fun page =>
    setPosTxns page 0 ++ List.replicate 4 (.data (List.replicate 32 0x00#8)) := by
  have hchunks : chunks (List.replicate 128 0x00#8) = List.replicate 4 (List.replicate 32 0x00#8) := by
    have hcount : chunkCount 128 = 4 := rfl
    simp only [chunks, chunkAt, chunkMax, List.length_replicate, hcount, List.drop_replicate, List.take_replicate]
    rfl
  simp only [clearTxns, writeTxns, hchunks, List.map_replicate]

/-- A text that ends normally has eight transactions a character (R107). -/
theorem length_textTxns {font : List GlyphRow} {startPage startCol : Nat} {text : List Byte} {t : TextCursor}
    (h : (textTxns font startPage startCol t text).2 = .none) :
    (textTxns font startPage startCol t text).1.length = 8 * text.length := by
  induction text generalizing t with
  | nil => rfl
  | cons ch text ih =>
    unfold textTxns at h ⊢
    split at h
    · cases h
    next row _ =>
      simp only [List.length_append, length_glyphTxns, ih h, List.length_cons]
      omega

/-- Settles O48: each operation by its closed form. -/
theorem transactionCounts : Obligations.TransactionCounts := by
  refine fun font => ⟨rfl, fun _ _ => rfl, fun p c data hne => ?write, fun p c tag v hend => ?glyph,
    fun p c text hend => length_textTxns hend, fun p c icon hlen => ?icon, fun p c image hlen => ?image, ?clear⟩
  case write =>
    simp only [requestTxns, if_neg hne]
    exact length_writeTxns _ _ _
  case glyph =>
    simp only [requestTxns] at hend ⊢
    split at hend
    · cases hend
    next row _ => simp only [length_glyphTxns]
  case icon =>
    simp only [requestTxns, iconTxns_eq _ _ hlen]
    rfl
  case image =>
    simp only [requestTxns, imageTxns_eq _ _ hlen]
    rw [length_flatMap_const (n := 4) fun _ _ => rfl, List.length_range]
  case clear =>
    simp only [requestTxns, clearTxns_eq]
    rw [length_flatMap_const (n := 7) fun _ _ => rfl, List.length_range]

end Sys2Proof.Machine
end

section
/-!
PROOF. The two operations that write no data: `SETPOS` and `INIT` (41_addressing_engine.md R56, 46_display_controller.md
R79, R80), with their bytes and their whole effect on the target.
-/

namespace Sys2Proof.Machine

/-! ## `SETPOS` -/

/-- A byte masked as a number is the byte masked. -/
theorem ofNat_toNat_and (b : Byte) {mask : Nat} (h : mask < 256) :
    BitVec.ofNat 8 (b.toNat &&& mask) = b &&& BitVec.ofNat 8 mask := by
  apply BitVec.eq_of_toNat_eq
  rw [BitVec.toNat_and, BitVec.toNat_ofNat, BitVec.toNat_ofNat, Nat.mod_eq_of_lt h,
    Nat.mod_eq_of_lt (Nat.and_le_right.trans_lt h)]

/-- The three bytes of a position whose operands are bytes, as R44 writes them. -/
theorem setPosTxns_toNat (p c : Byte) : setPosTxns p.toNat c.toNat =
    [.cmd (0xB0#8 ||| (p &&& 0x07#8)), .cmd (0x00#8 ||| (c &&& 0x0F#8)), .cmd (0x10#8 ||| ((c >>> 4) &&& 0x0F#8))] := by
  rw [setPosTxns, pageByte, colLoByte, colHiByte, ofNat_toNat_and p (by decide), ofNat_toNat_and c (by decide),
    ← BitVec.toNat_ushiftRight, ofNat_toNat_and _ (by decide)]

/-- A byte cut to fewer bits. -/
theorem ofNat_toNat_eq_extractLsb' (b : Byte) {w : Nat} (hw : w ≤ 8) : BitVec.ofNat w b.toNat = b.extractLsb' 0 w := by
  have h := extractLsb'_ofNat_byte b.toNat (start := 0) (width := w) (by omega)
  rw [BitVec.ofNat_toNat, BitVec.setWidth_eq, Nat.shiftRight_zero] at h
  exact h.symm

/-- Settles O14: the bytes by `setPosTxns_toNat`, the cursor by `applyAll_setPosTxns`. -/
theorem setposEnds : Obligations.SetposEnds := by
  intro s t p c hidle ht hpend hok
  obtain ⟨e, he, hexec⟩ := exec_ends (i := .setpos p c) (op := .setpos) rfl rfl hidle rfl hok
  have htarget : s.target.bind (Target.applyAll (setPosTxns p.toNat c.toNat)) =
      some { t with page := p.extractLsb' 0 3, col := c.extractLsb' 0 7 } := by
    rw [ht, Option.bind_some, applyAll_setPosTxns _ _ hpend, ofNat_toNat_eq_extractLsb' p (by decide),
      ofNat_toNat_eq_extractLsb' c (by decide)]
  rw [State.ended, htarget, setPosTxns_toNat] at hexec
  exact ⟨e, he, hexec⟩

/-! ## `INIT` -/

/-- A one-byte initialization command at a target that awaits no argument. -/
theorem applyAll_plain_cons {t : Target} (hpend : t.pend = none) {v : Byte} (hv : v ∈ plainCommands) (xs : List Txn) :
    Target.applyAll (.cmd v :: xs) t = Target.applyAll xs t := by
  rw [Target.applyAll, Target.apply, cmd_of_pend_none v hpend, decoded_of_mem_plainCommands t hv, Option.bind_some]

/-- A two-byte command at a target that awaits no argument. -/
theorem applyAll_argument_cons {t : Target} (hpend : t.pend = none) {c : Byte} (hc : c ∈ argCommands) (arg : Byte)
    (xs : List Txn) : Target.applyAll (.cmd c :: .cmd arg :: xs) t = Target.applyAll xs
      { t with mode := if c = 0x20#8 then (if arg = 0x00#8 then .horiz else .other) else t.mode } := by
  rw [Target.applyAll, Target.apply, cmd_of_pend_none c hpend, decoded_of_mem_argCommands t hc, Option.bind_some,
    Target.applyAll, Target.apply, cmd_of_pend_some arg (Target.await_pend c t), Option.bind_some,
    await_argument hpend]

/-- The same for the commands with no effect. -/
theorem applyAll_silent_cons {t : Target} (hpend : t.pend = none) {c : Byte} (hc : c ∈ argCommands) (hne : c ≠ 0x20#8)
    (arg : Byte) (xs : List Txn) : Target.applyAll (.cmd c :: .cmd arg :: xs) t = Target.applyAll xs t := by
  rw [applyAll_argument_cons hpend hc, if_neg hne]

/-- The bytes of `INIT` after the first, at a target that awaits no argument: `0x20, 0x00` sets the mode. -/
theorem applyAll_initSeq_tail {t : Target} (hpend : t.pend = none) :
    Target.applyAll (initSeq.tail.map Txn.cmd) t = some { t with mode := .horiz } := by
  have hmode (xs : List Txn) : Target.applyAll (.cmd 0x20#8 :: .cmd 0x00#8 :: xs) t =
      Target.applyAll xs { t with mode := .horiz } := applyAll_argument_cons hpend (by decide) 0x00#8 xs
  have hpend' : ({ t with mode := .horiz } : Target).pend = none := hpend
  simp (disch := decide) only [initSeq, List.tail_cons, List.map_cons, List.map_nil, applyAll_plain_cons hpend,
    applyAll_silent_cons hpend, hmode, applyAll_plain_cons hpend', applyAll_silent_cons hpend']
  rfl

/-- The first byte of `INIT` is a command with no effect, or the argument awaited. -/
theorem apply_initSeq_head (t : Target) :
    ∃ mode, t.apply (.cmd 0xAE#8) = some { t with mode := mode, pend := none } := by
  cases hpend : t.pend with
  | none =>
    refine ⟨t.mode, ?_⟩
    rw [Target.apply, cmd_of_pend_none _ hpend, decoded_of_mem_plainCommands t (by decide), ← hpend]
  | some c => exact ⟨_, cmd_of_pend_some 0xAE#8 hpend⟩

/-- The effect of `INIT` on any target (R80). -/
theorem applyAll_initTxns (t : Target) :
    Target.applyAll initTxns t = some { t with mode := .horiz, pend := none } := by
  obtain ⟨mode, hfirst⟩ := apply_initSeq_head t
  have hcut : initTxns = .cmd 0xAE#8 :: initSeq.tail.map Txn.cmd := rfl
  rw [hcut, Target.applyAll, hfirst, Option.bind_some, applyAll_initSeq_tail rfl]

/-- Settles O34: the first byte finds any awaited argument, the others none but their own. -/
theorem initEnds : Obligations.InitEnds := by
  intro s t hidle ht hok
  obtain ⟨e, he, hexec⟩ := exec_ends (i := .init) (op := .init) rfl rfl hidle rfl hok
  have htarget : s.target.bind (Target.applyAll initTxns) = some { t with mode := .horiz, pend := none } := by
    rw [ht, Option.bind_some, applyAll_initTxns]
  rw [State.ended, htarget] at hexec
  exact ⟨e, he, hexec⟩

end Sys2Proof.Machine
end

section
/-!
PROOF. The net effect of writes (43_framebuffer_writer.md R66, R70): one FrameBufferWriter call stores its bytes at
successive cells from its position on (`Target.written`), however the stream is cut; a cell holds the byte of the last
call that reaches it, and a cell that no call reaches is unchanged.
-/

namespace Sys2Proof.Machine

/-! ## One call -/

/-- The operands of one FrameBufferWriter call. -/
structure Write where
  page : Nat
  col : Nat
  data : List Byte

/-- The transactions of the call (R66). -/
def Write.txns (w : Write) : List Txn := writeTxns w.page w.col w.data

/-- The address of its first cell (R70). -/
def Write.addr (w : Write) : Nat := posAddr w.page w.col

@[simp] theorem Write.addr_mk (page col : Nat) (data : List Byte) :
    (Write.mk page col data).addr = posAddr page col := rfl

/-- The call stores a byte in the cell of address `a`. -/
def Write.Reaches (w : Write) (a : Nat) : Prop := ∃ k < w.data.length, (w.addr + k) % 1024 = a

/-- The target after the call: its bytes stored, the cursor behind the last (R70). -/
def Target.written (t : Target) (w : Write) : Target :=
  { t.at (w.addr + w.data.length) with g := t.g.writeFrom w.addr w.data }

theorem written_page (t : Target) (w : Write) :
    (t.written w).page.toNat = (w.addr + w.data.length) % 1024 / 128 := by
  simp only [Target.written, Target.at, BitVec.toNat_ofNat]
  omega

theorem written_col (t : Target) (w : Write) : (t.written w).col.toNat = (w.addr + w.data.length) % 128 :=
  BitVec.toNat_ofNat _ _

theorem dataBytes_append (bs cs : List Byte) (t : Target) :
    Target.dataBytes (bs ++ cs) t = (Target.dataBytes bs t).bind (Target.dataBytes cs) := by
  induction bs generalizing t with
  | nil => rfl
  | cons b bs ih =>
    simp only [List.cons_append, Target.dataBytes]
    cases t.dataByte b with
    | none => rfl
    | some u => exact ih u

/-- Blocks one after the other are their bytes one after the other. -/
theorem applyAll_blocks (cs : List (List Byte)) (t : Target) :
    Target.applyAll (cs.map Txn.data) t = Target.dataBytes cs.flatten t := by
  induction cs generalizing t with
  | nil => rfl
  | cons c cs ih =>
    rw [List.map_cons, List.flatten_cons, Target.applyAll, dataBytes_append, Target.apply]
    exact congrArg _ (funext ih)

/-- A position and blocks at a ready target, in any cut of the stream (R70). -/
theorem applyAll_position_blocks (page col : Nat) (cs : List (List Byte)) {t : Target} (h : t.Ready) :
    Target.applyAll (setPosTxns page col ++ cs.map Txn.data) t = some (t.written ⟨page, col, cs.flatten⟩) := by
  rw [applyAll_append, applyAll_setPosTxns page col h.2, Option.bind_some, ← at_posAddr, applyAll_blocks,
    dataBytes_at _ _ h.1]
  rfl

theorem applyAll_write (w : Write) {t : Target} (h : t.Ready) : Target.applyAll w.txns t = some (t.written w) := by
  rw [Write.txns, writeTxns, applyAll_position_blocks _ _ _ h, flatten_chunks]

theorem ready_written {t : Target} (h : t.Ready) (w : Write) : (t.written w).Ready := h

/-- A cell that the call does not reach keeps its byte. -/
theorem byte_written_other {t : Target} {w : Write} {a : Nat} (h : ¬ w.Reaches a) : (t.written w).byte a = t.byte a :=
  byte_congr (writeFrom_other _ _ _ fun k hk heq => h ⟨k, hk, heq⟩) rfl

/-- A cell that the call reaches holds the last byte that reaches it. -/
theorem byte_written_last {t : Target} {w : Write} {a k : Nat} (hk : k < w.data.length) (ha : (w.addr + k) % 1024 = a)
    (hlast : ∀ j, k < j → j < w.data.length → (w.addr + j) % 1024 ≠ a) : (t.written w).byte a = w.data[k] :=
  byte_of_read (writeFrom_last _ _ _ hk ha hlast)

/-- A call of at most 1024 bytes reaches no cell twice, so all its bytes stay. -/
theorem byte_written_short {t : Target} {w : Write} {a k : Nat} (hk : k < w.data.length) (ha : (w.addr + k) % 1024 = a)
    (hshort : w.data.length ≤ 1024) : (t.written w).byte a = w.data[k] :=
  byte_written_last hk ha fun j hkj hj => by omega

/-! ## Calls one after the other -/

/-- The target after a list of calls. -/
def Target.writtenAll (t : Target) (ws : List Write) : Target := ws.foldl Target.written t

@[simp] theorem Target.writtenAll_mode (t : Target) (ws : List Write) : (t.writtenAll ws).mode = t.mode := by
  induction ws generalizing t with
  | nil => rfl
  | cons w ws ih => exact ih (t.written w)

@[simp] theorem Target.writtenAll_pend (t : Target) (ws : List Write) : (t.writtenAll ws).pend = t.pend := by
  induction ws generalizing t with
  | nil => rfl
  | cons w ws ih => exact ih (t.written w)

theorem applyAll_writes (ws : List Write) {t : Target} (h : t.Ready) :
    Target.applyAll (ws.flatMap Write.txns) t = some (t.writtenAll ws) := by
  induction ws generalizing t with
  | nil => rfl
  | cons w ws ih =>
    rw [List.flatMap_cons, applyAll_append, applyAll_write w h, Option.bind_some, ih (ready_written h w)]
    rfl

/-- The cursor is behind the last byte of the last call. -/
theorem writtenAll_cursor (t : Target) {ws : List Write} {w : Write} (h : ws.getLast? = some w) :
    (t.writtenAll ws).page.toNat = (w.addr + w.data.length) % 1024 / 128 ∧
      (t.writtenAll ws).col.toNat = (w.addr + w.data.length) % 128 := by
  obtain ⟨before, rfl⟩ := List.getLast?_eq_some_iff.mp h
  rw [Target.writtenAll, List.foldl_concat]
  exact ⟨written_page _ w, written_col _ w⟩

/-- A cell that no call reaches keeps its byte. -/
theorem byte_writtenAll_other {ws : List Write} {a : Nat} (h : ∀ w ∈ ws, ¬ w.Reaches a) (t : Target) :
    (t.writtenAll ws).byte a = t.byte a := by
  induction ws generalizing t with
  | nil => rfl
  | cons w ws ih =>
    exact (ih (fun v hv => h v (List.mem_cons_of_mem w hv)) _).trans (byte_written_other (h w List.mem_cons_self))

/-- A byte of a call of at most 1024 bytes stays where it is stored, if no later call reaches its cell. -/
theorem byte_writtenAll_last {ws : List Write} {i : Nat} (hi : i < ws.length) {a k : Nat}
    (hk : k < ws[i].data.length) (ha : (ws[i].addr + k) % 1024 = a) (hshort : ws[i].data.length ≤ 1024)
    (hlater : ∀ j (hj : j < ws.length), i < j → ¬ ws[j].Reaches a) (t : Target) :
    (t.writtenAll ws).byte a = ws[i].data[k] := by
  induction ws generalizing i t with
  | nil => exact absurd hi (Nat.not_lt_zero i)
  | cons w ws ih =>
    cases i with
    | zero =>
      have hother : ∀ v ∈ ws, ¬ v.Reaches a := fun v hv => by
        obtain ⟨j, hj, rfl⟩ := List.mem_iff_getElem.mp hv
        exact hlater (j + 1) (Nat.succ_lt_succ hj) j.succ_pos
      exact (byte_writtenAll_other hother (t.written w)).trans (byte_written_short hk ha hshort)
    | succ i =>
      exact ih (Nat.lt_of_succ_lt_succ hi) hk ha hshort
        (fun j hj hij => hlater (j + 1) (Nat.succ_lt_succ hj) (Nat.succ_lt_succ hij)) (t.written w)

/-- The same for a table of calls, numbered from 0. -/
theorem byte_writtenAll_table {n : Nat} (f : Nat → Write) {i : Nat} (hi : i < n) {a k : Nat}
    (hk : k < (f i).data.length) (ha : ((f i).addr + k) % 1024 = a) (hshort : (f i).data.length ≤ 1024)
    (hlater : ∀ j < n, i < j → ¬ (f j).Reaches a) (t : Target) :
    (t.writtenAll ((List.range n).map f)).byte a = (f i).data[k] := by
  have hlen : i < ((List.range n).map f).length := by simpa using hi
  have hget : ((List.range n).map f)[i] = f i := by simp
  simp only [← hget] at hk ha hshort ⊢
  refine byte_writtenAll_last hlen hk ha hshort (fun j hj hij => ?_) t
  rw [List.length_map, List.length_range] at hj
  simpa using hlater j hj hij

end Sys2Proof.Machine
end

section
/-!
PROOF. The net effect of the operations that write (43_framebuffer_writer.md R70, 42_font_expander.md R65,
44_text_renderer.md R72, 45_blitters.md R76, R77, 46_display_controller.md R81). Each is a list of FrameBufferWriter
calls; what is left is which cells the calls reach.
-/

namespace Sys2Proof.Machine

/-! ## `WRITE` -/

/-- Settles O27: one call, in any cut of its stream. -/
theorem writeNetEffect : Obligations.WriteNetEffect := by
  intro s t p c data hidle ht hready hne hlen hok
  have hcut : ∀ cs : List (List Byte), cs.flatten = data →
      Target.applyAll (setPosTxns p.toNat c.toNat ++ cs.map Txn.data) t =
        some (t.written ⟨p.toNat, c.toNat, data⟩) := by
    rintro cs rfl
    exact applyAll_position_blocks _ _ cs hready
  have hreq : requestTxns s.font (.write p c data) = (writeTxns p.toNat c.toNat data, .none) := if_neg hne
  have hcount : (writeTxns p.toNat c.toNat data).length = 3 + (data.length + 31) / 32 := length_writeTxns _ _ _
  rw [← hcount] at hok
  refine ⟨exec_ends (i := .write p c data) (op := .write) rfl (decide_eq_true hlen) hidle hreq hok,
    t.written ⟨p.toNat, c.toNat, data⟩, hcut _ (flatten_chunks data), fun a k hk ha hlast => ?last, fun a ha => ?other,
    written_page t _, written_col t _, rfl, rfl, hcut⟩
  case last => exact byte_written_last (w := ⟨p.toNat, c.toNat, data⟩) hk ha hlast
  case other => exact byte_written_other fun ⟨k, hk, heq⟩ => ha k hk heq

/-- The chunks of a non-empty stream are refused outside horizontal mode. -/
theorem applyAll_writeTxns_refused (page col : Nat) {data : List Byte} (hne : data ≠ []) {t : Target}
    (hpend : t.pend = none) (hmode : t.mode ≠ .horiz) : Target.applyAll (writeTxns page col data) t = none := by
  obtain ⟨d, ds, rfl⟩ := List.exists_cons_of_ne_nil hne
  rw [writeTxns, applyAll_append, applyAll_setPosTxns page col hpend, Option.bind_some, applyAll_blocks, flatten_chunks,
    Target.dataBytes, Target.dataByte, if_neg hmode, Option.bind_none]

/-- Settles O45: the engine does not look at the target, which refuses the first byte. -/
theorem dataOutsideHorizontalMode : Obligations.DataOutsideHorizontalMode := by
  intro s t p c data hidle ht hmode hpend hne hlen hok
  have hreq : requestTxns s.font (.write p c data) = (writeTxns p.toNat c.toNat data, .none) := if_neg hne
  have hcount : (writeTxns p.toNat c.toNat data).length = 3 + (data.length + 31) / 32 := length_writeTxns _ _ _
  obtain ⟨e, he, hexec⟩ := exec_ends (i := .write p c data) (op := .write) rfl (decide_eq_true hlen) hidle hreq
    (by rwa [hcount])
  have htarget : s.target.bind (Target.applyAll (writeTxns p.toNat c.toNat data)) = none := by
    rw [ht, Option.bind_some, applyAll_writeTxns_refused _ _ hne hpend hmode]
  rw [State.ended, htarget, hcount] at hexec
  exact ⟨e, he, hexec⟩

/-! ## Glyphs -/

/-- The two calls of a glyph (R65). -/
def glyphWrites (row : GlyphRow) (page col : Nat) : List Write :=
  [⟨page, col, (upperBytes row).toList⟩, ⟨page + 1, col, (lowerBytes row).toList⟩]

theorem glyphTxns_eq_writes (row : GlyphRow) (page col : Nat) :
    glyphTxns row page col = (glyphWrites row page col).flatMap Write.txns := by
  simp [glyphTxns, glyphWrites, Write.txns]

/-- The halves of a glyph lie on two pages, so the lower one reaches no cell of the upper. -/
theorem lower_not_reaches (page col : Nat) {lower : List Byte} (hlen : lower.length = 10) {k : Nat} (hk : k < 10) :
    ¬ (Write.mk (page + 1) col lower).Reaches ((posAddr page col + k) % 1024) := by
  rintro ⟨j, hj, heq⟩
  simp only [Write.addr_mk, posAddr, nCols, hlen] at hj heq
  omega

/-- Settles O24: the lower half is written last, and reaches no cell of the upper. -/
theorem drawglyphEnds : Obligations.DrawglyphEnds := by
  intro s t p c tag v row hidle ht hready hok hrow
  have hreq : requestTxns s.font (.drawglyph p c tag v) = (glyphTxns row p.toNat c.toNat, .none) := by
    simp only [requestTxns, hrow]
  have hwrites := applyAll_writes (glyphWrites row p.toNat c.toNat) hready
  rw [← glyphTxns_eq_writes, glyphTxns_eq] at hwrites
  rw [glyphTxns_eq] at hreq
  have hupper : (upperBytes row).toList.length = 10 := Vector.length_toList
  have hlower : (lowerBytes row).toList.length = 10 := Vector.length_toList
  obtain ⟨hpage, hcol⟩ := writtenAll_cursor t (ws := glyphWrites row p.toNat c.toNat)
    (w := ⟨p.toNat + 1, c.toNat, (lowerBytes row).toList⟩) rfl
  rw [hlower, Write.addr_mk] at hpage hcol
  refine ⟨exec_ends (op := .drawglyph) rfl rfl hidle hreq hok, _, hwrites, fun k => ?upper, fun k => ?lower,
    fun a hup hlo => ?other, hpage, hcol, Target.writtenAll_mode _ _, Target.writtenAll_pend _ _⟩
  case upper =>
    refine (byte_written_other (lower_not_reaches _ _ hlower k.isLt)).trans ?_
    exact (byte_written_short (w := ⟨_, _, (upperBytes row).toList⟩) (k.isLt.trans_eq hupper.symm) rfl (by simp)).trans
      (Vector.getElem_toList _)
  case lower =>
    exact (byte_written_short (w := ⟨_, _, (lowerBytes row).toList⟩) (k.isLt.trans_eq hlower.symm) rfl (by simp)).trans
      (Vector.getElem_toList _)
  case other =>
    refine byte_writtenAll_other (ws := glyphWrites row p.toNat c.toNat) ?_ t
    simp only [glyphWrites, List.forall_mem_cons, List.not_mem_nil, false_imp_iff, implies_true, and_true]
    exact ⟨fun ⟨k, hk, heq⟩ => hup k (hupper ▸ hk) heq.symm, fun ⟨k, hk, heq⟩ => hlo k (hlower ▸ hk) heq.symm⟩

/-! ## Texts -/

/-- The calls of the glyphs `rows`, the first of them character number `i` of a text. -/
def textWrites (startPage startCol i : Nat) (rows : List GlyphRow) : List Write :=
  (rows.zipIdx i).flatMap fun x =>
    glyphWrites x.1 (charCursor startPage startCol x.2).page (charCursor startPage startCol x.2).col

theorem placedGlyphs_eq_writes (startPage startCol i : Nat) (rows : List GlyphRow) :
    placedGlyphs startPage startCol i rows = (textWrites startPage startCol i rows).flatMap Write.txns := by
  simp only [placedGlyphs, textWrites, List.flatMap_assoc, glyphTxns_eq_writes]

/-- A call of a glyph reaches a cell within ten of its position or of the one a page lower. -/
theorem reaches_of_glyph {row : GlyphRow} {page col a : Nat} {w : Write} (hw : w ∈ glyphWrites row page col)
    (h : w.Reaches a) : ∃ k < 10, a = (posAddr page col + k) % 1024 ∨ a = (posAddr (page + 1) col + k) % 1024 := by
  obtain ⟨k, hk, rfl⟩ := h
  simp only [glyphWrites, List.mem_cons, List.not_mem_nil, or_false] at hw
  rcases hw with rfl | rfl <;> rw [Vector.length_toList] at hk
  · exact ⟨k, hk, .inl rfl⟩
  · exact ⟨k, hk, .inr rfl⟩

/-- Settles O30: the calls of a text are those of its glyphs, at the places of R73 and R74. -/
theorem drawstrFrame : Obligations.DrawstrFrame := by
  intro s u t p c text m q hidle ht hready hlen hok hentries hm hq hexec
  subst hm hq
  obtain ⟨rows, hrows⟩ := exists_rows hentries
  rw [← length_of_rows hrows, ← length_placedGlyphs p.toNat c.toNat 0] at hok
  obtain ⟨e, -, hends⟩ := exec_ends (i := .drawstr p c text) (op := .drawstr) rfl (decide_eq_true hlen) hidle
    (requestTxns_drawstr hrows p c) hok
  cases hexec.symm.trans hends
  refine ⟨t.writtenAll (textWrites p.toNat c.toNat 0 rows), ?target, Target.writtenAll_mode _ _,
    Target.writtenAll_pend _ _, fun a ha => byte_writtenAll_other (fun w hw hreach => ?frame) t⟩
  case target =>
    show s.target.bind (Target.applyAll (placedGlyphs p.toNat c.toNat 0 rows)) = _
    rw [ht, Option.bind_some, placedGlyphs_eq_writes, applyAll_writes _ hready]
  case frame =>
    obtain ⟨⟨row, i⟩, hi, hglyph⟩ := List.mem_flatMap.mp hw
    obtain ⟨-, hi, -⟩ := List.mem_zipIdx hi
    have hcount := length_of_rows hrows
    obtain ⟨k, hk, hup | hlo⟩ := reaches_of_glyph hglyph hreach
    · exact (ha i (by omega) k hk).1 hup
    · exact (ha i (by omega) k hk).2 hlo

/-! ## Icons -/

/-- The four calls of an icon (R76). -/
def iconWrite (page col : Nat) (icon : List Byte) (j : Nat) : Write :=
  ⟨tilePage page j, tileCol col j, iconTile icon j⟩

theorem iconTxns_eq_writes (page col : Nat) (icon : List Byte) :
    iconTxns page col icon = ((List.range 4).map (iconWrite page col icon)).flatMap Write.txns := by
  simp [iconTxns, iconWrite, Write.txns, List.range_succ, tilePage, tileCol, tileLen]

/-- The 32 cells of an icon are all different. -/
theorem iconWrite_not_reaches (page col : Nat) (icon : List Byte) {i j k : Nat} (hij : i < j) (hj : j < 4)
    (hk : k < 8) :
    ¬ (iconWrite page col icon j).Reaches ((posAddr (page + i / 2) (col + 8 * (i % 2)) + k) % 1024) := by
  rintro ⟨l, hl, heq⟩
  have hl : l < 8 := hl.trans_le (List.length_take_le _ _)
  simp only [iconWrite, Write.addr_mk, tilePage, tileCol, tileLen, posAddr, nCols] at heq
  omega

theorem iconTile_of_tiles (tiles : Vector (Vector Byte 8) 4) {j : Nat} (hj : j < 4) :
    iconTile (tiles[0].toList ++ tiles[1].toList ++ tiles[2].toList ++ tiles[3].toList) j = tiles[j].toList := by
  interval_cases j <;> simp [iconTile, tileLen, List.drop_append, List.drop_of_length_le, List.take_of_length_le]

/-- Settles O32: the tiles are the slices of the icon, and their cells are all different. -/
theorem drawiconEnds : Obligations.DrawiconEnds := by
  intro s t p c tiles hidle ht hready hok
  generalize hicon : tiles[0].toList ++ tiles[1].toList ++ tiles[2].toList ++ tiles[3].toList = icon
  have hlen : icon.length = 32 := by simp [← hicon]
  have htile {j : Nat} (hj : j < 4) : iconTile icon j = tiles[j].toList := hicon ▸ iconTile_of_tiles tiles hj
  have hform := iconTxns_eq p.toNat c.toNat hlen
  rw [htile (j := 0) (by decide), htile (j := 1) (by decide), htile (j := 2) (by decide),
    htile (j := 3) (by decide)] at hform
  rw [← hform]
  have hwrites := applyAll_writes ((List.range 4).map (iconWrite p.toNat c.toNat icon)) hready
  rw [← iconTxns_eq_writes] at hwrites
  have hdata {j : Nat} (hj : j < 4) : (iconWrite p.toNat c.toNat icon j).data.length = 8 := by
    simp [iconWrite, htile hj]
  obtain ⟨hpage, hcol⟩ := writtenAll_cursor t (ws := (List.range 4).map (iconWrite p.toNat c.toNat icon))
    (w := iconWrite p.toNat c.toNat icon 3) rfl
  rw [hdata (by decide)] at hpage hcol
  refine ⟨exec_ends (i := .drawicon p c icon) (op := .drawicon) rfl (decide_eq_true hlen) hidle rfl (by rwa [hform]),
    _, hwrites, fun j k => ?cell, fun a ha => byte_writtenAll_other (fun w hw hreach => ?frame) t, hpage, hcol,
    Target.writtenAll_mode _ _, Target.writtenAll_pend _ _⟩
  case cell =>
    refine (byte_writtenAll_table (iconWrite p.toNat c.toNat icon) j.isLt (k.isLt.trans_eq (hdata j.isLt).symm) rfl
      (by rw [hdata j.isLt]; decide) (fun l hl hjl => iconWrite_not_reaches _ _ _ hjl hl k.isLt) t).trans ?_
    simp [iconWrite, htile j.isLt]
  case frame =>
    obtain ⟨j, hj, rfl⟩ := List.mem_map.mp hw
    have hj := List.mem_range.mp hj
    obtain ⟨k, hk, heq⟩ := hreach
    exact ha ⟨j, hj⟩ ⟨k, hk.trans_eq (hdata hj)⟩ heq.symm

/-! ## Images -/

/-- Byte `k` of an image, as a call (R77). -/
def imageWrite (page col : Nat) (image : List Byte) (k : Nat) : Write :=
  ⟨page + k / 64, col + k % 64, [image.getD k 0#8]⟩

theorem imageTxns_eq_writes (page col : Nat) {image : List Byte} (hlen : image.length = 384) :
    imageTxns page col image = ((List.range 384).map (imageWrite page col image)).flatMap Write.txns := by
  rw [imageTxns_eq page col hlen, List.flatMap_map]
  exact List.flatMap_congr fun k _ => (writeTxns_of_le _ _ (by simp) (by simp [chunkMax])).symm

theorem posAddr_lt (page col : Nat) : posAddr page col < 1024 := by
  simp only [posAddr, nCols]
  omega

/-- A call of one byte reaches the cell of its position. -/
theorem reaches_singleton_iff (page col : Nat) (b : Byte) (a : Nat) :
    (Write.mk page col [b]).Reaches a ↔ posAddr page col = a := by
  have hmod := Nat.mod_eq_of_lt (posAddr_lt page col)
  constructor
  · rintro ⟨k, hk, rfl⟩
    obtain rfl : k = 0 := by simpa using hk
    exact hmod.symm
  · rintro rfl
    exact ⟨0, by simp, hmod⟩

/-- The 384 cells of an image are all different. -/
theorem posAddr_image_ne (page col : Nat) {i j : Nat} (hij : i < j) (hj : j < 384) :
    posAddr (page + j / 64) (col + j % 64) ≠ posAddr (page + i / 64) (col + i % 64) := by
  simp only [posAddr, nCols]
  omega

/-- Settles O33: the cells are all different, so each byte stays. -/
theorem drawimgNetEffect : Obligations.DrawimgNetEffect := by
  intro s t p c image hlen hidle ht hready hok
  have hform := imageTxns_eq p.toNat c.toNat hlen
  have hcount : (imageTxns p.toNat c.toNat image).length = 1536 := by
    rw [hform, length_flatMap_const (n := 4) fun _ _ => rfl, List.length_range]
  rw [← hcount] at hok
  have hwrites := applyAll_writes ((List.range 384).map (imageWrite p.toNat c.toNat image)) hready
  rw [← imageTxns_eq_writes _ _ hlen] at hwrites
  have hlast : ((List.range 384).map (imageWrite p.toNat c.toNat image)).getLast? =
      some (imageWrite p.toNat c.toNat image 383) := by
    rw [List.getLast?_map, List.getLast?_range]
    rfl
  obtain ⟨hpage, hcol⟩ := writtenAll_cursor t hlast
  rw [← hform]
  refine ⟨exec_ends (i := .drawimg p c image) (op := .drawimg) rfl (decide_eq_true hlen) hidle rfl hok,
    _, hwrites, fun q k => ?cell, fun a ha => byte_writtenAll_other (fun w hw hreach => ?frame) t, hpage, hcol,
    Target.writtenAll_mode _ _, Target.writtenAll_pend _ _⟩
  case cell =>
    have hq := q.isLt
    have hk := k.isLt
    have hrow : (q.val * 64 + k.val) / 64 = q.val := by omega
    have hcol : (q.val * 64 + k.val) % 64 = k.val := by omega
    have hi : q.val * 64 + k.val < 384 := by omega
    have haddr : (imageWrite p.toNat c.toNat image (q.val * 64 + k.val)).addr =
        posAddr (p.toNat + q.val) (c.toNat + k.val) := by
      rw [imageWrite, hrow, hcol, Write.addr_mk]
    refine (byte_writtenAll_table (imageWrite p.toNat c.toNat image) hi (k := 0) (by simp [imageWrite])
      (by rw [haddr]; exact Nat.mod_eq_of_lt (posAddr_lt _ _)) (by simp [imageWrite]) (fun l hl hjl hreach => ?_)
      t).trans ?_
    · refine posAddr_image_ne p.toNat c.toNat hjl hl ?_
      rw [hrow, hcol]
      exact (reaches_singleton_iff _ _ _ _).mp hreach
    · simp [imageWrite, hlen, hi]
  case frame =>
    obtain ⟨i, hi, rfl⟩ := List.mem_map.mp hw
    have hi := List.mem_range.mp hi
    exact ha ⟨i / 64, by omega⟩ ⟨i % 64, by omega⟩ ((reaches_singleton_iff _ _ _ _).mp hreach).symm

/-! ## `CLEAR` -/

/-- One page of `CLEAR`, as a call (R81). -/
def clearWrite (page : Nat) : Write := ⟨page, 0, clearBytes⟩

theorem clearTxns_eq_writes : clearTxns = ((List.range 8).map clearWrite).flatMap Write.txns := by
  rw [List.flatMap_map]
  rfl

theorem length_clearBytes : clearBytes.length = 128 := List.length_replicate

/-- A page's call reaches the cells of the page. -/
theorem clearWrite_reaches_iff {page : Nat} (hpage : page < 8) (a : Nat) :
    (clearWrite page).Reaches a ↔ a / 128 = page := by
  constructor
  · rintro ⟨k, hk, rfl⟩
    have hk : k < 128 := hk.trans_eq length_clearBytes
    simp only [clearWrite, Write.addr_mk, posAddr, nCols]
    omega
  · intro h
    refine ⟨a % 128, (Nat.mod_lt a (by decide)).trans_eq length_clearBytes.symm, ?_⟩
    simp only [clearWrite, Write.addr_mk, posAddr, nCols]
    omega

/-- Settles O35: the eight calls reach each of the 1024 cells. -/
theorem clearNetEffect : Obligations.ClearNetEffect := by
  intro s t hidle ht hready hok
  have hwrites := applyAll_writes ((List.range 8).map clearWrite) hready
  rw [← clearTxns_eq_writes] at hwrites
  obtain ⟨hpage, hcol⟩ := writtenAll_cursor t (ws := (List.range 8).map clearWrite) (w := clearWrite 7) rfl
  have hend : (clearWrite 7).addr + (clearWrite 7).data.length = 1024 := by
    rw [clearWrite, length_clearBytes]
    rfl
  rw [hend] at hpage hcol
  rw [← clearTxns_eq]
  refine ⟨exec_ends (i := .clear) (op := .clear) rfl rfl hidle rfl (by rwa [clearTxns_eq]),
    _, hwrites, fun p c => ?cell, fun a ha => byte_writtenAll_other (fun w hw hreach => ?frame) t,
    BitVec.eq_of_toNat_eq hpage, BitVec.eq_of_toNat_eq hcol, Target.writtenAll_mode _ _, Target.writtenAll_pend _ _⟩
  case cell =>
    have hp := p.isLt
    have hc := c.isLt
    refine (byte_writtenAll_table clearWrite hp (k := c.toNat) (hc.trans_eq length_clearBytes.symm) ?_
      (length_clearBytes.trans_le (by decide)) (fun l hl hjl hreach => ?_) t).trans ?_
    · simp only [clearWrite, Write.addr_mk, posAddr, cellAddr, nCols]
      omega
    · have := (clearWrite_reaches_iff hl _).mp hreach
      simp only [cellAddr, nCols] at this
      omega
    · exact List.getElem_replicate _
  case frame =>
    obtain ⟨i, hi, rfl⟩ := List.mem_map.mp hw
    have hi := List.mem_range.mp hi
    have := (clearWrite_reaches_iff hi a).mp hreach
    omega

end Sys2Proof.Machine
end
